-- ==== Sys2Proof/Word.lean ====
section
/-! DEFINITION. The word types of the block (00_scope.md R10, R12): bytes of the buffers and tables, 32-bit
registers and command words, 18-bit bus addresses. -/

namespace Sys2Proof

/-- A symbol, or one byte of a buffer (R7, R10). -/
abbrev Byte := BitVec 8

/-- A register, a bus data word or a command word (R10, R90). -/
abbrev Word := BitVec 32

/-- A byte address of the host bus (20_memory.md R60). -/
abbrev BusAddr := BitVec 18

end Sys2Proof
end

