-- ==== Sys2Proof/Syntax.lean ====
section
/-! DEFINITION. The commands of the block as syntax: one constructor per row of the opcode map (30_encoding.md R93),
operands as the unsigned integers R92 and R97 make of them. -/

namespace Sys2Proof

/-- A command (R93). The ranges of the operands (R97) are checked in WellFormed. -/
inductive Instr where
  /-- NOP (R257). -/
  | nop
  /-- FREQ (R170). -/
  | freq
  /-- BUILD_ENC (R185). -/
  | buildEnc
  /-- ENCODE (R200). -/
  | encode
  /-- BUILD_DEC (R241). -/
  | buildDec
  /-- DECODE (R217). -/
  | decode
  /-- COMPRESS (R255). -/
  | compress
  /-- DECOMPRESS (R256). -/
  | decompress
  /-- PUTBIT b (R155). -/
  | putbit (b : Bool)
  /-- PUTCYCLE m, j (R157). -/
  | putcycle (m j : Nat)
  /-- GETBIT idx (R160). -/
  | getbit (idx : Nat)
  /-- RANK2MJ rank (R190). -/
  | rank2mj (rank : Nat)
  /-- MJ2RANK m, j (R192). -/
  | mj2rank (m j : Nat)
  deriving DecidableEq, Repr

end Sys2Proof
end

