-- ==== Sys2Proof/WellFormed.lean ====
section
/-! DEFINITION. The operand ranges of 30_encoding.md R97: what each command's fields can hold (R91, R92). -/

namespace Sys2Proof

/-- Every operand lies in the range R97 gives it. -/
def wellFormed : Instr → Bool
  | .nop => true
  | .freq => true
  | .buildEnc => true
  | .encode => true
  | .buildDec => true
  | .decode => true
  | .compress => true
  | .decompress => true
  | .putbit _ => true
  | .putcycle m j => decide (m ≤ 31) && decide (j ≤ 31)
  | .getbit idx => decide (idx < 2 ^ 24)
  | .rank2mj rank => decide (rank ≤ 255)
  | .mj2rank m j => decide (m ≤ 31) && decide (j ≤ 31)

end Sys2Proof
end

