-- ==== Sys2Proof/Decode.lean ====
section
/-! DEFINITION. The decoder of command words (30_encoding.md R91 to R95) and, after it, the encoder. -/

namespace Sys2Proof

/-- One row of the opcode map (R93): a word w selects it when (w AND mask) = mtch; `build` reads its fields (R92). -/
structure Row where
  mtch  : Word
  mask  : Word
  build : Word → Instr

/-- The field `v[hi:lo]` as an unsigned integer (00_scope.md R12, 30_encoding.md R92). -/
def field (hi lo : Nat) (w : Word) : Nat := (w.extractLsb hi lo).toNat

/-- The opcode map, row by row (R93). -/
def rows : List Row :=
  [ ⟨0x00000000, 0xFFFFFFFF, fun _ => .nop⟩,
    ⟨0x00000001, 0xFFFFFFFF, fun _ => .freq⟩,
    ⟨0x00000002, 0xFFFFFFFF, fun _ => .buildEnc⟩,
    ⟨0x00000003, 0xFFFFFFFF, fun _ => .encode⟩,
    ⟨0x00000004, 0xFFFFFFFF, fun _ => .buildDec⟩,
    ⟨0x00000005, 0xFFFFFFFF, fun _ => .decode⟩,
    ⟨0x00000006, 0xFFFFFFFF, fun _ => .compress⟩,
    ⟨0x00000007, 0xFFFFFFFF, fun _ => .decompress⟩,
    ⟨0x00000008, 0xFFFFFEFF, fun w => .putbit (w.getLsbD 8)⟩,
    ⟨0x00000009, 0xFFE0E0FF, fun w => .putcycle (field 12 8 w) (field 20 16 w)⟩,
    ⟨0x0000000A, 0x000000FF, fun w => .getbit (field 31 8 w)⟩,
    ⟨0x0000000B, 0xFFFF00FF, fun w => .rank2mj (field 15 8 w)⟩,
    ⟨0x0000000C, 0xFFE0E0FF, fun w => .mj2rank (field 12 8 w) (field 20 16 w)⟩ ]

/-- The word w selects the row (R93). -/
def Row.selects (r : Row) (w : Word) : Bool := w &&& r.mask == r.mtch

/-- What a command word is (R94, R95): one command, or an illegal word, named by the clause of R95 it falls under. -/
inductive Decoded where
  /-- A row of the opcode map matches. -/
  | command (i : Instr)
  /-- R95 (a): OP is 0xD, 0xE or 0xF. -/
  | reservedOp
  /-- R95 (b): a bit that the word's format marks 0 is 1. -/
  | reservedBits
  deriving DecidableEq, Repr

/-- The decode procedure (R94): total on the 32-bit words. -/
def decode (w : Word) : Decoded :=
  match rows.find? (fun r => r.selects w) with
  | some r => .command (r.build w)
  | none => if 0xD ≤ field 3 0 w then .reservedOp else .reservedBits

/-- The command word of a command, bits 31 down to 0 as R91 writes the five formats. -/
def encode : Instr → Word
  | .nop => 0#28 ++ 0x0#4
  | .freq => 0#28 ++ 0x1#4
  | .buildEnc => 0#28 ++ 0x2#4
  | .encode => 0#28 ++ 0x3#4
  | .buildDec => 0#28 ++ 0x4#4
  | .decode => 0#28 ++ 0x5#4
  | .compress => 0#28 ++ 0x6#4
  | .decompress => 0#28 ++ 0x7#4
  | .putbit b => 0#23 ++ BitVec.ofBool b ++ 0#4 ++ 0x8#4
  | .putcycle m j => 0#11 ++ BitVec.ofNat 5 j ++ 0#3 ++ BitVec.ofNat 5 m ++ 0#4 ++ 0x9#4
  | .getbit idx => BitVec.ofNat 24 idx ++ 0#4 ++ 0xA#4
  | .rank2mj rank => 0#16 ++ BitVec.ofNat 8 rank ++ 0#4 ++ 0xB#4
  | .mj2rank m j => 0#11 ++ BitVec.ofNat 5 j ++ 0#3 ++ BitVec.ofNat 5 m ++ 0#4 ++ 0xC#4

/-- The 32-bit word the host's numbering (bit 0 least significant, `nbits` bits given, all bits above them 0) stands for. -/
def tableWord (nbits w : Nat) : Word := BitVec.ofNat 32 (w % 2 ^ nbits)

/-- The command the decoder reads from a word of the opcode table (none where it refuses). -/
def decodeTableWord (nbits w : Nat) : Option Instr :=
  match decode (tableWord nbits w) with
  | .command i => some i
  | .reservedOp => none
  | .reservedBits => none

end Sys2Proof
end

