-- ==== Sys2Proof/Config.lean ====
section
/-! DEFINITION. What an implementation of the block fixes (the capacities, 00_scope.md R8, R9) and the values the
spec leaves open (93_implementation_defined.md I1 to I4, I20), as constants without a body. -/

namespace Sys2Proof.Config

/-- The two parameters of an implementation (R8, R9). They are held in State, as the read-only registers IN_CAP and
OUT_CAP are (10_state.md R39, R40), so that a statement about every state is one about every capacity. -/
structure Params where
  inCap  : Nat
  outCap : Nat
  deriving DecidableEq, Repr

/-- The legal values of R8 and R9. -/
abbrev Params.legal (p : Params) : Prop :=
  (p.inCap % 4 = 0 ∧ 4 ≤ p.inCap ∧ p.inCap ≤ 65536) ∧
  (p.outCap % 4 = 0 ∧ 260 ≤ p.outCap ∧ p.outCap ≤ 65536)

/-- The suggested defaults of R8 and R9 (log entry 1). -/
def suggested : Params := { inCap := 4096, outCap := 16384 }

/-- FREE VALUE (93 I1 to I3, log entry 2): what INBUF holds at an offset the host has not written since the last reset.
The first argument counts the resets, so each reset draws anew (70_reset_and_hazards.md R300, R301). -/
opaque inbufDraw : Nat → Nat → Byte

/-- FREE VALUE (93 I1, I2, I4, log entry 2): what OUTBUF holds at an offset neither the host nor a command has written
since the last reset; arguments as for `inbufDraw`. -/
opaque outbufDraw : Nat → Nat → Byte

/-- FREE VALUE (93 I20, log entry 3): for how many turns of the host the scheduler lets the n-th accepted command stay
BUSY before it completes: any finite number. -/
opaque busyTurns : Nat → Nat

end Sys2Proof.Config
end

