-- ==== Sys2Proof/Machine/State.lean ====
section
/-! DEFINITION. The state of the block and of the host that drives it (10_state.md, 20_memory.md R61, 70_reset_and_hazards.md
R300), as plain data, and the state right after reset. -/

namespace Sys2Proof.Machine

/-- The error codes of STATUS.ERR (60_exceptions.md R270); codes 9 to 15 are never written (R29), so they have no name. -/
inductive ErrCode where
  | ok
  | illegalCmd
  | alphabetOverflow
  | invalidHeader
  | unresolvedCycle
  | truncatedStream
  | internalInvariant
  | capacity
  | range
  deriving DecidableEq, Repr

/-- The width of a bus transaction. Only 32-bit ones are accepted (20_memory.md R67); the host may try the others. -/
inductive Width where
  | w8
  | w16
  | w32
  deriving DecidableEq, Repr

/-- What the outside world can do to the block in one turn of the host. -/
inductive HostOp where
  /-- `read(a)` (R61). -/
  | read (a : BusAddr) (width : Width)
  /-- `write(a, w)` (R61). -/
  | write (a : BusAddr) (width : Width) (w : Word)
  /-- The reset event (70_reset_and_hazards.md R300 to R302). -/
  | reset
  /-- POLL (30_encoding.md R98): read STATUS until bit 0 is 0. -/
  | poll
  deriving DecidableEq, Repr

/-- The bus's response to one transaction (R61, R66). -/
inductive BusResponse where
  /-- An accepted read returns a word. -/
  | data (w : Word)
  /-- An accepted write is done. -/
  | done
  /-- A bus error in answer to a read, with the data word it returns (R66: 0x00000000, which carries no meaning). -/
  | readError (w : Word)
  /-- A bus error in answer to a write. -/
  | writeError
  deriving DecidableEq, Repr

/-- A table of 256 entries, indexed by a symbol or a rank (R41 to R43). -/
abbrev Table (α : Type) := Vector α 256

/-- A buffer's written bytes: (offset, byte) pairs, offsets strictly rising. An offset that is not listed has not been
written since reset, and reads as the free draw of Config (R45, R46, 93 I1; log entry 2). -/
abbrev Memory := List Host.Cell

/-- The state: every register, table and buffer of 10_state.md, the engine's hidden state (R49), and the model's own
fields (`turns`, `queue`, `response`, `resets`, `accepts`). -/
structure State where
  /-- IN_CAP and OUT_CAP, constants of the implementation (R39, R40). -/
  params   : Config.Params
  /-- STATUS.BUSY (R27). -/
  busy     : Bool
  /-- STATUS.DONE (R28). -/
  done     : Bool
  /-- STATUS.ERR (R29). -/
  err      : ErrCode
  /-- The command word the engine has latched (R130); hidden (R49). -/
  latch    : Word
  /-- MODEL: host turns left before the running command completes (93 I20, log entry 3). -/
  turns    : Nat
  /-- IN_LEN (R30). -/
  inLen    : Word
  /-- ORIG_LEN (R31). -/
  origLen  : Word
  /-- OUT_LEN (R32). -/
  outLen   : Word
  /-- K (R33). -/
  k        : Byte
  /-- WBASE (R34). -/
  wbase    : BitVec 16
  /-- WBITS (R35). -/
  wbits    : Word
  /-- RBITS (R36). -/
  rbits    : Word
  /-- CYCLE.M (R37). -/
  cycleM   : BitVec 5
  /-- CYCLE.J (R37). -/
  cycleJ   : BitVec 5
  /-- RESULT (R38). -/
  result   : Word
  /-- FREQ (R41). -/
  freq     : Table Word
  /-- SYMTAB (R42). -/
  symtab   : Table Byte
  /-- RANKTAB (R43); `none` is ABSENT. -/
  ranktab  : Table (Option Byte)
  /-- INBUF (R45). -/
  inbuf    : Memory
  /-- OUTBUF (R46). -/
  outbuf   : Memory
  /-- MODEL: the host's pending operations, the next one first (R61, log entry 4). -/
  queue    : List HostOp
  /-- MODEL: the response to the host's last transaction (log entry 5). -/
  response : Option BusResponse
  /-- MODEL: how many reset events there have been (log entry 2). -/
  resets   : Nat
  /-- MODEL: how many commands have been accepted (log entry 3). -/
  accepts  : Nat
  deriving DecidableEq, Repr

/-- The reset state of a block with the given parameters (R300), the model's own counters and the host's queue given. -/
def State.resetWith (p : Config.Params) (resets accepts : Nat) (queue : List HostOp) : State :=
  { params := p
    busy := false
    done := false
    err := .ok
    latch := 0
    turns := 0
    inLen := 0
    origLen := 0
    outLen := 0
    k := 0
    wbase := 0
    wbits := 0
    rbits := 0
    cycleM := 0
    cycleJ := 0
    result := 0
    freq := Vector.replicate 256 0
    symtab := Vector.replicate 256 0
    ranktab := Vector.replicate 256 none
    inbuf := []
    outbuf := []
    queue := queue
    response := none
    resets := resets
    accepts := accepts }

/-- The machine right after reset (R300), with the suggested capacities (log entry 1) and nothing pending. -/
def State.reset : State := State.resetWith Config.suggested 0 0 []

/-- Why the machine stops with a fault: it never does. No error is fatal (40_command_model.md R138), the block has no trap
(60_exceptions.md R276), and a bus error is a response that stops nothing (R274); so no constructor (log entry 8). -/
inductive Fault where
  deriving DecidableEq, Repr

/-- Why an instruction has no meaning. -/
inductive Refusal where
  /-- Raised by exec's arm of an instruction without a meaning, and by nothing else; every instruction has one, so it is
  never raised. Safe: the machine would stop where the hardware goes on. -/
  | notModelled (mnemonic : String)
  deriving DecidableEq, Repr

end Sys2Proof.Machine
end

