-- ==== Sys2Proof/Machine/Ops.lean ====
section
/-! DEFINITION. The operations shared by the commands and the bus: tables and buffers (10_state.md, 20_memory.md), the bit
writer and the bit reader (41_bitstream.md R150 to R154), and completing a command (40_command_model.md R134). -/

namespace Sys2Proof.Machine

/-! ### Tables -/

/-- The entry of a table (R41 to R43). -/
def Table.entry {α : Type} (t : Table α) (i : Byte) : α := t[i.toNat]'i.isLt

/-- The table with one entry written. -/
def Table.setEntry {α : Type} (t : Table α) (i : Byte) (x : α) : Table α := t.set i.toNat x i.isLt

/-- The 256 symbols in ascending order (R7). -/
def symbols : List Byte := (List.range 256).map (BitVec.ofNat 8)

/-! ### Buffers -/

/-- The canonical form of a buffer: offsets strictly rising. -/
abbrev Memory.wf (m : Memory) : Prop := m.Pairwise (fun c d => c.1 < d.1)

/-- Every listed offset lies below the capacity (R45, R46). -/
abbrev Memory.below (m : Memory) (cap : Nat) : Prop := ∀ c ∈ m, c.1 < cap

/-- The byte written at an offset, none if it has not been written since reset. -/
def Memory.cell : Memory → Nat → Option Byte
  | [], _ => none
  | (a, x) :: m, i => if i = a then some x else Memory.cell m i

/-- The buffer with one byte written. -/
def Memory.put : Memory → Nat → Byte → Memory
  | [], i, y => [(i, y)]
  | (a, x) :: m, i, y =>
    if i < a then (i, y) :: (a, x) :: m
    else if i = a then (i, y) :: m
    else (a, x) :: Memory.put m i y

/-- The buffer with the bytes written at consecutive offsets from i on. -/
def Memory.putBytes : Memory → Nat → List Byte → Memory
  | m, _, [] => m
  | m, i, y :: ys => Memory.putBytes (Memory.put m i y) (i + 1) ys

/-- `INBUF[i]` (R45): the byte the host wrote, or the free draw of this reset (93 I1, I3; log entry 2). -/
def State.inByte (s : State) (i : Nat) : Byte :=
  (Memory.cell s.inbuf i).getD (Config.inbufDraw s.resets i)

/-- `OUTBUF[i]` (R46): the byte last written, or the free draw of this reset (93 I1, I4; log entry 2). -/
def State.outByte (s : State) (i : Nat) : Byte :=
  (Memory.cell s.outbuf i).getD (Config.outbufDraw s.resets i)

/-- `INBUF[i .. i + n)`. -/
def State.inBytes (s : State) (i n : Nat) : List Byte := (List.range n).map (fun d => s.inByte (i + d))

/-- `OUTBUF[i .. i + n)`. -/
def State.outBytes (s : State) (i n : Nat) : List Byte := (List.range n).map (fun d => s.outByte (i + d))

/-- The input a command reads: `INBUF[0 .. IN_LEN)` (R30). -/
def State.input (s : State) : List Byte := s.inBytes 0 s.inLen.toNat

/-! ### Updates of the state -/

/-- OUT_LEN <- n (R13: stored modulo 2^32). -/
def State.setOutLen (n : Nat) (s : State) : State := { s with outLen := BitVec.ofNat 32 n }

/-- RESULT <- w. -/
def State.setResult (w : Word) (s : State) : State := { s with result := w }

/-- FREQ <- t, all entries. -/
def State.setFreq (t : Table Word) (s : State) : State := { s with freq := t }

/-- K, SYMTAB and RANKTAB, all entries, as the two builders write them (R185, R241). -/
def State.setCodeTable (k : Nat) (sym : Table Byte) (rank : Table (Option Byte)) (s : State) : State :=
  { s with k := BitVec.ofNat 8 k, symtab := sym, ranktab := rank }

/-- RBITS and CYCLE (R36, R37): the counts saturate at 31 in CYCLE's 5-bit fields (R219). -/
def State.setCursor (pos m j : Nat) (s : State) : State :=
  { s with
    rbits := BitVec.ofNat 32 pos
    cycleM := BitVec.ofNat 5 (min m 31)
    cycleJ := BitVec.ofNat 5 (min j 31) }

/-- OUTBUF[i ..] <- the bytes. -/
def State.putOut (i : Nat) (ys : List Byte) (s : State) : State :=
  { s with outbuf := Memory.putBytes s.outbuf i ys }

/-- The writer's stream begins at OUTBUF[base], empty (R34, R35). -/
def State.startWriter (base : Nat) (s : State) : State := { s with wbase := BitVec.ofNat 16 base, wbits := 0 }

/-! ### The bit writer and the bit reader -/

/-- `ceil8(n)`, the bytes that hold n bits (00_scope.md R13). -/
def ceil8 (n : Nat) : Nat := (n + 7) / 8

/-- A byte with bit p set to b (R150). -/
def setBit (x : Byte) (p : Nat) (b : Bool) : Byte :=
  if b then x ||| (1#8 <<< p) else x &&& ~~~(1#8 <<< p)

/-- The OUTBUF offset of the next bit of the writer's stream, an unbounded integer (R150). -/
def State.writeOffset (s : State) : Nat := s.wbase.toNat + s.wbits.toNat / 8

/-- The position of the next bit in that byte (R150). -/
def State.writePos (s : State) : Nat := 7 - s.wbits.toNat % 8

/-- `append_bit(b)` (R150); none is CAPFAIL, which writes nothing. -/
def appendBit (b : Bool) (s : State) : Option State :=
  let a := s.writeOffset
  let p := s.writePos
  if s.params.outCap ≤ a then none
  else
    let y := if p = 7 then (BitVec.ofBool b).setWidth 8 <<< 7 else setBit (s.outByte a) p b
    some { s with outbuf := Memory.put s.outbuf a y, wbits := s.wbits + 1 }

/-- Append the bits in order up to the first CAPFAIL (R151): the state reached, and whether every bit was appended. -/
def appendBits : List Bool → State → State × Bool
  | [], s => (s, true)
  | b :: bs, s =>
    match appendBit b s with
    | none => (s, false)
    | some s' => appendBits bs s'

/-- The bit string `0^m 1^j` (30_encoding.md R103). -/
def cycleBits (m j : Nat) : List Bool := List.replicate m false ++ List.replicate j true

/-- `append_cycle(m, j)` (R151). -/
def appendCycle (m j : Nat) (s : State) : State × Bool := appendBits (cycleBits m j) s

/-- `wlen()` (R154). -/
def State.wlen (s : State) : Nat := s.wbase.toNat + ceil8 s.wbits.toNat

/-- `bit_at(base, i)` (R152). -/
def State.bitAt (s : State) (base i : Nat) : Bool := (s.inByte (base + i / 8)).getLsbD (7 - i % 8)

/-- Bit i of the stream that begins at OUTBUF[base], in the same order (20_memory.md R69). -/
def State.outBitAt (s : State) (base i : Nat) : Bool := (s.outByte (base + i / 8)).getLsbD (7 - i % 8)

/-! ### Running and completing a command -/

/-- What the pseudocode of a command leaves when it calls `complete(err)`: the state, and the code. -/
structure Run where
  state : State
  err   : ErrCode

/-- `complete(e)` (R134): ERR <- e, BUSY <- 0, DONE <- 1; the engine's hidden state is discarded (R49, log entry 6). -/
def complete (e : ErrCode) (s : State) : State :=
  { s with err := e, busy := false, done := true, latch := 0, turns := 0 }

/-- The outcome of an instruction: its pseudocode, then its completion. -/
def finish (r : Run) : Host.Outcome State Fault Refusal := .next (complete r.err r.state)

/-- Go on with the next sub-command of a composite if the one before completed OK (40_command_model.md R139). -/
def Run.andThen (r : Run) (f : State → Run) : Run := if r.err = .ok then f r.state else r

/-- The clean-up of a composite (47_composite.md R255, R256): OUT_LEN <- 0 on an error. -/
def Run.cleanUp (r : Run) : Run := if r.err = .ok then r else { r with state := r.state.setOutLen 0 }

/-- The input range check (40_command_model.md R137), before anything else of a command that reads INBUF. -/
def ifInRange (s : State) (f : State → Run) : Run :=
  if s.params.inCap < s.inLen.toNat then ⟨s, .range⟩ else f s

/-- An illegal word completes ILLEGAL_CMD with no other effect (40_command_model.md R136). -/
def illegalCommand (s : State) : Host.Outcome State Fault Refusal := finish ⟨s, .illegalCmd⟩

end Sys2Proof.Machine
end

