-- ==== Sys2Proof/Machine/Flags.lean ====
section
/-! DEFINITION. The STATUS register and its codes (10_state.md R26 to R29, 60_exceptions.md R270), and CYCLE as the host
reads it (R37). -/

namespace Sys2Proof.Machine

/-- The code of an error (R270). -/
def ErrCode.code : ErrCode → BitVec 4
  | .ok => 0
  | .illegalCmd => 1
  | .alphabetOverflow => 2
  | .invalidHeader => 3
  | .unresolvedCycle => 4
  | .truncatedStream => 5
  | .internalInvariant => 6
  | .capacity => 7
  | .range => 8

/-- STATUS as the host reads it (R26): BUSY in bit 0, DONE in bit 1, ERR in bits 7 to 4, reserved bits 0. -/
def State.statusWord (s : State) : Word :=
  0#24 ++ s.err.code ++ 0#2 ++ BitVec.ofBool s.done ++ BitVec.ofBool s.busy

/-- CYCLE as the host reads it (R37): M in bits 4 to 0, J in bits 12 to 8, the rest 0. -/
def State.cycleWord (s : State) : Word := 0#19 ++ s.cycleJ ++ 0#3 ++ s.cycleM

end Sys2Proof.Machine
end

