-- ==== Sys2Proof/Machine/Operands.lean ====
section
/-! DEFINITION. The canonical enumeration and its inverse (43_code_builder.md R181, R182), the resolve step (45_decoder.md
R218), and the formats in which the query commands assemble RESULT (R160, R190, R192). -/

namespace Sys2Proof.Machine

/-- `base(L)`: how many ranks come before codeword length L (R181). -/
def base (L : Nat) : Nat := (L - 2) * (L - 1) / 2

/-- The search for the length of a rank from L on: the first L with r < base(L + 1) (R181). -/
def lengthFrom : Nat → Nat → Nat → Nat
  | 0, L, _ => L
  | fuel + 1, L, r => if r < base (L + 1) then L else lengthFrom fuel (L + 1) r

/-- The codeword length of rank r: the unique L ≥ 2 with base(L) ≤ r < base(L + 1) (R181). -/
def codeLength (r : Nat) : Nat := lengthFrom (r + 1) 2 r

/-- The canonical enumeration `f(r)` = (m, j) (R181). -/
def cycleOf (r : Nat) : Nat × Nat :=
  let L := codeLength r
  let i := r - base L
  (L - 1 - i, 1 + i)

/-- The inverse enumeration `g(m, j)`; none is NONE (R182). -/
def rankOfCycle (m j : Nat) : Option Nat :=
  if m < 1 ∨ j < 1 then none else some (base (m + j) + (j - 1))

/-- The symbol of a rank below 256, `SYMTAB[r]` (R42). -/
def State.symbolAt (s : State) (r : Nat) : Byte := Table.entry s.symtab (BitVec.ofNat 8 r)

/-- The resolve step (R218): the symbol of the cycle (m, j), if its rank is below K. -/
def State.resolve (s : State) (m j : Nat) : Option Byte :=
  match rankOfCycle m j with
  | none => none
  | some r => if r < s.k.toNat then some (s.symbolAt r) else none

/-- RESULT of GETBIT (R160): the bit, zero-extended. -/
def bitResult (b : Bool) : Word := 0#31 ++ BitVec.ofBool b

/-- RESULT of RANK2MJ (R190): IN [31], L [23:16], j [15:8], m [7:0]. -/
def cycleResult (inTable : Bool) (m j : Nat) : Word :=
  BitVec.ofBool inTable ++ 0#7 ++ BitVec.ofNat 8 (m + j) ++ BitVec.ofNat 8 j ++ BitVec.ofNat 8 m

/-- RESULT of MJ2RANK for a pair (R192): HIT [31], PAIR [30], symbol [23:16], rank [15:0]. -/
def rankResult (hit : Bool) (sym : Byte) (r : Nat) : Word :=
  BitVec.ofBool hit ++ 1#1 ++ 0#6 ++ sym ++ BitVec.ofNat 16 r

end Sys2Proof.Machine
end

