-- ==== Sys2Proof/Machine/Bus.lean ====
section
/-! DEFINITION. The host bus (20_memory.md R60 to R72, 10_state.md R22 to R43): the address map, reads and writes, bus
errors, the acceptance of a command (40_command_model.md R130 to R132), the reset event (70_reset_and_hazards.md R300 to
R302), and one turn of the host. -/

namespace Sys2Proof.Machine

/-- The registers of the map (R22). -/
inductive Reg where
  | id
  | cmd
  | status
  | inLen
  | origLen
  | outLen
  | k
  | wbase
  | wbits
  | rbits
  | cycle
  | result
  | inCap
  | outCap
  deriving DecidableEq, Repr

/-- What a mapped, aligned address names (R62). -/
inductive Target where
  /-- A register. -/
  | reg (r : Reg)
  /-- FREQ[x]. -/
  | freq (x : Byte)
  /-- SYMTAB[r]. -/
  | symtab (r : Byte)
  /-- RANKTAB[x]. -/
  | ranktab (x : Byte)
  /-- The word of INBUF that begins at an offset. -/
  | inbuf (i : Nat)
  /-- The word of OUTBUF that begins at an offset. -/
  | outbuf (i : Nat)
  deriving DecidableEq, Repr

/-- The registers in the order of their offsets, 4 bytes each, from 0x000 on (R22). -/
def registers : List Reg :=
  [.id, .cmd, .status, .inLen, .origLen, .outLen, .k, .wbase, .wbits, .rbits, .cycle, .result, .inCap, .outCap]

/-- The address map (R62 to R65): none for an unmapped address, one beyond the mapped part of a buffer window, and one that
is not a multiple of 4 (R67). -/
def target (p : Config.Params) (a : BusAddr) : Option Target :=
  let n := a.toNat
  if n % 4 ≠ 0 then none
  else if n < 0x400 then (registers[n / 4]?).map .reg
  else if n < 0x800 then some (.freq (BitVec.ofNat 8 ((n - 0x400) / 4)))
  else if n < 0xC00 then some (.symtab (BitVec.ofNat 8 ((n - 0x800) / 4)))
  else if n < 0x1000 then some (.ranktab (BitVec.ofNat 8 ((n - 0xC00) / 4)))
  else if n < 0x10000 then none
  else if n < 0x20000 then if n - 0x10000 < p.inCap then some (.inbuf (n - 0x10000)) else none
  else if n < 0x30000 then if n - 0x20000 < p.outCap then some (.outbuf (n - 0x20000)) else none
  else none

/-- Four bytes as a little-endian word (R63, R68). -/
def wordOfBytes (b0 b1 b2 b3 : Byte) : Word := b3 ++ b2 ++ b1 ++ b0

/-- A word's bytes, the least significant first (R63, R68). -/
def bytesOfWord (w : Word) : List Byte :=
  [w.extractLsb' 0 8, w.extractLsb' 8 8, w.extractLsb' 16 8, w.extractLsb' 24 8]

/-- The constant of register ID, "RBCE" (R24). -/
def idWord : Word := 0x52424345

/-- The value a read of a register returns (R23 to R40). -/
def State.readReg (s : State) : Reg → Word
  | .id => idWord
  | .cmd => 0
  | .status => s.statusWord
  | .inLen => s.inLen
  | .origLen => s.origLen
  | .outLen => s.outLen
  | .k => s.k.setWidth 32
  | .wbase => s.wbase.setWidth 32
  | .wbits => s.wbits
  | .rbits => s.rbits
  | .cycle => s.cycleWord
  | .result => s.result
  | .inCap => BitVec.ofNat 32 s.params.inCap
  | .outCap => BitVec.ofNat 32 s.params.outCap

/-- RANKTAB as the host reads it (R43, R65): a rank zero-extended, ABSENT as 0xFFFFFFFF. -/
def rankWord : Option Byte → Word
  | none => 0xFFFFFFFF
  | some r => r.setWidth 32

/-- The word a read of a target returns (R63 to R65). -/
def State.readTarget (s : State) : Target → Word
  | .reg r => s.readReg r
  | .freq x => Table.entry s.freq x
  | .symtab r => (Table.entry s.symtab r).setWidth 32
  | .ranktab x => rankWord (Table.entry s.ranktab x)
  | .inbuf i => wordOfBytes (s.inByte i) (s.inByte (i + 1)) (s.inByte (i + 2)) (s.inByte (i + 3))
  | .outbuf i => wordOfBytes (s.outByte i) (s.outByte (i + 1)) (s.outByte (i + 2)) (s.outByte (i + 3))

/-- Acceptance of a command word (R130): BUSY <- 1, DONE <- 0, the engine latches the word, ERR keeps its value. The
scheduler draws for how many host turns the command will run (93 I20, log entry 3). -/
def accept (w : Word) (s : State) : State :=
  { s with busy := true, done := false, latch := w, turns := Config.busyTurns s.accepts, accepts := s.accepts + 1 }

/-- A write to a register (R23): none where the register is read-only. WBASE keeps bits 15 to 0 (R34). -/
def State.writeReg (s : State) : Reg → Word → Option State
  | .cmd, w => some (accept w s)
  | .inLen, w => some { s with inLen := w }
  | .origLen, w => some { s with origLen := w }
  | .wbase, w => some { s with wbase := w.extractLsb' 0 16 }
  | .wbits, w => some { s with wbits := w }
  | .id, _ => none
  | .status, _ => none
  | .outLen, _ => none
  | .k, _ => none
  | .rbits, _ => none
  | .cycle, _ => none
  | .result, _ => none
  | .inCap, _ => none
  | .outCap, _ => none

/-- A write to a target (R63 to R66): none where it is read-only. -/
def State.writeTarget (s : State) : Target → Word → Option State
  | .reg r, w => s.writeReg r w
  | .inbuf i, w => some { s with inbuf := Memory.putBytes s.inbuf i (bytesOfWord w) }
  | .outbuf i, w => some { s with outbuf := Memory.putBytes s.outbuf i (bytesOfWord w) }
  | .freq _, _ => none
  | .symtab _, _ => none
  | .ranktab _, _ => none

/-- `read(a)` (R61, R66): none is a bus error. While BUSY only ID and STATUS can be read (R132). -/
def busRead (a : BusAddr) (width : Width) (s : State) : Option Word :=
  if width = .w32 then
    match target s.params a with
    | none => none
    | some t => if s.busy && !(t == .reg .id || t == .reg .status) then none else some (s.readTarget t)
  else none

/-- `write(a, w)` (R61, R66): none is a bus error. While BUSY nothing can be written (R131, R132). -/
def busWrite (a : BusAddr) (width : Width) (w : Word) (s : State) : Option State :=
  if width = .w32 then
    match target s.params a with
    | none => none
    | some t => if s.busy then none else s.writeTarget t w
  else none

/-- A read as the host performs it: its response, nothing else (R66, R71). -/
def hostRead (a : BusAddr) (width : Width) (s : State) : State :=
  match busRead a width s with
  | some w => { s with response := some (.data w) }
  | none => { s with response := some (.readError 0) }

/-- A write as the host performs it: its effect, or a bus error that changes nothing (R66). -/
def hostWrite (a : BusAddr) (width : Width) (w : Word) (s : State) : State :=
  match busWrite a width w s with
  | some s' => { s' with response := some .done }
  | none => { s with response := some .writeError }

/-- The reset event (R300, R301): the reset state, the buffers drawn anew, a running command abandoned; the parameters and
the host's pending operations stay (log entry 7). -/
def resetEvent (s : State) : State := State.resetWith s.params (s.resets + 1) s.accepts s.queue

/-- The host performs one operation, already taken from the queue. POLL reads STATUS and stays pending while bit 0 of the
result is 1 (30_encoding.md R98). -/
def perform (op : HostOp) (s : State) : State :=
  match op with
  | .read a width => hostRead a width s
  | .write a width w => hostWrite a width w s
  | .reset => resetEvent s
  | .poll =>
    let s' := hostRead 0x008 .w32 s
    if s.statusWord.getLsbD 0 then { s' with queue := .poll :: s'.queue } else s'

/-- One turn of the host: it performs its next pending operation, or idles. -/
def hostTurn (s : State) : State :=
  match s.queue with
  | [] => { s with turns := s.turns - 1 }
  | op :: rest => perform op { s with queue := rest, turns := s.turns - 1 }

/-- The scheduler gives the engine the turn: a command is running and no host turn is left before it completes (R133). -/
def engineTurn (s : State) : Bool := s.busy && s.turns == 0

/-- The state in which the engine has accepted the word w and completes it in the very next step: how a command that the
host has written to CMD stands in the state when its turn comes (R130, R133, log entry 4). -/
def State.accepted (s : State) (w : Word) : State := { s with busy := true, done := false, latch := w, turns := 0 }

end Sys2Proof.Machine
end

