-- ==== Sys2Proof/Machine/Bitstream.lean ====
section
/-! DEFINITION. The bitstream packer and unpacker: PUTBIT, PUTCYCLE, GETBIT (41_bitstream.md). -/

namespace Sys2Proof.Machine

/-- After an append: OUT_LEN <- wlen(), and the code (R155, R157). -/
def afterAppend (r : State × Bool) : Run :=
  ⟨r.1.setOutLen r.1.wlen, if r.2 then .ok else .capacity⟩

/-- PUTBIT b (R155). -/
def execPutbit (b : Bool) (s : State) : Host.Outcome State Fault Refusal :=
  finish (afterAppend (appendBits [b] s))

/-- PUTCYCLE m, j (R157). -/
def execPutcycle (m j : Nat) (s : State) : Host.Outcome State Fault Refusal :=
  finish (afterAppend (appendCycle m j s))

/-- The pseudocode of GETBIT idx after the range check (R160). -/
def getbitBody (idx : Nat) (s : State) : Run :=
  if 8 * s.inLen.toNat ≤ idx then ⟨s, .range⟩
  else ⟨s.setResult (bitResult (s.bitAt 0 idx)), .ok⟩

/-- GETBIT idx (R160). -/
def execGetbit (idx : Nat) (s : State) : Host.Outcome State Fault Refusal :=
  finish (ifInRange s (getbitBody idx))

end Sys2Proof.Machine
end

