-- ==== Sys2Proof/Machine/CodeBuilder.lean ====
section
/-! DEFINITION. The canonical code builder: BUILD_ENC, RANK2MJ, MJ2RANK (43_code_builder.md). -/

namespace Sys2Proof.Machine

/-- The symbol occurs in the counted input (R184). -/
def present (t : Table Word) (x : Byte) : Bool := Table.entry t x != 0

/-- y comes before x in the rank order: descending frequency, then ascending byte value (R184). -/
def before (t : Table Word) (y x : Byte) : Bool :=
  decide (Table.entry t x < Table.entry t y) || (Table.entry t y == Table.entry t x && decide (y < x))

/-- `rank(x)`: how many present symbols come before x (R184). -/
def rankOf (t : Table Word) (x : Byte) : Nat := symbols.countP (fun y => present t y && before t y x)

/-- The present symbols P (R185), ascending. -/
def presentSymbols (t : Table Word) : List Byte := symbols.filter (present t)

/-- SYMTAB[rank(x)] <- x for x in P, from a table of zeros (R185). -/
def rankedSymbols (t : Table Word) : Table Byte :=
  (presentSymbols t).foldl (fun u x => Table.setEntry u (BitVec.ofNat 8 (rankOf t x)) x) (Vector.replicate 256 0)

/-- RANKTAB[x] <- rank(x) for x in P, from a table of ABSENT (R185). -/
def symbolRanks (t : Table Word) : Table (Option Byte) :=
  (presentSymbols t).foldl (fun u x => Table.setEntry u x (some (BitVec.ofNat 8 (rankOf t x)))) (Vector.replicate 256 none)

/-- The pseudocode of BUILD_ENC (R185). -/
def runBuildEnc (s : State) : Run :=
  if (presentSymbols s.freq).length = 256 then ⟨s, .alphabetOverflow⟩
  else ⟨s.setCodeTable (presentSymbols s.freq).length (rankedSymbols s.freq) (symbolRanks s.freq), .ok⟩

/-- BUILD_ENC (R185). -/
def execBuildEnc (s : State) : Host.Outcome State Fault Refusal := finish (runBuildEnc s)

/-- RANK2MJ rank (R190). -/
def execRank2mj (rank : Nat) (s : State) : Host.Outcome State Fault Refusal :=
  finish ⟨s.setResult (cycleResult (decide (rank < s.k.toNat)) (cycleOf rank).1 (cycleOf rank).2), .ok⟩

/-- What MJ2RANK m, j answers (R192). -/
def mj2rankResult (m j : Nat) (s : State) : Word :=
  match rankOfCycle m j with
  | none => 0
  | some r =>
    let hit := decide (r < s.k.toNat)
    rankResult hit (if hit then s.symbolAt r else 0) r

/-- MJ2RANK m, j (R192). -/
def execMj2rank (m j : Nat) (s : State) : Host.Outcome State Fault Refusal :=
  finish ⟨s.setResult (mj2rankResult m j s), .ok⟩

end Sys2Proof.Machine
end

