-- ==== Sys2Proof/Machine/Decoder.lean ====
section
/-! DEFINITION. The run-length decoder: DECODE (45_decoder.md). -/

namespace Sys2Proof.Machine

/-- What the parsing loop leaves (R217): the symbols in order, the cursor, the last cycle's counts, the code. -/
structure Parse where
  out : List Byte
  pos : Nat
  m   : Nat
  j   : Nat
  err : ErrCode
  deriving DecidableEq, Repr

/-- The length of the maximal run of bits equal to b at the front (R220). -/
def runLength (b : Bool) : List Bool → Nat
  | [] => 0
  | x :: xs => if x = b then runLength b xs + 1 else 0

/-- The parsing loop (R217): `need` symbols still to recover, the bits not yet consumed, the cursor, the last cycle's
counts. Each turn parses a zero run, a one run, and resolves the cycle; `resolve` is the table (R218). -/
def parse (resolve : Nat → Nat → Option Byte) : (need : Nat) → List Bool → (pos m j : Nat) → Parse
  | 0, _, pos, m, j => ⟨[], pos, m, j, .ok⟩
  | need + 1, bits, pos, _, _ =>
    let m := runLength false bits
    let ones := bits.drop m
    if ones.isEmpty then ⟨[], pos + m, m, 0, .truncatedStream⟩
    else
      let j := runLength true ones
      match resolve m j with
      | none => ⟨[], pos + m + j, m, j, .unresolvedCycle⟩
      | some x =>
        let r := parse resolve need (ones.drop j) (pos + m + j) m j
        { r with out := x :: r.out }

/-- The payload's bits, from INBUF[hdr] to INBUF[IN_LEN - 1] (R215). -/
def State.payload (s : State) : List Bool :=
  (List.range (8 * (s.inLen.toNat - (1 + s.k.toNat)))).map (s.bitAt (1 + s.k.toNat))

/-- The end of DECODE (R217): the symbols are in OUTBUF from offset 0 on, OUT_LEN, RBITS and CYCLE tell how far it came. -/
def State.storeParse (r : Parse) (s : State) : State :=
  ((s.putOut 0 r.out).setOutLen r.out.length).setCursor r.pos r.m r.j

/-- DECODE after its checks (R217). -/
def decodeLoop (s : State) : Run :=
  let r := parse s.resolve s.origLen.toNat s.payload 0 0 0
  ⟨s.storeParse r, r.err⟩

/-- The pseudocode of DECODE after the range check, with the checks (2) to (4) of R216 (R217). -/
def decodeBody (s : State) : Run :=
  let s0 := s.setCursor 0 0 0
  if s.inLen.toNat < 1 + s.k.toNat then ⟨s0.setOutLen 0, .invalidHeader⟩
  else if s.k.toNat = 0 ∧ 0 < s.inLen.toNat - (1 + s.k.toNat) then ⟨s0.setOutLen 0, .invalidHeader⟩
  else if s.params.outCap < s.origLen.toNat then ⟨s0.setOutLen 0, .capacity⟩
  else decodeLoop s0

/-- The pseudocode of DECODE (R217). -/
def runDecode (s : State) : Run := ifInRange s decodeBody

/-- DECODE (R217). -/
def execDecode (s : State) : Host.Outcome State Fault Refusal := finish (runDecode s)

end Sys2Proof.Machine
end

