-- ==== Sys2Proof/Machine/Encoder.lean ====
section
/-! DEFINITION. The encoder: ENCODE (44_encoder.md). -/

namespace Sys2Proof.Machine

/-- The header of the code table (30_encoding.md R101): K, then the K symbols in rank order. -/
def State.header (s : State) : List Byte := s.k :: (List.range s.k.toNat).map s.symbolAt

/-- The payload loop of ENCODE (R200): byte by byte, up to the first error. -/
def encodePayload : List Byte → State → Run
  | [], s => ⟨s, .ok⟩
  | x :: xs, s =>
    match Table.entry s.ranktab x with
    | none => ⟨s, .internalInvariant⟩
    | some r =>
      match appendCycle (cycleOf r.toNat).1 (cycleOf r.toNat).2 s with
      | (s', true) => encodePayload xs s'
      | (s', false) => ⟨s', .capacity⟩

/-- Where ENCODE's payload loop starts: the header is in OUTBUF, the writer's stream begins behind it (R200). -/
def encodeStart (s : State) : State := (s.putOut 0 s.header).startWriter (1 + s.k.toNat)

/-- The end of ENCODE (R200): OUT_LEN <- wlen(), or 0 on an error. -/
def encodeEnd (r : Run) : Run :=
  { r with state := r.state.setOutLen (if r.err = .ok then r.state.wlen else 0) }

/-- The pseudocode of ENCODE after the range check (R200). -/
def encodeBody (s : State) : Run := encodeEnd (encodePayload s.input (encodeStart s))

/-- The pseudocode of ENCODE (R200). -/
def runEncode (s : State) : Run := ifInRange s encodeBody

/-- ENCODE (R200). -/
def execEncode (s : State) : Host.Outcome State Fault Refusal := finish (runEncode s)

end Sys2Proof.Machine
end

