-- ==== Sys2Proof/Machine/Frequency.lean ====
section
/-! DEFINITION. Frequency counting: FREQ (42_frequency.md). -/

namespace Sys2Proof.Machine

/-- FREQ[x] <- FREQ[x] + 1 (R170). -/
def countByte (t : Table Word) (x : Byte) : Table Word := Table.setEntry t x (Table.entry t x + 1)

/-- The counts of an input, from a table of zeros, in one pass (R170). -/
def counts (input : List Byte) : Table Word := input.foldl countByte (Vector.replicate 256 0)

/-- The pseudocode of FREQ after the range check (R170). -/
def freqBody (s : State) : Run := ⟨s.setFreq (counts s.input), .ok⟩

/-- The pseudocode of FREQ (R170). -/
def runFreq (s : State) : Run := ifInRange s freqBody

/-- FREQ (R170). -/
def execFreq (s : State) : Host.Outcome State Fault Refusal := finish (runFreq s)

end Sys2Proof.Machine
end

