-- ==== Sys2Proof/Machine/Header.lean ====
section
/-! DEFINITION. Header decoding: BUILD_DEC (46_header.md). -/

namespace Sys2Proof.Machine

/-- RANKTAB[x] <- r, unless x already has a rank: a repeated symbol keeps its first one (R241). -/
def setFirstRank (t : Table (Option Byte)) (x r : Byte) : Table (Option Byte) :=
  if Table.entry t x = none then Table.setEntry t x (some r) else t

/-- SYMTAB[r], SYMTAB[r + 1], ... <- the header's symbols (R241). -/
def loadSymbols : List Byte → Nat → Table Byte → Table Byte
  | [], _, t => t
  | x :: xs, r, t => loadSymbols xs (r + 1) (Table.setEntry t (BitVec.ofNat 8 r) x)

/-- RANKTAB of the header's symbols, whose ranks go up from r (R241). -/
def loadRanks : List Byte → Nat → Table (Option Byte) → Table (Option Byte)
  | [], _, t => t
  | x :: xs, r, t => loadRanks xs (r + 1) (setFirstRank t x (BitVec.ofNat 8 r))

/-- The code table of an ordered list of symbols, from cleared tables (R241). -/
def State.loadHeader (xs : List Byte) (s : State) : State :=
  s.setCodeTable xs.length (loadSymbols xs 0 (Vector.replicate 256 0)) (loadRanks xs 0 (Vector.replicate 256 none))

/-- The pseudocode of BUILD_DEC after the range check (R241). -/
def buildDecBody (s : State) : Run :=
  let kh := (s.inByte 0).toNat
  if s.inLen.toNat = 0 then ⟨s, .invalidHeader⟩
  else if s.inLen.toNat < 1 + kh then ⟨s, .invalidHeader⟩
  else if kh = 0 ∧ 1 < s.inLen.toNat then ⟨s, .invalidHeader⟩
  else ⟨s.loadHeader (s.inBytes 1 kh), .ok⟩

/-- The pseudocode of BUILD_DEC (R241). -/
def runBuildDec (s : State) : Run := ifInRange s buildDecBody

/-- BUILD_DEC (R241). -/
def execBuildDec (s : State) : Host.Outcome State Fault Refusal := finish (runBuildDec s)

end Sys2Proof.Machine
end

