-- ==== Sys2Proof/Machine/Composite.lean ====
section
/-! DEFINITION. Composite and system commands: COMPRESS, DECOMPRESS, NOP (47_composite.md). -/

namespace Sys2Proof.Machine

/-- NOP (R257). -/
def execNop (s : State) : Host.Outcome State Fault Refusal := finish ⟨s, .ok⟩

/-- The pseudocode of COMPRESS (R255). -/
def runCompress (s : State) : Run := (((runFreq s).andThen runBuildEnc).andThen runEncode).cleanUp

/-- COMPRESS (R255). -/
def execCompress (s : State) : Host.Outcome State Fault Refusal := finish (runCompress s)

/-- The pseudocode of DECOMPRESS (R256): the clean-up is of BUILD_DEC's errors only. -/
def runDecompress (s : State) : Run := ((runBuildDec s).cleanUp).andThen runDecode

/-- DECOMPRESS (R256). -/
def execDecompress (s : State) : Host.Outcome State Fault Refusal := finish (runDecompress s)

end Sys2Proof.Machine
end

