-- ==== Sys2Proof/Machine/Dispatch.lean ====
section
/-! DEFINITION. One arm per command: the meaning the engine executes (40_command_model.md R133). -/

namespace Sys2Proof.Machine

def exec (i : Instr) (s : State) : Host.Outcome State Fault Refusal :=
  match i with
  | .nop => Sys2Proof.Machine.execNop s
  | .freq => Sys2Proof.Machine.execFreq s
  | .buildEnc => Sys2Proof.Machine.execBuildEnc s
  | .encode => Sys2Proof.Machine.execEncode s
  | .buildDec => Sys2Proof.Machine.execBuildDec s
  | .decode => Sys2Proof.Machine.execDecode s
  | .compress => Sys2Proof.Machine.execCompress s
  | .decompress => Sys2Proof.Machine.execDecompress s
  | .putbit b => Sys2Proof.Machine.execPutbit b s
  | .putcycle m j => Sys2Proof.Machine.execPutcycle m j s
  | .getbit idx => Sys2Proof.Machine.execGetbit idx s
  | .rank2mj rank => Sys2Proof.Machine.execRank2mj rank s
  | .mj2rank m j => Sys2Proof.Machine.execMj2rank m j s

end Sys2Proof.Machine
end

