-- ==== Sys2Proof/Machine/Step.lean ====
section
/-! DEFINITION. One step: the engine executes and completes the command it has accepted (40_command_model.md R133), or the
host has a turn (20_memory.md R61). -/

namespace Sys2Proof.Machine

/-- One step of the block and its host. -/
def step (s : State) : Host.Outcome State Fault Refusal :=
  if engineTurn s then
    match decode s.latch with
    | .command i => exec i s
    | .reservedOp => illegalCommand s
    | .reservedBits => illegalCommand s
  else .next (hostTurn s)

/-- The state in which the next step runs the given command word. The block fetches nothing (10_state.md R21): a command
is a word the host has written to CMD, so the word stands where the engine latched it at acceptance (log entry 4). -/
def State.withFetchWord (s : State) (nbits w : Nat) : State := s.accepted (tableWord nbits w)

end Sys2Proof.Machine
end

