-- ==== Sys2Proof/Machine/Assembler.lean ====
section
/-! DEFINITION. The assembler syntax of commands and host bus operations (30_encoding.md R97): one line of text, as a list
of characters, or an assembly error. -/

namespace Sys2Proof.Machine

/-- The value of a digit; letters in either case (log entry 10). -/
def digitValue (c : Char) : Option Nat :=
  if '0' ≤ c ∧ c ≤ '9' then some (c.toNat - '0'.toNat)
  else if 'a' ≤ c ∧ c ≤ 'f' then some (c.toNat - 'a'.toNat + 10)
  else if 'A' ≤ c ∧ c ≤ 'F' then some (c.toNat - 'A'.toNat + 10)
  else none

/-- The digits in a base, most significant first, after the value read so far. -/
def digits (radix : Nat) : Nat → List Char → Option Nat
  | n, [] => some n
  | n, c :: cs =>
    match digitValue c with
    | none => none
    | some d => if d < radix then digits radix (radix * n + d) cs else none

/-- An operand: unsigned decimal or 0x-prefixed hexadecimal (R97). -/
def number : List Char → Option Nat
  | [] => none
  | ['0', 'x'] => none
  | '0' :: 'x' :: cs => digits 16 0 cs
  | cs => digits 10 0 cs

/-- A text without the spaces at its two ends. -/
def trim (cs : List Char) : List Char :=
  ((cs.dropWhile (· == ' ')).reverse.dropWhile (· == ' ')).reverse

/-- The pieces of a text between its commas. -/
def splitCommas : List Char → List (List Char)
  | [] => [[]]
  | c :: cs =>
    match splitCommas cs with
    | [] => [[c]]
    | p :: ps => if c = ',' then [] :: p :: ps else (c :: p) :: ps

/-- Every operand of a list, none if one of them is no number. -/
def numbers : List (List Char) → Option (List Nat)
  | [] => some []
  | p :: ps =>
    match number (trim p), numbers ps with
    | some n, some ns => some (n :: ns)
    | _, _ => none

/-- The operands behind a mnemonic, separated by commas (R97). -/
def operands (cs : List Char) : Option (List Nat) :=
  if trim cs = [] then some [] else numbers (splitCommas cs)

/-- The command of a mnemonic and its operands; an operand out of its range is an assembly error, never truncated (R97). -/
def command (mnemonic : List Char) (ns : List Nat) : Option Instr :=
  match String.ofList mnemonic, ns with
  | "NOP", [] => some .nop
  | "FREQ", [] => some .freq
  | "BUILD_ENC", [] => some .buildEnc
  | "ENCODE", [] => some .encode
  | "BUILD_DEC", [] => some .buildDec
  | "DECODE", [] => some .decode
  | "COMPRESS", [] => some .compress
  | "DECOMPRESS", [] => some .decompress
  | "PUTBIT", [b] => if b ≤ 1 then some (.putbit (b == 1)) else none
  | "PUTCYCLE", [m, j] => if wellFormed (.putcycle m j) then some (.putcycle m j) else none
  | "GETBIT", [idx] => if wellFormed (.getbit idx) then some (.getbit idx) else none
  | "RANK2MJ", [rank] => if wellFormed (.rank2mj rank) then some (.rank2mj rank) else none
  | "MJ2RANK", [m, j] => if wellFormed (.mj2rank m j) then some (.mj2rank m j) else none
  | _, _ => none

/-- A line's first word and what follows it. -/
def splitWord (cs : List Char) : List Char × List Char :=
  let t := trim cs
  (t.takeWhile (· != ' '), t.dropWhile (· != ' '))

/-- A line that holds one command (R97). -/
def assemble (line : List Char) : Option Instr :=
  match operands (splitWord line).2 with
  | none => none
  | some ns => command (splitWord line).1 ns

/-- The mnemonic of a command (30_encoding.md R93). -/
def mnemonic : Instr → String
  | .nop => "NOP"
  | .freq => "FREQ"
  | .buildEnc => "BUILD_ENC"
  | .encode => "ENCODE"
  | .buildDec => "BUILD_DEC"
  | .decode => "DECODE"
  | .compress => "COMPRESS"
  | .decompress => "DECOMPRESS"
  | .putbit _ => "PUTBIT"
  | .putcycle _ _ => "PUTCYCLE"
  | .getbit _ => "GETBIT"
  | .rank2mj _ => "RANK2MJ"
  | .mj2rank _ _ => "MJ2RANK"

/-- The operands of a command, in the order of its line (R97). -/
def operandValues : Instr → List Nat
  | .nop => []
  | .freq => []
  | .buildEnc => []
  | .encode => []
  | .buildDec => []
  | .decode => []
  | .compress => []
  | .decompress => []
  | .putbit b => [b.toNat]
  | .putcycle m j => [m, j]
  | .getbit idx => [idx]
  | .rank2mj rank => [rank]
  | .mj2rank m j => [m, j]

/-- The character of a digit. -/
def digitChar (d : Nat) : Char := if d < 10 then Char.ofNat (48 + d) else Char.ofNat (87 + d)

/-- The digits of n in a base, most significant first; the fuel bounds their number. -/
def digitsOf (radix : Nat) : (fuel : Nat) → Nat → List Char
  | 0, n => [digitChar (n % radix)]
  | fuel + 1, n =>
    if n < radix then [digitChar n] else digitsOf radix fuel (n / radix) ++ [digitChar (n % radix)]

/-- A number as a line writes it: unsigned decimal, or 0x and hexadecimal (R97). -/
def numeral (hex : Bool) (n : Nat) : List Char := if hex then '0' :: 'x' :: digitsOf 16 n n else digitsOf 10 n n

/-- Numbers separated by commas (R97). -/
def commaList (hex : Bool) : List Nat → List Char
  | [] => []
  | [n] => numeral hex n
  | n :: ns => numeral hex n ++ ',' :: ' ' :: commaList hex ns

/-- The line of a mnemonic and its operands, all of them decimal or all of them hexadecimal (R97; its spaces and the case of
its digits are log entry 10). -/
def lineOf (hex : Bool) (name : List Char) (ns : List Nat) : List Char :=
  match ns with
  | [] => name
  | n :: ns => name ++ ' ' :: commaList hex (n :: ns)

/-- The host operation of a mnemonic and its operands (R97): WR addr, value; RD addr; POLL. -/
def hostOperation (mnemonic : List Char) (ns : List Nat) : Option HostOp :=
  match String.ofList mnemonic, ns with
  | "WR", [a, w] =>
    if a < 2 ^ 18 ∧ w < 2 ^ 32 then some (.write (BitVec.ofNat 18 a) .w32 (BitVec.ofNat 32 w)) else none
  | "RD", [a] => if a < 2 ^ 18 then some (.read (BitVec.ofNat 18 a) .w32) else none
  | "POLL", [] => some .poll
  | _, _ => none

/-- A line that holds one host bus operation (R97). -/
def assembleHost (line : List Char) : Option HostOp :=
  match operands (splitWord line).2 with
  | none => none
  | some ns => hostOperation (splitWord line).1 ns

end Sys2Proof.Machine
end

