-- ==== Sys2Proof/Machine/HostOps.lean ====
section
/-! DEFINITION. The host's pseudo-operations as sequences of operations (30_encoding.md R98). -/

namespace Sys2Proof.Machine

/-- `CMD c`: write the command's word to CMD (R98). A command with an operand out of its range has no word: an assembly
error (R97, log entry 21). -/
def cmdOps (i : Instr) : Option (List HostOp) := if wellFormed i then some [.write 0x004 .w32 (encode i)] else none

/-- The words `LOADIN` writes from an INBUF offset on, four bytes each, bytes beyond the end as 0 (R98); every offset it is given
has a bus address (`loadInOps`). -/
def loadWords : Nat → List Byte → List HostOp
  | _, [] => []
  | i, [b0] => [.write (BitVec.ofNat 18 (0x10000 + i)) .w32 (wordOfBytes b0 0 0 0)]
  | i, [b0, b1] => [.write (BitVec.ofNat 18 (0x10000 + i)) .w32 (wordOfBytes b0 b1 0 0)]
  | i, [b0, b1, b2] => [.write (BitVec.ofNat 18 (0x10000 + i)) .w32 (wordOfBytes b0 b1 b2 0)]
  | i, b0 :: b1 :: b2 :: b3 :: bs =>
    .write (BitVec.ofNat 18 (0x10000 + i)) .w32 (wordOfBytes b0 b1 b2 b3) :: loadWords (i + 4) bs

/-- `LOADIN bytes`: the bytes into INBUF, then their number into IN_LEN (R98). Bytes past the last bus address have no WR: an
assembly error (R97, log entry 21); bytes past INBUF are bus errors when the transactions are performed (20_memory.md R66). -/
def loadInOps (bytes : List Byte) : Option (List HostOp) :=
  if 0x10000 + bytes.length ≤ 2 ^ 18 then some (loadWords 0 bytes ++ [.write 0x00C .w32 (BitVec.ofNat 32 bytes.length)])
  else none

/-- `WR addr, value` with an address of the bus: a value that does not fit a register is an assembly error (R97, log entry 21). -/
def wrOps (a : BusAddr) (value : Nat) : Option (List HostOp) :=
  if value < 2 ^ 32 then some [.write a .w32 (BitVec.ofNat 32 value)] else none

/-- One operation after another; an assembly error in either is one of the whole. -/
def chain (xs ys : Option (List HostOp)) : Option (List HostOp) :=
  match xs, ys with
  | some us, some vs => some (us ++ vs)
  | _, _ => none

/-- `compress(text)` (R98): the result is OUTBUF[0..OUT_LEN) when STATUS.ERR = 0. -/
def compressOps (text : List Byte) : Option (List HostOp) :=
  chain (loadInOps text) (chain (cmdOps .compress) (some [.poll]))

/-- `decompress(data, original_len)` (R98): the result is OUTBUF[0..OUT_LEN). -/
def decompressOps (data : List Byte) (originalLen : Nat) : Option (List HostOp) :=
  chain (loadInOps data) (chain (wrOps 0x010 originalLen) (chain (cmdOps .decompress) (some [.poll])))

/-- The bytes a command has left in OUTBUF: OUTBUF[0..OUT_LEN) (10_state.md R32). -/
def State.output (s : State) : List Byte := s.outBytes 0 s.outLen.toNat

end Sys2Proof.Machine
end

