-- ==== Sys2Proof/Safety.lean ====
section
/-! DEFINITION. The words the claims are stated in: the invariant of the machine, what a completed command leaves, and the
bit strings of the compressed representation. -/

namespace Sys2Proof.Machine

/-! ### The invariant -/

/-- What holds of the machine at reset and after every step. -/
structure Inv (s : State) : Prop where
  /-- The parameters are legal (00_scope.md R8, R9). -/
  legal : s.params.legal
  /-- BUSY and DONE are never both 1 (10_state.md R26). -/
  not_both : ¬(s.busy = true ∧ s.done = true)
  /-- The engine's hidden state is discarded while no command runs (R49; log entry 6). -/
  idle : s.busy = false → s.latch = 0 ∧ s.turns = 0
  /-- INBUF keeps its canonical form and its capacity (R45). -/
  inbuf_wf : Memory.wf s.inbuf
  inbuf_below : Memory.below s.inbuf s.params.inCap
  /-- OUTBUF keeps its canonical form and its capacity (R46). -/
  outbuf_wf : Memory.wf s.outbuf
  outbuf_below : Memory.below s.outbuf s.params.outCap
  /-- A count never exceeds IN_CAP (R41). -/
  freq_le : ∀ x, (Table.entry s.freq x).toNat ≤ s.params.inCap
  /-- Entries of SYMTAB at ranks from K on hold 0 (R42). -/
  symtab_zero : ∀ r : Byte, s.k.toNat ≤ r.toNat → Table.entry s.symtab r = 0
  /-- A rank in RANKTAB is below K, so it is 0 to 254, and SYMTAB holds the symbol at it (R43, R187, R241). -/
  ranktab_lt : ∀ x r : Byte, Table.entry s.ranktab x = some r → r.toNat < s.k.toNat ∧ Table.entry s.symtab r = x
  /-- RBITS never exceeds 8 × IN_CAP (R36). -/
  rbits_le : s.rbits.toNat ≤ 8 * s.params.inCap

/-! ### What a command leaves -/

/-- The state s after a completion with code e that changed nothing but STATUS (R134), the engine idle again. A claim writes
the frame of a command as `t = { onlyStatus e s with f := t.f, … }`: nothing but STATUS and the fields f differs. -/
def onlyStatus (e : ErrCode) (s : State) : State :=
  { s with err := e, busy := false, done := true, latch := 0, turns := 0 }

/-! ### Bit strings -/

/-- The cycle code of a rank (30_encoding.md R103). -/
def codeOf (r : Nat) : List Bool :=
  List.replicate (cycleOf r).1 false ++ List.replicate (cycleOf r).2 true

/-- The payload's bit string for a list of ranks (R102). -/
def payloadOf (rs : List Nat) : List Bool := rs.flatMap codeOf

/-- No bit, or a 0 first: what may follow a cycle code without making its one run longer (43_code_builder.md R188). -/
def endsRun (rest : List Bool) : Prop := rest.head? ≠ some true

/-- The bits of INBUF from a byte offset to IN_LEN (41_bitstream.md R152). -/
def State.inBits (s : State) (from_ : Nat) : List Bool :=
  (List.range (8 * (s.inLen.toNat - from_))).map (s.bitAt from_)

/-! ### Rejected transactions (20_memory.md R62, R66) -/

/-- A byte address the map gives a register, a table entry or a mapped buffer byte (R62 to R65). -/
def mapped (p : Config.Params) (n : Nat) : Prop :=
  n < 0x38 ∨ (0x400 ≤ n ∧ n < 0x1000) ∨ (0x10000 ≤ n ∧ n < 0x10000 + p.inCap) ∨ (0x20000 ≤ n ∧ n < 0x20000 + p.outCap)

/-- A byte address of a writable register (CMD, IN_LEN, ORIG_LEN, WBASE, WBITS) or of a buffer (R22, R62). -/
def writable (p : Config.Params) (n : Nat) : Prop :=
  n = 0x004 ∨ n = 0x00C ∨ n = 0x010 ∨ n = 0x01C ∨ n = 0x020 ∨
  (0x10000 ≤ n ∧ n < 0x10000 + p.inCap) ∨ (0x20000 ≤ n ∧ n < 0x20000 + p.outCap)

/-- A read that R66 rejects. -/
def readRejected (s : State) (a : BusAddr) (width : Width) : Prop :=
  width ≠ .w32 ∨ a.toNat % 4 ≠ 0 ∨ ¬mapped s.params a.toNat ∨ (s.busy = true ∧ a ≠ 0x000 ∧ a ≠ 0x008)

/-- A write that R66 rejects. -/
def writeRejected (s : State) (a : BusAddr) (width : Width) : Prop :=
  width ≠ .w32 ∨ a.toNat % 4 ≠ 0 ∨ ¬writable s.params a.toNat ∨ s.busy = true

/-! ### Sequences of commands -/

/-- The state a step's outcome holds, s itself if it holds none. -/
def stateOr (s : State) : Host.Outcome State Fault Refusal → State
  | .next t => t
  | .fault _ => s
  | .refused _ => s

/-- The state exec leaves. -/
def after (i : Instr) (s : State) : State := stateOr s (exec i s)

/-- PUTBIT commands one after another up to the first that completes CAPACITY (41_bitstream.md R158). -/
def putbits : List Bool → State → State
  | [], s => s
  | b :: bs, s =>
    let t := after (.putbit b) s
    if t.err = .capacity then t else putbits bs t

end Sys2Proof.Machine
end

