-- ==== Sys2Proof/Certificates/Slice0/Obligations.lean ====
section
/-! DEFINITION. The statements for the provers. Each formalises rules of spec/; a frame is written as an equation
`t = { onlyStatus e s with f := t.f, … }`, which says that nothing but STATUS and the fields f differs. -/

open Sys2Proof Sys2Proof.Machine

/-! ### Encoding -/

/-- 30_encoding.md R90 to R94: decoding the word of a well-formed command gives the command back. -/
def Obligations.DecodeInvertsEncode : Prop :=
  ∀ i : Instr, wellFormed i = true → decode (encode i) = .command i

/-- 30_encoding.md R91 to R95: a word that decodes to a command is that command's word, and its operands are in range. -/
def Obligations.EncodeInvertsDecode : Prop :=
  ∀ (w : Word) (i : Instr), decode w = .command i → wellFormed i = true ∧ encode i = w

/-- 30_encoding.md R94, R95: no word selects two rows of the opcode map, and the words that select none, which are the illegal
words, are exactly those with OP 0xD to 0xF or a 1 in a bit their format marks 0. -/
def Obligations.EveryWordSelectsOneRowOrIsReserved : Prop :=
  (∀ (w : Word) (a b : Fin rows.length), (rows.get a).selects w = true → (rows.get b).selects w = true → a = b) ∧
  (∀ w : Word,
     (∀ i : Instr, decode w ≠ .command i) ↔
       (0xD ≤ (w.extractLsb' 0 4).toNat ∨ w.extractLsb' 4 4 ≠ 0 ∨
         ((w.extractLsb' 0 4).toNat ≤ 7 ∧ w.extractLsb' 8 24 ≠ 0) ∨
         (w.extractLsb' 0 4 = 0x8 ∧ w.extractLsb' 9 23 ≠ 0) ∨
         ((w.extractLsb' 0 4 = 0x9 ∨ w.extractLsb' 0 4 = 0xC) ∧ (w.extractLsb' 13 3 ≠ 0 ∨ w.extractLsb' 21 11 ≠ 0)) ∨
         (w.extractLsb' 0 4 = 0xB ∧ w.extractLsb' 16 16 ≠ 0)))

/-- 30_encoding.md R91, R93: words written out from the formats decode to the commands they stand for. -/
def Obligations.WrittenOutWordsDecode : Prop :=
  decode 0b00000000000000000000000000000110 = .command .compress ∧
  decode 0b00000000000000000000000100001000 = .command (.putbit true) ∧
  decode 0b00000000000001000000001100001001 = .command (.putcycle 3 4) ∧
  decode 0b00000000000001111111111100001010 = .command (.getbit 2047) ∧
  decode 0b00000000000000001111111000001011 = .command (.rank2mj 254) ∧
  decode 0b00000000000111110000000100001100 = .command (.mj2rank 1 31)

/-- 30_encoding.md R97: the assembler keeps every operand or refuses the line. A mnemonic and its numbers make a command exactly
when they are that command's mnemonic and operands and every operand is in range (so an operand out of range gives none); a
line, decimal or hexadecimal, makes what its mnemonic and its very numbers make; the line of a well-formed command makes that
command; and every line that assembles at all gives a command whose operands are in range. The details of a line beyond R97 are
the model's choice (log entry 10). -/
def Obligations.AssembledOperandsAreInRange : Prop :=
  (∀ (name : List Char) (ns : List Nat) (i : Instr),
    command name ns = some i ↔ name = (mnemonic i).toList ∧ ns = operandValues i ∧ wellFormed i = true) ∧
  (∀ (hex : Bool) (name : List Char) (ns : List Nat), name ≠ [] → ' ' ∉ name →
    assemble (lineOf hex name ns) = command name ns) ∧
  (∀ (hex : Bool) (i : Instr), wellFormed i = true →
    assemble (lineOf hex (mnemonic i).toList (operandValues i)) = some i) ∧
  (∀ (line : List Char) (i : Instr), assemble line = some i → wellFormed i = true)

/-! ### The step: engine and scheduler -/

/-- 40_command_model.md R130, R133, 60_exceptions.md R285: when the engine's turn comes and the latched word decodes to a
command, the step is that command's execution; the word withFetchWord places is the one the next step runs; and with nothing
running and nothing pending a step holds all state. -/
def Obligations.StepRunsTheDecodedCommand : Prop :=
  (∀ (s : State) (i : Instr), s.busy = true → s.turns = 0 → decode s.latch = .command i → step s = exec i s) ∧
  (∀ (s : State) (i : Instr) (nbits w : Nat), decode (tableWord nbits w) = .command i →
    step (s.withFetchWord nbits w) = exec i { s with busy := true, done := false, latch := tableWord nbits w, turns := 0 }) ∧
  (∀ s : State, s.busy = false → s.turns = 0 → s.queue = [] → step s = .next s)

/-- 40_command_model.md R136: an illegal word completes ILLEGAL_CMD and changes nothing but STATUS. -/
def Obligations.IllegalWordChangesOnlyStatus : Prop :=
  ∀ s : State, s.busy = true → s.turns = 0 → (∀ i : Instr, decode s.latch ≠ .command i) →
    step s = .next (onlyStatus .illegalCmd s)

/-- 40_command_model.md R138: every command, well-formed or not, completes in every state, and the block then accepts the next
command word. -/
def Obligations.NoCommandIsFatal : Prop :=
  ∀ (i : Instr) (s : State),
    ∃ t, exec i s = .next t ∧ t.busy = false ∧
      ∀ w : Word, ∃ u, busWrite 0x004 .w32 w t = some u ∧ u.busy = true ∧ u.latch = w

/-- 10_state.md R27, R28, R29; 40_command_model.md R130, R134: what one step does to BUSY, DONE and ERR. A command's completion
clears BUSY and sets DONE; acceptance sets BUSY, clears DONE and keeps ERR; the reset event clears all three; no other turn of
the host changes any. -/
def Obligations.StatusFollowsTheCommand : Prop :=
  ∀ s t : State, step s = .next t →
    (s.busy = true ∧ s.turns = 0 → t.busy = false ∧ t.done = true) ∧
    (¬(s.busy = true ∧ s.turns = 0) →
      (∀ rest, s.queue = .reset :: rest → t.busy = false ∧ t.done = false ∧ t.err = .ok) ∧
      (s.busy = false → ∀ w rest, s.queue = .write 0x004 .w32 w :: rest →
        t.busy = true ∧ t.done = false ∧ t.err = s.err) ∧
      (s.queue.head? ≠ some .reset → (∀ w, s.busy = false → s.queue.head? ≠ some (.write 0x004 .w32 w)) →
        t.busy = s.busy ∧ t.done = s.done ∧ t.err = s.err))

/-- 40_command_model.md R134, R135, 93 I20: a running command is over after at most as many steps as the scheduler still gives
the host, and one. It ends by completing, with DONE = 1, unless one of the operations the host performs before is a reset event,
which abandons it (70_reset_and_hazards.md R301); a POLL holds back what is pending behind it. -/
def Obligations.RunningCommandCompletes : Prop :=
  ∀ s : State, s.busy = true →
    (∃ n t, n ≤ s.turns + 1 ∧ core.run n s = .next t ∧ t.busy = false) ∧
    (HostOp.reset ∉ (s.queue.take s.turns).takeWhile (fun op => op ≠ .poll) →
      ∃ t, core.run (s.turns + 1) s = .next t ∧ t.busy = false ∧ t.done = true)

/-- 20_memory.md R73; 10_state.md R30, R31, R39, R40, R45: the storage each command writes: what a command is not listed for it
leaves unchanged. No command writes IN_LEN, ORIG_LEN, INBUF or the capacities, nor the host's side (the model's own fields,
log entries 2 to 5). -/
def Obligations.CommandsWriteOnlyTheirStorage : Prop :=
  ∀ (i : Instr) (s : State),
    ∃ t, exec i s = .next t ∧
      t.inLen = s.inLen ∧ t.origLen = s.origLen ∧ (∀ n, t.inByte n = s.inByte n) ∧ t.params = s.params ∧
      t.queue = s.queue ∧ t.response = s.response ∧ t.resets = s.resets ∧ t.accepts = s.accepts ∧
      (i ≠ .freq → i ≠ .compress → t.freq = s.freq) ∧
      (i ≠ .buildEnc → i ≠ .buildDec → i ≠ .compress → i ≠ .decompress →
        t.k = s.k ∧ t.symtab = s.symtab ∧ t.ranktab = s.ranktab) ∧
      (i ≠ .encode → i ≠ .compress → t.wbase = s.wbase) ∧
      (i ≠ .encode → i ≠ .compress → (∀ b, i ≠ .putbit b) → (∀ m j, i ≠ .putcycle m j) → t.wbits = s.wbits) ∧
      (i ≠ .encode → i ≠ .compress → i ≠ .decode → i ≠ .decompress → (∀ b, i ≠ .putbit b) → (∀ m j, i ≠ .putcycle m j) →
        t.outLen = s.outLen ∧ ∀ n, t.outByte n = s.outByte n) ∧
      (i ≠ .decode → i ≠ .decompress → t.rbits = s.rbits ∧ t.cycleM = s.cycleM ∧ t.cycleJ = s.cycleJ) ∧
      ((∀ n, i ≠ .getbit n) → (∀ r, i ≠ .rank2mj r) → (∀ m j, i ≠ .mj2rank m j) → t.result = s.result)

/-- 60_exceptions.md R270, R275; 47_composite.md R255: the codes each command can complete with. COMPRESS never completes
INTERNAL_INVARIANT. -/
def Obligations.CommandsRaiseOnlyTheirCodes : Prop :=
  ∀ (i : Instr) (s t : State), exec i s = .next t →
    t.err ∈ match i with
      | .nop => [ErrCode.ok]
      | .freq => [.ok, .range]
      | .buildEnc => [.ok, .alphabetOverflow]
      | .encode => [.ok, .range, .internalInvariant, .capacity]
      | .buildDec => [.ok, .range, .invalidHeader]
      | .decode => [.ok, .range, .invalidHeader, .capacity, .truncatedStream, .unresolvedCycle]
      | .compress => [.ok, .range, .alphabetOverflow, .capacity]
      | .decompress => [.ok, .range, .invalidHeader, .capacity, .truncatedStream, .unresolvedCycle]
      | .putbit _ => [.ok, .capacity]
      | .putcycle _ _ => [.ok, .capacity]
      | .getbit _ => [.ok, .range]
      | .rank2mj _ => [.ok]
      | .mj2rank _ _ => [.ok]

/-! ### The invariant -/

/-- 70_reset_and_hazards.md R300: the invariant holds at reset. -/
def Obligations.ResetMeetsTheMachineInvariant : Prop := Inv State.reset

/-- 10_state.md R26, R36, R41 to R46: every step keeps the invariant, from every state that meets it. -/
def Obligations.EveryStepKeepsTheMachineInvariant : Prop :=
  ∀ s t : State, Inv s → step s = .next t → Inv t

/-! ### The host bus, reset -/

/-- 70_reset_and_hazards.md R300: the reset state, register by register and table by table; the capacities are the model's
choice (log entry 1), and the buffers hold the free draws of Config (log entry 2). -/
def Obligations.ResetStateIsAsSpecified : Prop :=
  State.reset.busy = false ∧ State.reset.done = false ∧ State.reset.err = .ok ∧
  State.reset.inLen = 0 ∧ State.reset.origLen = 0 ∧ State.reset.outLen = 0 ∧ State.reset.k = 0 ∧
  State.reset.wbase = 0 ∧ State.reset.wbits = 0 ∧ State.reset.rbits = 0 ∧
  State.reset.cycleM = 0 ∧ State.reset.cycleJ = 0 ∧ State.reset.result = 0 ∧
  (∀ x : Byte, Table.entry State.reset.freq x = 0 ∧ Table.entry State.reset.symtab x = 0 ∧
    Table.entry State.reset.ranktab x = none) ∧
  (∀ n, State.reset.inByte n = Config.inbufDraw 0 n ∧ State.reset.outByte n = Config.outbufDraw 0 n) ∧
  State.reset.params = { inCap := 4096, outCap := 16384 }

/-- 70_reset_and_hazards.md R300, R301: the reset event, whatever the block is doing: a running command is abandoned, every
register and table takes its reset value, the capacities stay, and both buffers are drawn anew. What the reset event does to
the host's side is the model's choice (log entry 7). -/
def Obligations.ResetEventRestoresTheResetState : Prop :=
  ∀ (s : State) (rest : List HostOp), ¬(s.busy = true ∧ s.turns = 0) → s.queue = .reset :: rest →
    ∃ t, step s = .next t ∧
      t.busy = false ∧ t.done = false ∧ t.err = .ok ∧ t.latch = 0 ∧ t.turns = 0 ∧
      t.inLen = 0 ∧ t.origLen = 0 ∧ t.outLen = 0 ∧ t.k = 0 ∧ t.wbase = 0 ∧ t.wbits = 0 ∧ t.rbits = 0 ∧
      t.cycleM = 0 ∧ t.cycleJ = 0 ∧ t.result = 0 ∧
      (∀ x : Byte, Table.entry t.freq x = 0 ∧ Table.entry t.symtab x = 0 ∧ Table.entry t.ranktab x = none) ∧
      (∀ n, t.inByte n = Config.inbufDraw (s.resets + 1) n ∧ t.outByte n = Config.outbufDraw (s.resets + 1) n) ∧
      t.params = s.params ∧ t.queue = rest

/-- 10_state.md R25, 40_command_model.md R130: a write to CMD while idle accepts the word; nothing else changes but the host's
side and the draw of the latency (log entry 3); and a read of CMD returns 0. -/
def Obligations.CmdWriteIsAccepted : Prop :=
  (∀ (s : State) (w : Word) (rest : List HostOp), s.busy = false → s.queue = .write 0x004 .w32 w :: rest →
    step s = .next { s with
      busy := true
      done := false
      latch := w
      turns := Config.busyTurns s.accepts
      accepts := s.accepts + 1
      queue := rest
      response := some .done }) ∧
  (∀ (s : State) (rest : List HostOp), s.busy = false → s.queue = .read 0x004 .w32 :: rest →
    step s = .next { s with turns := s.turns - 1, queue := rest, response := some (.data 0) })

/-- 40_command_model.md R131, R132: while BUSY = 1 the block accepts a read of ID and one of STATUS (bit 0 is 1, bit 1 DONE,
bits 7 to 4 ERR, 10_state.md R26), and rejects every other transaction, which changes nothing. -/
def Obligations.BusyBlockAcceptsOnlyIdAndStatusReads : Prop :=
  ∀ (s : State) (n : Nat) (rest : List HostOp), s.busy = true → s.turns = n + 1 →
    (s.queue = .read 0x000 .w32 :: rest →
      step s = .next { s with turns := n, queue := rest, response := some (.data 0x52424345) }) ∧
    (s.queue = .read 0x008 .w32 :: rest →
      step s = .next { s with
        turns := n
        queue := rest
        response := some (.data (1#32 ||| ((BitVec.ofBool s.done).setWidth 32 <<< 1) ||| (s.err.code.setWidth 32 <<< 4))) }) ∧
    (∀ a width, ¬(width = .w32 ∧ (a = 0x000 ∨ a = 0x008)) → s.queue = .read a width :: rest →
      step s = .next { s with turns := n, queue := rest, response := some (.readError 0) }) ∧
    (∀ a width w, s.queue = .write a width w :: rest →
      step s = .next { s with turns := n, queue := rest, response := some .writeError })

/-- 20_memory.md R66: exactly the listed transactions are rejected with a bus error; a rejected one changes no state of the
block, and a rejected read returns 0x00000000. -/
def Obligations.ExactlyTheListedTransactionsAreRejected : Prop :=
  ∀ (s : State) (rest : List HostOp), s.params.legal → ¬(s.busy = true ∧ s.turns = 0) →
    (∀ a width, s.queue = .read a width :: rest →
      (readRejected s a width →
        step s = .next { s with turns := s.turns - 1, queue := rest, response := some (.readError 0) }) ∧
      (¬readRejected s a width → ∃ w,
        step s = .next { s with turns := s.turns - 1, queue := rest, response := some (.data w) })) ∧
    (∀ a width w, s.queue = .write a width w :: rest →
      (writeRejected s a width →
        step s = .next { s with turns := s.turns - 1, queue := rest, response := some .writeError }) ∧
      (¬writeRejected s a width → ∃ t, step s = .next t ∧ t.response = some .done ∧ t.queue = rest))

/-- 10_state.md R22 to R40, 60_exceptions.md R270: what a read of each register returns, with the numeric codes of STATUS.ERR,
and that the read changes nothing (20_memory.md R71). -/
def Obligations.RegistersReadAsTheMapSays : Prop :=
  (ErrCode.code .ok = 0 ∧ ErrCode.code .illegalCmd = 1 ∧ ErrCode.code .alphabetOverflow = 2 ∧
   ErrCode.code .invalidHeader = 3 ∧ ErrCode.code .unresolvedCycle = 4 ∧ ErrCode.code .truncatedStream = 5 ∧
   ErrCode.code .internalInvariant = 6 ∧ ErrCode.code .capacity = 7 ∧ ErrCode.code .range = 8) ∧
  (∀ (s : State) (a : BusAddr) (v : Word) (rest : List HostOp),
     (a, v) ∈
       [ (0x000#18, 0x52424345#32), (0x004#18, 0#32),
         (0x008#18, (BitVec.ofBool s.busy).setWidth 32 ||| ((BitVec.ofBool s.done).setWidth 32 <<< 1) |||
           (s.err.code.setWidth 32 <<< 4)),
         (0x00C#18, s.inLen), (0x010#18, s.origLen), (0x014#18, s.outLen), (0x018#18, s.k.setWidth 32),
         (0x01C#18, s.wbase.setWidth 32), (0x020#18, s.wbits), (0x024#18, s.rbits),
         (0x028#18, s.cycleM.setWidth 32 ||| (s.cycleJ.setWidth 32 <<< 8)), (0x02C#18, s.result),
         (0x030#18, BitVec.ofNat 32 s.params.inCap), (0x034#18, BitVec.ofNat 32 s.params.outCap) ] →
     s.busy = false → s.queue = .read a .w32 :: rest →
     step s = .next { s with turns := s.turns - 1, queue := rest, response := some (.data v) })

/-- 10_state.md R23, R30, R31, R34, R35: a write to a read-write register stores the value into its field (WBASE keeps bits 15
to 0) and does nothing else (20_memory.md R71). -/
def Obligations.ReadWriteRegistersStoreTheirField : Prop :=
  ∀ (s : State) (w : Word) (rest : List HostOp), s.busy = false →
    (s.queue = .write 0x00C .w32 w :: rest →
      step s = .next { s with inLen := w, turns := s.turns - 1, queue := rest, response := some .done }) ∧
    (s.queue = .write 0x010 .w32 w :: rest →
      step s = .next { s with origLen := w, turns := s.turns - 1, queue := rest, response := some .done }) ∧
    (s.queue = .write 0x01C .w32 w :: rest →
      step s = .next { s with wbase := w.setWidth 16, turns := s.turns - 1, queue := rest, response := some .done }) ∧
    (s.queue = .write 0x020 .w32 w :: rest →
      step s = .next { s with wbits := w, turns := s.turns - 1, queue := rest, response := some .done })

/-- 20_memory.md R63, R64, R68: the INBUF and the OUTBUF window: a word write sets four bytes, the lowest offset from the least
significant byte, and nothing else; a word read returns them in that order. -/
def Obligations.BufferWindowsHoldTheirBytes : Prop :=
  (∀ (s : State) (n : Nat) (w : Word) (rest : List HostOp), s.params.legal → s.busy = false → 4 * n < s.params.inCap →
     (s.queue = .write (BitVec.ofNat 18 (0x10000 + 4 * n)) .w32 w :: rest →
       ∃ t, step s = .next t ∧
         (∀ d, d < 4 → t.inByte (4 * n + d) = w.extractLsb' (8 * d) 8) ∧
         (∀ i, i < 4 * n ∨ 4 * n + 4 ≤ i → t.inByte i = s.inByte i) ∧
         t = { s with inbuf := t.inbuf, turns := s.turns - 1, queue := rest, response := some .done }) ∧
     (s.queue = .read (BitVec.ofNat 18 (0x10000 + 4 * n)) .w32 :: rest →
       step s = .next { s with
         turns := s.turns - 1
         queue := rest
         response := some (.data (s.inByte (4 * n + 3) ++ s.inByte (4 * n + 2) ++ s.inByte (4 * n + 1) ++ s.inByte (4 * n))) })) ∧
  (∀ (s : State) (n : Nat) (w : Word) (rest : List HostOp), s.params.legal → s.busy = false → 4 * n < s.params.outCap →
     (s.queue = .write (BitVec.ofNat 18 (0x20000 + 4 * n)) .w32 w :: rest →
       ∃ t, step s = .next t ∧
         (∀ d, d < 4 → t.outByte (4 * n + d) = w.extractLsb' (8 * d) 8) ∧
         (∀ i, i < 4 * n ∨ 4 * n + 4 ≤ i → t.outByte i = s.outByte i) ∧
         t = { s with outbuf := t.outbuf, turns := s.turns - 1, queue := rest, response := some .done }) ∧
     (s.queue = .read (BitVec.ofNat 18 (0x20000 + 4 * n)) .w32 :: rest →
       step s = .next { s with
         turns := s.turns - 1
         queue := rest
         response := some (.data
           (s.outByte (4 * n + 3) ++ s.outByte (4 * n + 2) ++ s.outByte (4 * n + 1) ++ s.outByte (4 * n))) }))

/-- 20_memory.md R65: the table windows return the entries, and a write to any table address is rejected. -/
def Obligations.TableWindowsReadTheTables : Prop :=
  ∀ (s : State) (x : Byte) (rest : List HostOp), s.busy = false →
    (s.queue = .read (BitVec.ofNat 18 (0x400 + 4 * x.toNat)) .w32 :: rest →
      step s = .next { s with turns := s.turns - 1, queue := rest, response := some (.data (Table.entry s.freq x)) }) ∧
    (s.queue = .read (BitVec.ofNat 18 (0x800 + 4 * x.toNat)) .w32 :: rest →
      step s = .next { s with
        turns := s.turns - 1, queue := rest, response := some (.data ((Table.entry s.symtab x).setWidth 32)) }) ∧
    (∀ r, Table.entry s.ranktab x = some r → s.queue = .read (BitVec.ofNat 18 (0xC00 + 4 * x.toNat)) .w32 :: rest →
      step s = .next { s with turns := s.turns - 1, queue := rest, response := some (.data (r.setWidth 32)) }) ∧
    (Table.entry s.ranktab x = none → s.queue = .read (BitVec.ofNat 18 (0xC00 + 4 * x.toNat)) .w32 :: rest →
      step s = .next { s with turns := s.turns - 1, queue := rest, response := some (.data 0xFFFFFFFF) }) ∧
    (∀ (a : BusAddr) (w : Word), 0x400 ≤ a.toNat → a.toNat < 0x1000 → s.queue = .write a .w32 w :: rest →
      step s = .next { s with turns := s.turns - 1, queue := rest, response := some .writeError })

/-- 30_encoding.md R98: POLL reads STATUS and stays pending as long as BUSY = 1. -/
def Obligations.PollWaitsUntilNotBusy : Prop :=
  ∀ (s : State) (rest : List HostOp), ¬(s.busy = true ∧ s.turns = 0) → s.queue = .poll :: rest →
    step s = .next { s with
      turns := s.turns - 1
      queue := if s.busy = true then .poll :: rest else rest
      response := some (.data s.statusWord) }

/-- 30_encoding.md R98: `LOADIN bytes` leaves the bytes in INBUF, zeros from their end to the end of the last word, and their
number in IN_LEN, and nothing else changes. -/
def Obligations.LoadinFillsInbuf : Prop :=
  ∀ (s : State) (bytes : List Byte) (rest : List HostOp), s.params.legal → s.busy = false → s.turns = 0 →
    bytes.length ≤ s.params.inCap →
    ∃ ops, loadInOps bytes = some ops ∧ (s.queue = ops ++ rest → ∃ t, core.run ops.length s = .next t ∧
      (∀ i, i < bytes.length → some (t.inByte i) = bytes[i]?) ∧
      (∀ i, bytes.length ≤ i → i < 4 * ((bytes.length + 3) / 4) → t.inByte i = 0) ∧
      (∀ i, 4 * ((bytes.length + 3) / 4) ≤ i → t.inByte i = s.inByte i) ∧
      t.inLen = BitVec.ofNat 32 bytes.length ∧
      t = { s with inbuf := t.inbuf, inLen := t.inLen, queue := rest, response := some .done })

/-! ### The canonical enumeration -/

/-- 43_code_builder.md R181: the enumeration f. -/
def Obligations.CycleOfRankIsTheCanonicalOne : Prop :=
  ∀ r : Nat, ∃ L, 2 ≤ L ∧ (L - 2) * (L - 1) / 2 ≤ r ∧ r < (L - 1) * L / 2 ∧
    (∀ L', 2 ≤ L' → (L' - 2) * (L' - 1) / 2 ≤ r → r < (L' - 1) * L' / 2 → L' = L) ∧
    cycleOf r = (L - 1 - (r - (L - 2) * (L - 1) / 2), 1 + (r - (L - 2) * (L - 1) / 2)) ∧
    1 ≤ (cycleOf r).1 ∧ 1 ≤ (cycleOf r).2 ∧ (cycleOf r).1 + (cycleOf r).2 = L

/-- 43_code_builder.md R182: the inverse enumeration g, and the decoder's lookup: g followed by the test against K, which is
the search of the K entries (45_decoder.md R218). -/
def Obligations.RankOfCycleInvertsCycleOfRank : Prop :=
  (∀ m j, rankOfCycle m j = none ↔ m < 1 ∨ j < 1) ∧
  (∀ m j, 1 ≤ m → 1 ≤ j → rankOfCycle m j = some ((m + j - 2) * (m + j - 1) / 2 + (j - 1))) ∧
  (∀ r, rankOfCycle (cycleOf r).1 (cycleOf r).2 = some r) ∧
  (∀ m j r, rankOfCycle m j = some r → cycleOf r = (m, j)) ∧
  (∀ (s : State) (m j : Nat) (x : Byte), s.resolve m j = some x ↔
    ∃ r, rankOfCycle m j = some r ∧ r < s.k.toNat ∧ Table.entry s.symtab (BitVec.ofNat 8 r) = x) ∧
  (∀ (s : State) (m j : Nat) (x : Byte), s.resolve m j = some x ↔
    ∃ r, r < s.k.toNat ∧ cycleOf r = (m, j) ∧ Table.entry s.symtab (BitVec.ofNat 8 r) = x)

/-- 43_code_builder.md R186: code lengths are non-decreasing; within one length m falls and j rises; the bounds of a legal
table. -/
def Obligations.CodeLengthsAreMonotoneAndBounded : Prop :=
  (∀ q r, q ≤ r → (cycleOf q).1 + (cycleOf q).2 ≤ (cycleOf r).1 + (cycleOf r).2) ∧
  (∀ q r, q < r → (cycleOf q).1 + (cycleOf q).2 = (cycleOf r).1 + (cycleOf r).2 →
    (cycleOf r).1 < (cycleOf q).1 ∧ (cycleOf q).2 < (cycleOf r).2) ∧
  (∀ r, r ≤ 254 → 2 ≤ (cycleOf r).1 + (cycleOf r).2 ∧ (cycleOf r).1 + (cycleOf r).2 ≤ 24 ∧
    1 ≤ (cycleOf r).1 ∧ (cycleOf r).1 ≤ 23 ∧ 1 ≤ (cycleOf r).2 ∧ (cycleOf r).2 ≤ 22)

/-- 45_decoder.md R219: counters that saturate at 31 resolve every cycle as unbounded ones do; a count of 24 or more never
resolves. -/
def Obligations.SaturatedCountersResolveAlike : Prop :=
  ∀ (s : State) (m j : Nat), s.resolve (min m 31) (min j 31) = s.resolve m j ∧ (24 ≤ m ∨ 24 ≤ j → s.resolve m j = none)

/-! ### NOP and the queries -/

/-- 47_composite.md R257: NOP completes OK and changes nothing but STATUS. -/
def Obligations.NopOnlySetsStatus : Prop :=
  ∀ s : State, exec .nop s = .next { s with err := .ok, busy := false, done := true, latch := 0, turns := 0 }

/-- 43_code_builder.md R190: RANK2MJ's RESULT, field by field. -/
def Obligations.RankToCycleResult : Prop :=
  ∀ (s : State) (r : Nat), r ≤ 255 →
    ∃ t, exec (.rank2mj r) s = .next t ∧
      (t.result.extractLsb' 0 8).toNat = (cycleOf r).1 ∧
      (t.result.extractLsb' 8 8).toNat = (cycleOf r).2 ∧
      (t.result.extractLsb' 16 8).toNat = (cycleOf r).1 + (cycleOf r).2 ∧
      t.result.extractLsb' 24 7 = 0 ∧
      (t.result.getLsbD 31 = true ↔ r < s.k.toNat) ∧
      t = { onlyStatus .ok s with result := t.result }

/-- 43_code_builder.md R192: MJ2RANK's RESULT, field by field. -/
def Obligations.CycleToRankResult : Prop :=
  ∀ (s : State) (m j : Nat), m ≤ 31 → j ≤ 31 →
    ∃ t, exec (.mj2rank m j) s = .next t ∧
      (m = 0 ∨ j = 0 → t.result = 0) ∧
      (1 ≤ m → 1 ≤ j →
        (t.result.extractLsb' 0 16).toNat = (m + j - 2) * (m + j - 1) / 2 + (j - 1) ∧
        t.result.getLsbD 30 = true ∧
        t.result.extractLsb' 24 6 = 0 ∧
        (t.result.getLsbD 31 = true ↔ (m + j - 2) * (m + j - 1) / 2 + (j - 1) < s.k.toNat) ∧
        t.result.extractLsb' 16 8 =
          if (m + j - 2) * (m + j - 1) / 2 + (j - 1) < s.k.toNat
          then Table.entry s.symtab (BitVec.ofNat 8 ((m + j - 2) * (m + j - 1) / 2 + (j - 1))) else 0) ∧
      t = { onlyStatus .ok s with result := t.result }

/-- 43_code_builder.md R193: MJ2RANK's HIT bit is 1 exactly when DECODE's resolve step resolves the cycle, and then the symbol
field is the symbol DECODE appends. -/
def Obligations.HitAgreesWithTheResolveStep : Prop :=
  ∀ (s t : State) (m j : Nat), m ≤ 31 → j ≤ 31 → exec (.mj2rank m j) s = .next t →
    (t.result.getLsbD 31 = true ↔ ∃ x, s.resolve m j = some x) ∧
    (∀ x, s.resolve m j = some x → t.result.extractLsb' 16 8 = x)

/-- 41_bitstream.md R160: GETBIT answers the bit, counted MSB-first from INBUF[0]; past the end it completes RANGE and leaves
RESULT unchanged. -/
def Obligations.GetbitReadsOneBit : Prop :=
  ∀ (s : State) (idx : Nat), s.inLen.toNat ≤ s.params.inCap →
    (idx < 8 * s.inLen.toNat →
      ∃ t, exec (.getbit idx) s = .next t ∧
        t.result.toNat = (if (s.inByte (idx / 8)).getLsbD (7 - idx % 8) = true then 1 else 0) ∧
        t = { onlyStatus .ok s with result := t.result }) ∧
    (8 * s.inLen.toNat ≤ idx → exec (.getbit idx) s = .next (onlyStatus .range s))

/-! ### The bit writer -/

/-- 41_bitstream.md R150, R155: PUTBIT while the stream's next byte is below OUT_CAP: one bit written, the byte's other bits
cleared at its first bit and kept at a later one, WBITS and OUT_LEN, and nothing else; at or past OUT_CAP it completes
CAPACITY, writes no bit, and writes OUT_LEN. -/
def Obligations.PutbitAppendsOneBit : Prop :=
  (∀ (s : State) (b : Bool), s.params.legal → s.wbase.toNat + s.wbits.toNat / 8 < s.params.outCap →
     ∃ t, exec (.putbit b) s = .next t ∧
       t.wbits.toNat = s.wbits.toNat + 1 ∧
       t.outLen.toNat = s.wbase.toNat + (s.wbits.toNat + 1 + 7) / 8 ∧
       (t.outByte (s.wbase.toNat + s.wbits.toNat / 8)).getLsbD (7 - s.wbits.toNat % 8) = b ∧
       (∀ p, p < 8 → p ≠ 7 - s.wbits.toNat % 8 →
         (t.outByte (s.wbase.toNat + s.wbits.toNat / 8)).getLsbD p =
           if s.wbits.toNat % 8 = 0 then false else (s.outByte (s.wbase.toNat + s.wbits.toNat / 8)).getLsbD p) ∧
       (∀ i, i ≠ s.wbase.toNat + s.wbits.toNat / 8 → t.outByte i = s.outByte i) ∧
       t = { onlyStatus .ok s with outbuf := t.outbuf, wbits := t.wbits, outLen := t.outLen }) ∧
  (∀ (s : State) (b : Bool), s.params.outCap ≤ s.wbase.toNat + s.wbits.toNat / 8 →
     ∃ t, exec (.putbit b) s = .next t ∧
       t.outLen.toNat = s.wbase.toNat + (s.wbits.toNat + 7) / 8 ∧
       t = { onlyStatus .capacity s with outLen := t.outLen })

/-- 41_bitstream.md R150, R151, R153, R157: PUTCYCLE whose last bit falls below OUT_CAP: m zeros, then j ones; no earlier bit of
the stream is overwritten; the bits behind the last one are 0 in a byte this command began and keep their value in one it did
not; WBITS, OUT_LEN, and nothing else. -/
def Obligations.PutcycleAppendsZerosThenOnes : Prop :=
  ∀ (s : State) (m j : Nat), s.params.legal →
    (m + j = 0 ∨ s.wbase.toNat + (s.wbits.toNat + m + j - 1) / 8 < s.params.outCap) →
    ∃ t, exec (.putcycle m j) s = .next t ∧
      t.wbits.toNat = s.wbits.toNat + m + j ∧
      t.outLen.toNat = s.wbase.toNat + (s.wbits.toNat + m + j + 7) / 8 ∧
      (∀ i, i < m + j → t.outBitAt s.wbase.toNat (s.wbits.toNat + i) = decide (m ≤ i)) ∧
      (∀ i, i < s.wbits.toNat → t.outBitAt s.wbase.toNat i = s.outBitAt s.wbase.toNat i) ∧
      (∀ i, s.wbits.toNat + m + j ≤ i → i < 8 * ((s.wbits.toNat + m + j + 7) / 8) → s.wbits.toNat ≤ 8 * (i / 8) →
        t.outBitAt s.wbase.toNat i = false) ∧
      (∀ i, s.wbits.toNat + m + j ≤ i → 8 * (i / 8) < s.wbits.toNat →
        t.outBitAt s.wbase.toNat i = s.outBitAt s.wbase.toNat i) ∧
      (∀ i, i < s.wbase.toNat + s.wbits.toNat / 8 ∨ s.wbase.toNat + (s.wbits.toNat + m + j + 7) / 8 ≤ i →
        t.outByte i = s.outByte i) ∧
      (m + j = 0 → ∀ i, t.outByte i = s.outByte i) ∧
      t = { onlyStatus .ok s with outbuf := t.outbuf, wbits := t.wbits, outLen := t.outLen }

/-- 41_bitstream.md R151, R157: PUTCYCLE that does not fit completes CAPACITY; the bits before the first that does not fit
stay written and counted. -/
def Obligations.PutcycleStopsAtTheFirstBitThatDoesNotFit : Prop :=
  ∀ (s : State) (m j : Nat), s.params.legal → 1 ≤ m + j →
    s.params.outCap ≤ s.wbase.toNat + (s.wbits.toNat + m + j - 1) / 8 →
    ∃ t, exec (.putcycle m j) s = .next t ∧
      t.wbits.toNat = max s.wbits.toNat (8 * (s.params.outCap - s.wbase.toNat)) ∧
      t.outLen.toNat = s.wbase.toNat + (t.wbits.toNat + 7) / 8 ∧
      (∀ i, s.wbits.toNat + i < t.wbits.toNat → t.outBitAt s.wbase.toNat (s.wbits.toNat + i) = decide (m ≤ i)) ∧
      (∀ i, i < s.wbits.toNat → t.outBitAt s.wbase.toNat i = s.outBitAt s.wbase.toNat i) ∧
      (∀ i, i < s.wbase.toNat + s.wbits.toNat / 8 ∨ s.params.outCap ≤ i → t.outByte i = s.outByte i) ∧
      t = { onlyStatus .capacity s with outbuf := t.outbuf, wbits := t.wbits, outLen := t.outLen }

/-- 41_bitstream.md R158: PUTCYCLE leaves OUTBUF, WBITS, OUT_LEN and the code as m PUTBIT 0 and j PUTBIT 1 commands would, the
sequence stopping at the first CAPACITY. (With m = j = 0 no PUTBIT runs, and R157 has PUTCYCLE still write OUT_LEN.) -/
def Obligations.PutcycleEqualsPutbits : Prop :=
  ∀ (s t : State) (m j : Nat), 1 ≤ m + j → exec (.putcycle m j) s = .next t →
    t.outbuf = (putbits (List.replicate m false ++ List.replicate j true) s).outbuf ∧
    t.wbits = (putbits (List.replicate m false ++ List.replicate j true) s).wbits ∧
    t.outLen = (putbits (List.replicate m false ++ List.replicate j true) s).outLen ∧
    t.err = (putbits (List.replicate m false ++ List.replicate j true) s).err

/-! ### Building the tables -/

/-- 40_command_model.md R137: with IN_LEN > IN_CAP every command that reads INBUF completes RANGE and writes nothing; the
composites also clear OUT_LEN. -/
def Obligations.InputRangeCheckComesFirst : Prop :=
  ∀ (s : State) (idx : Nat), s.params.inCap < s.inLen.toNat →
    exec .freq s = .next (onlyStatus .range s) ∧
    exec .encode s = .next (onlyStatus .range s) ∧
    exec .buildDec s = .next (onlyStatus .range s) ∧
    exec .decode s = .next (onlyStatus .range s) ∧
    exec (.getbit idx) s = .next (onlyStatus .range s) ∧
    exec .compress s = .next { onlyStatus .range s with outLen := 0 } ∧
    exec .decompress s = .next { onlyStatus .range s with outLen := 0 }

/-- 42_frequency.md R170, R171: FREQ counts every byte value of the input; the counts sum to IN_LEN; nothing else changes. -/
def Obligations.FreqCountsTheInput : Prop :=
  ∀ s : State, s.inLen.toNat ≤ s.params.inCap →
    ∃ t, exec .freq s = .next t ∧
      (∀ x : Byte, (Table.entry t.freq x).toNat = s.input.count x) ∧
      (symbols.map (fun x => (Table.entry t.freq x).toNat)).sum = s.inLen.toNat ∧
      t = { onlyStatus .ok s with freq := t.freq }

/-- 43_code_builder.md R185, 46_header.md R241: BUILD_ENC with all 256 byte values present completes ALPHABET_OVERFLOW, and
BUILD_DEC's three header errors INVALID_HEADER; each leaves everything but STATUS unchanged. -/
def Obligations.BuildersRejectWithoutWriting : Prop :=
  (∀ s : State, (∀ x : Byte, Table.entry s.freq x ≠ 0) → exec .buildEnc s = .next (onlyStatus .alphabetOverflow s)) ∧
  (∀ s : State, s.inLen.toNat ≤ s.params.inCap →
     (s.inLen.toNat = 0 ∨ s.inLen.toNat < 1 + (s.inByte 0).toNat ∨ (s.inByte 0 = 0 ∧ 1 < s.inLen.toNat)) →
     exec .buildDec s = .next (onlyStatus .invalidHeader s))

/-- 43_code_builder.md R184, R185: BUILD_ENC with a byte value absent: K, SYMTAB and RANKTAB from the rank of every present
symbol, every other entry cleared, nothing else changed. -/
def Obligations.BuildEncRanksThePresentSymbols : Prop :=
  ∀ (s : State) (absent : Byte), Table.entry s.freq absent = 0 →
    ∃ t, exec .buildEnc s = .next t ∧
      t.k.toNat = symbols.countP (fun x => decide (Table.entry s.freq x ≠ 0)) ∧
      (∀ (x : Byte) (r : Nat), Table.entry s.freq x ≠ 0 →
        r = symbols.countP (fun y => decide (Table.entry s.freq y ≠ 0 ∧
          (Table.entry s.freq x < Table.entry s.freq y ∨ (Table.entry s.freq y = Table.entry s.freq x ∧ y < x)))) →
        r < t.k.toNat ∧ Table.entry t.ranktab x = some (BitVec.ofNat 8 r) ∧ Table.entry t.symtab (BitVec.ofNat 8 r) = x) ∧
      (∀ x : Byte, Table.entry s.freq x = 0 → Table.entry t.ranktab x = none) ∧
      (∀ r : Byte, t.k.toNat ≤ r.toNat → Table.entry t.symtab r = 0) ∧
      t = { onlyStatus .ok s with k := t.k, symtab := t.symtab, ranktab := t.ranktab }

/-- 43_code_builder.md R184, R187: after a successful BUILD_ENC the K code entries have distinct symbols and distinct cycles,
RANKTAB inverts SYMTAB, every present symbol has exactly one entry, and the ranks follow descending frequency, then ascending
byte value. -/
def Obligations.CodeTableIsABijectionInRankOrder : Prop :=
  ∀ s t : State, exec .buildEnc s = .next t → t.err = .ok →
    (∀ r : Byte, r.toNat < t.k.toNat → Table.entry t.ranktab (Table.entry t.symtab r) = some r) ∧
    (∀ q r : Byte, q.toNat < t.k.toNat → r.toNat < t.k.toNat → q ≠ r →
      Table.entry t.symtab q ≠ Table.entry t.symtab r ∧ cycleOf q.toNat ≠ cycleOf r.toNat) ∧
    (∀ x : Byte, Table.entry s.freq x ≠ 0 ↔ ∃ r : Byte, r.toNat < t.k.toNat ∧ Table.entry t.symtab r = x) ∧
    (∀ q r : Byte, q.toNat < r.toNat → r.toNat < t.k.toNat →
       Table.entry s.freq (Table.entry t.symtab r) < Table.entry s.freq (Table.entry t.symtab q) ∨
       (Table.entry s.freq (Table.entry t.symtab r) = Table.entry s.freq (Table.entry t.symtab q) ∧
         Table.entry t.symtab q < Table.entry t.symtab r))

/-- 46_header.md R241, R244: BUILD_DEC on a header that fits loads K and the symbols as serialized, RANKTAB with the first rank
of each; nothing else changes, FREQ and OUT_LEN among it; and DECODE's header checks pass after it. -/
def Obligations.BuildDecLoadsTheHeader : Prop :=
  (∀ s : State, s.inLen.toNat ≤ s.params.inCap → 1 + (s.inByte 0).toNat ≤ s.inLen.toNat →
     (s.inByte 0 = 0 → s.inLen.toNat = 1) →
     ∃ t, exec .buildDec s = .next t ∧
       t.k = s.inByte 0 ∧
       (∀ r : Byte, r.toNat < (s.inByte 0).toNat → Table.entry t.symtab r = s.inByte (1 + r.toNat)) ∧
       (∀ r : Byte, (s.inByte 0).toNat ≤ r.toNat → Table.entry t.symtab r = 0) ∧
       (∀ x r : Byte, Table.entry t.ranktab x = some r ↔
         r.toNat < (s.inByte 0).toNat ∧ s.inByte (1 + r.toNat) = x ∧ ∀ q, q < r.toNat → s.inByte (1 + q) ≠ x) ∧
       t = { onlyStatus .ok s with k := t.k, symtab := t.symtab, ranktab := t.ranktab }) ∧
  (∀ s t u : State, exec .buildDec s = .next t → t.err = .ok → exec .decode t = .next u → u.err ≠ .invalidHeader)

/-! ### ENCODE and COMPRESS -/

/-- 44_encoder.md R200, R202: ENCODE of an input whose every byte has a rank, when header and payload fit: OUTBUF holds K, the
K symbols, the cycle codes of the input bytes packed MSB-first and zero bits to the end of the last byte; the registers; no
other byte of OUTBUF and nothing else changes. -/
def Obligations.EncodeWritesTheCompressedRepresentation : Prop :=
  ∀ (s : State) (rs : List Nat), s.params.legal → s.inLen.toNat ≤ s.params.inCap →
    s.input.map (fun x => (Table.entry s.ranktab x).map BitVec.toNat) = rs.map some →
    1 + s.k.toNat + ((payloadOf rs).length + 7) / 8 ≤ s.params.outCap →
    ∃ t, exec .encode s = .next t ∧
      t.outLen.toNat = 1 + s.k.toNat + ((payloadOf rs).length + 7) / 8 ∧
      t.wbase.toNat = 1 + s.k.toNat ∧
      t.wbits.toNat = (payloadOf rs).length ∧
      t.outByte 0 = s.k ∧
      (∀ r : Byte, r.toNat < s.k.toNat → t.outByte (1 + r.toNat) = Table.entry s.symtab r) ∧
      (∀ i, i < (payloadOf rs).length → (payloadOf rs)[i]? = some (t.outBitAt (1 + s.k.toNat) i)) ∧
      (∀ i, (payloadOf rs).length ≤ i → i < 8 * (((payloadOf rs).length + 7) / 8) → t.outBitAt (1 + s.k.toNat) i = false) ∧
      (∀ i, t.outLen.toNat ≤ i → t.outByte i = s.outByte i) ∧
      t = { onlyStatus .ok s with outbuf := t.outbuf, outLen := t.outLen, wbase := t.wbase, wbits := t.wbits }

/-- 44_encoder.md R200: ENCODE at its first error, OUT_LEN = 0, the header and the bits before it in place: at an input byte
without a rank, INTERNAL_INVARIANT, with zero bits behind the last one in its byte (41_bitstream.md R153); at one whose cycle
does not fit, CAPACITY, with the bits up to the end of OUTBUF. -/
def Obligations.EncodeStopsAtItsFirstError : Prop :=
  (∀ (s : State) (xs ys : List Byte) (x : Byte) (rs : List Nat), s.params.legal → s.inLen.toNat ≤ s.params.inCap →
     s.input = xs ++ x :: ys →
     xs.map (fun y => (Table.entry s.ranktab y).map BitVec.toNat) = rs.map some →
     1 + s.k.toNat + ((payloadOf rs).length + 7) / 8 ≤ s.params.outCap →
     Table.entry s.ranktab x = none →
     ∃ t, exec .encode s = .next t ∧
       t.outLen = 0 ∧ t.wbase.toNat = 1 + s.k.toNat ∧ t.wbits.toNat = (payloadOf rs).length ∧
       t.outByte 0 = s.k ∧
       (∀ r : Byte, r.toNat < s.k.toNat → t.outByte (1 + r.toNat) = Table.entry s.symtab r) ∧
       (∀ i, i < (payloadOf rs).length → (payloadOf rs)[i]? = some (t.outBitAt (1 + s.k.toNat) i)) ∧
       (∀ i, (payloadOf rs).length ≤ i → i < 8 * (((payloadOf rs).length + 7) / 8) → t.outBitAt (1 + s.k.toNat) i = false) ∧
       (∀ i, 1 + s.k.toNat + ((payloadOf rs).length + 7) / 8 ≤ i → t.outByte i = s.outByte i) ∧
       t = { onlyStatus .internalInvariant s with
         outbuf := t.outbuf, outLen := t.outLen, wbase := t.wbase, wbits := t.wbits }) ∧
  (∀ (s : State) (xs ys : List Byte) (x r : Byte) (rs : List Nat), s.params.legal → s.inLen.toNat ≤ s.params.inCap →
     s.input = xs ++ x :: ys →
     xs.map (fun y => (Table.entry s.ranktab y).map BitVec.toNat) = rs.map some →
     1 + s.k.toNat + ((payloadOf rs).length + 7) / 8 ≤ s.params.outCap →
     Table.entry s.ranktab x = some r →
     s.params.outCap < 1 + s.k.toNat + ((payloadOf (rs ++ [r.toNat])).length + 7) / 8 →
     ∃ t, exec .encode s = .next t ∧
       t.outLen = 0 ∧ t.wbase.toNat = 1 + s.k.toNat ∧ t.wbits.toNat = 8 * (s.params.outCap - (1 + s.k.toNat)) ∧
       t.outByte 0 = s.k ∧
       (∀ q : Byte, q.toNat < s.k.toNat → t.outByte (1 + q.toNat) = Table.entry s.symtab q) ∧
       (∀ i, i < t.wbits.toNat → (payloadOf (rs ++ [r.toNat]))[i]? = some (t.outBitAt (1 + s.k.toNat) i)) ∧
       (∀ i, s.params.outCap ≤ i → t.outByte i = s.outByte i) ∧
       t = { onlyStatus .capacity s with outbuf := t.outbuf, outLen := t.outLen, wbase := t.wbase, wbits := t.wbits })

/-- 44_encoder.md R203: a successful ENCODE of n bytes writes at most 1 + K + 3·n bytes, and CAPACITY cannot occur when
OUT_CAP ≥ 256 + 3·IN_LEN. -/
def Obligations.EncodedSizeIsBounded : Prop :=
  ∀ s t : State, s.params.legal → exec .encode s = .next t →
    (t.err = .ok → t.outLen.toNat ≤ 1 + s.k.toNat + 3 * s.inLen.toNat) ∧
    (256 + 3 * s.inLen.toNat ≤ s.params.outCap → t.err ≠ .capacity)

/-- 47_composite.md R255: COMPRESS of an input in range with at most 255 distinct byte values, when the worst case fits:
completes OK with the input's counts, K their number, the header's count in OUTBUF[0]; OUT_LEN is WBASE + ceil8(WBITS); nothing
but the storage of its sub-commands changes. -/
def Obligations.CompressCompletes : Prop :=
  ∀ (s : State) (absent : Byte), s.params.legal → s.inLen.toNat ≤ s.params.inCap → absent ∉ s.input →
    256 + 3 * s.inLen.toNat ≤ s.params.outCap →
    ∃ t, exec .compress s = .next t ∧
      (∀ x : Byte, (Table.entry t.freq x).toNat = s.input.count x) ∧
      t.k.toNat = symbols.countP (fun x => decide (x ∈ s.input)) ∧
      t.outByte 0 = t.k ∧
      t.wbase.toNat = 1 + t.k.toNat ∧
      t.outLen.toNat = 1 + t.k.toNat + (t.wbits.toNat + 7) / 8 ∧
      t = { onlyStatus .ok s with
        freq := t.freq, k := t.k, symtab := t.symtab, ranktab := t.ranktab, outbuf := t.outbuf, outLen := t.outLen,
        wbase := t.wbase, wbits := t.wbits }

/-- 40_command_model.md R140: two executions of COMPRESS on the same input give byte-identical results, whatever the tables,
the registers and OUTBUF held before. -/
def Obligations.CompressDependsOnlyOnItsInput : Prop :=
  ∀ s s' t t' : State, s.params = s'.params → s.params.legal → s.inLen = s'.inLen →
    (∀ i, i < s.inLen.toNat → s.inByte i = s'.inByte i) →
    exec .compress s = .next t → exec .compress s' = .next t' →
    t.err = t'.err ∧ t.outLen = t'.outLen ∧ ∀ i, i < t.outLen.toNat → t.outByte i = t'.outByte i

/-- 47_composite.md R255, R256, R258; 40_command_model.md R139: COMPRESS is FREQ, BUILD_ENC, ENCODE one after another, and
DECOMPRESS is BUILD_DEC, DECODE, except that an error before the last sub-command ends it with OUT_LEN = 0. -/
def Obligations.CompositesAreTheirSubCommands : Prop :=
  ∀ s : State,
    exec .compress s = .next
      (if (after .freq s).err ≠ .ok then { after .freq s with outLen := 0 }
       else if (after .buildEnc (after .freq s)).err ≠ .ok then { after .buildEnc (after .freq s) with outLen := 0 }
       else after .encode (after .buildEnc (after .freq s))) ∧
    exec .decompress s = .next
      (if (after .buildDec s).err ≠ .ok then { after .buildDec s with outLen := 0 }
       else after .decode (after .buildDec s))

/-! ### DECODE and DECOMPRESS -/

/-- 45_decoder.md R216, R217: DECODE's checks in their order, before any bit is read; each of (2) to (4) clears OUT_LEN, RBITS
and CYCLE. -/
def Obligations.DecoderChecksInOrder : Prop :=
  ∀ s : State,
    (s.params.inCap < s.inLen.toNat → exec .decode s = .next (onlyStatus .range s)) ∧
    (s.inLen.toNat ≤ s.params.inCap →
      (s.inLen.toNat < 1 + s.k.toNat ∨ (s.k = 0 ∧ 0 < s.inLen.toNat - (1 + s.k.toNat)) →
        exec .decode s = .next
          { onlyStatus .invalidHeader s with outLen := 0, rbits := 0, cycleM := 0, cycleJ := 0 }) ∧
      (1 + s.k.toNat ≤ s.inLen.toNat → (s.k = 0 → s.inLen.toNat = 1) → s.params.outCap < s.origLen.toNat →
        exec .decode s = .next
          { onlyStatus .capacity s with outLen := 0, rbits := 0, cycleM := 0, cycleJ := 0 }))

/-- 45_decoder.md R217, R218, 43_code_builder.md R188: DECODE of a payload that begins with the cycle codes of ORIG_LEN ranks
below K, whatever follows them as long as it does not lengthen the last one run (anything at all for ORIG_LEN = 0): OK, the symbols of the ranks in OUTBUF, the
cursor behind the last code, CYCLE the last cycle; no other byte and nothing else changes. -/
def Obligations.DecodeRecoversTheEncodedSymbols : Prop :=
  ∀ (s : State) (rs : List Nat) (rest : List Bool), s.params.legal → s.inLen.toNat ≤ s.params.inCap →
    1 + s.k.toNat ≤ s.inLen.toNat → (s.k = 0 → s.inLen.toNat = 1) → s.origLen.toNat ≤ s.params.outCap →
    rs.length = s.origLen.toNat → (∀ r ∈ rs, r < s.k.toNat) →
    s.inBits (1 + s.k.toNat) = payloadOf rs ++ rest → (rs = [] ∨ endsRun rest) →
    ∃ t, exec .decode s = .next t ∧
      t.outLen = s.origLen ∧
      (∀ i, i < rs.length → (rs[i]?).map (fun r => Table.entry s.symtab (BitVec.ofNat 8 r)) = some (t.outByte i)) ∧
      (∀ i, rs.length ≤ i → t.outByte i = s.outByte i) ∧
      t.rbits.toNat = (payloadOf rs).length ∧
      (∀ r, rs.getLast? = some r → t.cycleM.toNat = (cycleOf r).1 ∧ t.cycleJ.toNat = (cycleOf r).2) ∧
      (rs = [] → t.cycleM = 0 ∧ t.cycleJ = 0) ∧
      t = { onlyStatus .ok s with
        outbuf := t.outbuf, outLen := t.outLen, rbits := t.rbits, cycleM := t.cycleM, cycleJ := t.cycleJ }

/-- 45_decoder.md R217, R221, R222: DECODE whose payload ends at the start of a cycle or inside a zero run, before ORIG_LEN
symbols: TRUNCATED_STREAM, with the symbols recovered so far; padding gives no symbol. -/
def Obligations.DecodeReportsTruncation : Prop :=
  ∀ (s : State) (rs : List Nat) (z : Nat), s.params.legal → s.inLen.toNat ≤ s.params.inCap →
    1 + s.k.toNat ≤ s.inLen.toNat → (s.k = 0 → s.inLen.toNat = 1) → s.origLen.toNat ≤ s.params.outCap →
    rs.length < s.origLen.toNat → (∀ r ∈ rs, r < s.k.toNat) →
    s.inBits (1 + s.k.toNat) = payloadOf rs ++ List.replicate z false →
    ∃ t, exec .decode s = .next t ∧
      t.outLen.toNat = rs.length ∧
      (∀ i, i < rs.length → (rs[i]?).map (fun r => Table.entry s.symtab (BitVec.ofNat 8 r)) = some (t.outByte i)) ∧
      (∀ i, rs.length ≤ i → t.outByte i = s.outByte i) ∧
      t.rbits.toNat = 8 * (s.inLen.toNat - (1 + s.k.toNat)) ∧
      t.cycleM.toNat = min z 31 ∧ t.cycleJ = 0 ∧
      t = { onlyStatus .truncatedStream s with
        outbuf := t.outbuf, outLen := t.outLen, rbits := t.rbits, cycleM := t.cycleM, cycleJ := t.cycleJ }

/-- 45_decoder.md R217, R218: DECODE at a maximal zero run and one run that have no table entry: UNRESOLVED_CYCLE, with the
symbols recovered so far, the cursor behind the one run (which the end of the payload may end), CYCLE saturated. -/
def Obligations.DecodeReportsAnUnresolvedCycle : Prop :=
  ∀ (s : State) (rs : List Nat) (m j : Nat) (rest : List Bool), s.params.legal → s.inLen.toNat ≤ s.params.inCap →
    1 + s.k.toNat ≤ s.inLen.toNat → (s.k = 0 → s.inLen.toNat = 1) → s.origLen.toNat ≤ s.params.outCap →
    rs.length < s.origLen.toNat → (∀ r ∈ rs, r < s.k.toNat) →
    s.inBits (1 + s.k.toNat) = payloadOf rs ++ List.replicate m false ++ List.replicate j true ++ rest →
    1 ≤ j → (m = 0 → rs = []) → endsRun rest →
    (m = 0 ∨ s.k.toNat ≤ (m + j - 2) * (m + j - 1) / 2 + (j - 1)) →
    ∃ t, exec .decode s = .next t ∧
      t.outLen.toNat = rs.length ∧
      (∀ i, i < rs.length → (rs[i]?).map (fun r => Table.entry s.symtab (BitVec.ofNat 8 r)) = some (t.outByte i)) ∧
      (∀ i, rs.length ≤ i → t.outByte i = s.outByte i) ∧
      t.rbits.toNat = (payloadOf rs).length + m + j ∧
      t.cycleM.toNat = min m 31 ∧ t.cycleJ.toNat = min j 31 ∧
      t = { onlyStatus .unresolvedCycle s with
        outbuf := t.outbuf, outLen := t.outLen, rbits := t.rbits, cycleM := t.cycleM, cycleJ := t.cycleJ }

/-- 45_decoder.md R224: whatever the payload, a DECODE in range completes with OUT_LEN ≤ ORIG_LEN and a cursor within the
payload, and writes no byte of OUTBUF from OUT_LEN on. -/
def Obligations.DecodeStaysInBounds : Prop :=
  ∀ s t : State, s.params.legal → s.inLen.toNat ≤ s.params.inCap → exec .decode s = .next t →
    t.outLen.toNat ≤ s.origLen.toNat ∧
    t.rbits.toNat ≤ 8 * (s.inLen.toNat - (1 + s.k.toNat)) ∧
    (∀ i, t.outLen.toNat ≤ i → t.outByte i = s.outByte i)

/-- 45_decoder.md R225, 20_memory.md R73: DECODE depends on nothing but the capacities, IN_LEN, INBUF[0..IN_LEN), ORIG_LEN, K
and SYMTAB: not on FREQ, RANKTAB or what OUTBUF held. -/
def Obligations.DecodeDependsOnlyOnStreamAndTable : Prop :=
  ∀ s s' t t' : State, s.params = s'.params → s.params.legal → s.inLen = s'.inLen → s.origLen = s'.origLen → s.k = s'.k →
    s.symtab = s'.symtab → (∀ i, i < s.inLen.toNat → s.inByte i = s'.inByte i) →
    s.inLen.toNat ≤ s.params.inCap →
    exec .decode s = .next t → exec .decode s' = .next t' →
    t.err = t'.err ∧ t.outLen = t'.outLen ∧ t.rbits = t'.rbits ∧ t.cycleM = t'.cycleM ∧ t.cycleJ = t'.cycleJ ∧
    ∀ i, i < t.outLen.toNat → t.outByte i = t'.outByte i

/-- 47_composite.md R256: DECOMPRESS of a valid header followed by the cycle codes of ORIG_LEN ranks and by bits that do not
lengthen the last one run (by any bits for ORIG_LEN = 0): OK, the header's symbols of those ranks in OUTBUF. -/
def Obligations.DecompressRecoversTheEncodedSymbols : Prop :=
  ∀ (s : State) (rs : List Nat) (rest : List Bool), s.params.legal → s.inLen.toNat ≤ s.params.inCap →
    1 + (s.inByte 0).toNat ≤ s.inLen.toNat → (s.inByte 0 = 0 → s.inLen.toNat = 1) →
    s.origLen.toNat ≤ s.params.outCap → rs.length = s.origLen.toNat → (∀ r ∈ rs, r < (s.inByte 0).toNat) →
    s.inBits (1 + (s.inByte 0).toNat) = payloadOf rs ++ rest → (rs = [] ∨ endsRun rest) →
    ∃ t, exec .decompress s = .next t ∧
      t.outLen = s.origLen ∧
      (∀ i, i < rs.length → (rs[i]?).map (fun r => s.inByte (1 + r)) = some (t.outByte i)) ∧
      (∀ i, rs.length ≤ i → t.outByte i = s.outByte i) ∧
      t.k = s.inByte 0 ∧ t.rbits.toNat = (payloadOf rs).length ∧
      t = { onlyStatus .ok s with
        k := t.k, symtab := t.symtab, ranktab := t.ranktab, outbuf := t.outbuf, outLen := t.outLen, rbits := t.rbits,
        cycleM := t.cycleM, cycleJ := t.cycleJ }

/-- 46_header.md R242: BUILD_DEC on the compressed representation a COMPRESS wrote gives the K, SYMTAB and RANKTAB that
COMPRESS built. -/
def Obligations.HeaderCarriesTheCodeTable : Prop :=
  ∀ s t u v : State, s.params.legal → exec .compress s = .next t → t.err = .ok →
    u.params = s.params → u.inLen = t.outLen → t.outLen.toNat ≤ u.params.inCap →
    (∀ i, i < t.outLen.toNat → u.inByte i = t.outByte i) →
    exec .buildDec u = .next v → v.err = .ok ∧ v.k = t.k ∧ v.symtab = t.symtab ∧ v.ranktab = t.ranktab

/-- 45_decoder.md R223: the round trip. If COMPRESS completes OK, then DECOMPRESS of its result, loaded into INBUF with ORIG_LEN
the length of the text, completes OK and recovers the text, provided the result fits INBUF and the text fits OUTBUF. -/
def Obligations.DecompressInvertsCompress : Prop :=
  ∀ s t u : State, s.params.legal → exec .compress s = .next t → t.err = .ok →
    u.params = s.params → u.inLen = t.outLen → t.outLen.toNat ≤ u.params.inCap →
    (∀ i, i < t.outLen.toNat → u.inByte i = t.outByte i) →
    u.origLen = s.inLen → s.inLen.toNat ≤ u.params.outCap →
    ∃ v, exec .decompress u = .next v ∧ v.err = .ok ∧ v.outLen = s.inLen ∧
      ∀ i, i < s.inLen.toNat → v.outByte i = s.inByte i
end

