-- ==== Sys2Proof/Laws/State.lean ====
section
/-! SUPPORT. What each named update of the state leaves in each field: one lemma per field and update, so that no proof
unfolds an update. -/

namespace Sys2Proof.Machine

/-! ### complete -/

@[simp] theorem complete_params (e : ErrCode) (s : State) : (complete e s).params = s.params := rfl
@[simp] theorem complete_busy (e : ErrCode) (s : State) : (complete e s).busy = false := rfl
@[simp] theorem complete_done (e : ErrCode) (s : State) : (complete e s).done = true := rfl
@[simp] theorem complete_err (e : ErrCode) (s : State) : (complete e s).err = e := rfl
@[simp] theorem complete_latch (e : ErrCode) (s : State) : (complete e s).latch = 0 := rfl
@[simp] theorem complete_turns (e : ErrCode) (s : State) : (complete e s).turns = 0 := rfl
@[simp] theorem complete_inLen (e : ErrCode) (s : State) : (complete e s).inLen = s.inLen := rfl
@[simp] theorem complete_origLen (e : ErrCode) (s : State) : (complete e s).origLen = s.origLen := rfl
@[simp] theorem complete_outLen (e : ErrCode) (s : State) : (complete e s).outLen = s.outLen := rfl
@[simp] theorem complete_k (e : ErrCode) (s : State) : (complete e s).k = s.k := rfl
@[simp] theorem complete_wbase (e : ErrCode) (s : State) : (complete e s).wbase = s.wbase := rfl
@[simp] theorem complete_wbits (e : ErrCode) (s : State) : (complete e s).wbits = s.wbits := rfl
@[simp] theorem complete_rbits (e : ErrCode) (s : State) : (complete e s).rbits = s.rbits := rfl
@[simp] theorem complete_cycleM (e : ErrCode) (s : State) : (complete e s).cycleM = s.cycleM := rfl
@[simp] theorem complete_cycleJ (e : ErrCode) (s : State) : (complete e s).cycleJ = s.cycleJ := rfl
@[simp] theorem complete_result (e : ErrCode) (s : State) : (complete e s).result = s.result := rfl
@[simp] theorem complete_freq (e : ErrCode) (s : State) : (complete e s).freq = s.freq := rfl
@[simp] theorem complete_symtab (e : ErrCode) (s : State) : (complete e s).symtab = s.symtab := rfl
@[simp] theorem complete_ranktab (e : ErrCode) (s : State) : (complete e s).ranktab = s.ranktab := rfl
@[simp] theorem complete_inbuf (e : ErrCode) (s : State) : (complete e s).inbuf = s.inbuf := rfl
@[simp] theorem complete_outbuf (e : ErrCode) (s : State) : (complete e s).outbuf = s.outbuf := rfl
@[simp] theorem complete_queue (e : ErrCode) (s : State) : (complete e s).queue = s.queue := rfl
@[simp] theorem complete_response (e : ErrCode) (s : State) : (complete e s).response = s.response := rfl
@[simp] theorem complete_resets (e : ErrCode) (s : State) : (complete e s).resets = s.resets := rfl
@[simp] theorem complete_accepts (e : ErrCode) (s : State) : (complete e s).accepts = s.accepts := rfl

/-! ### setOutLen -/

@[simp] theorem setOutLen_params (n : Nat) (s : State) : (s.setOutLen n).params = s.params := rfl
@[simp] theorem setOutLen_busy (n : Nat) (s : State) : (s.setOutLen n).busy = s.busy := rfl
@[simp] theorem setOutLen_done (n : Nat) (s : State) : (s.setOutLen n).done = s.done := rfl
@[simp] theorem setOutLen_err (n : Nat) (s : State) : (s.setOutLen n).err = s.err := rfl
@[simp] theorem setOutLen_latch (n : Nat) (s : State) : (s.setOutLen n).latch = s.latch := rfl
@[simp] theorem setOutLen_turns (n : Nat) (s : State) : (s.setOutLen n).turns = s.turns := rfl
@[simp] theorem setOutLen_inLen (n : Nat) (s : State) : (s.setOutLen n).inLen = s.inLen := rfl
@[simp] theorem setOutLen_origLen (n : Nat) (s : State) : (s.setOutLen n).origLen = s.origLen := rfl
@[simp] theorem setOutLen_outLen (n : Nat) (s : State) : (s.setOutLen n).outLen = BitVec.ofNat 32 n := rfl
@[simp] theorem setOutLen_k (n : Nat) (s : State) : (s.setOutLen n).k = s.k := rfl
@[simp] theorem setOutLen_wbase (n : Nat) (s : State) : (s.setOutLen n).wbase = s.wbase := rfl
@[simp] theorem setOutLen_wbits (n : Nat) (s : State) : (s.setOutLen n).wbits = s.wbits := rfl
@[simp] theorem setOutLen_rbits (n : Nat) (s : State) : (s.setOutLen n).rbits = s.rbits := rfl
@[simp] theorem setOutLen_cycleM (n : Nat) (s : State) : (s.setOutLen n).cycleM = s.cycleM := rfl
@[simp] theorem setOutLen_cycleJ (n : Nat) (s : State) : (s.setOutLen n).cycleJ = s.cycleJ := rfl
@[simp] theorem setOutLen_result (n : Nat) (s : State) : (s.setOutLen n).result = s.result := rfl
@[simp] theorem setOutLen_freq (n : Nat) (s : State) : (s.setOutLen n).freq = s.freq := rfl
@[simp] theorem setOutLen_symtab (n : Nat) (s : State) : (s.setOutLen n).symtab = s.symtab := rfl
@[simp] theorem setOutLen_ranktab (n : Nat) (s : State) : (s.setOutLen n).ranktab = s.ranktab := rfl
@[simp] theorem setOutLen_inbuf (n : Nat) (s : State) : (s.setOutLen n).inbuf = s.inbuf := rfl
@[simp] theorem setOutLen_outbuf (n : Nat) (s : State) : (s.setOutLen n).outbuf = s.outbuf := rfl
@[simp] theorem setOutLen_queue (n : Nat) (s : State) : (s.setOutLen n).queue = s.queue := rfl
@[simp] theorem setOutLen_response (n : Nat) (s : State) : (s.setOutLen n).response = s.response := rfl
@[simp] theorem setOutLen_resets (n : Nat) (s : State) : (s.setOutLen n).resets = s.resets := rfl
@[simp] theorem setOutLen_accepts (n : Nat) (s : State) : (s.setOutLen n).accepts = s.accepts := rfl

/-! ### setResult -/

@[simp] theorem setResult_params (w : Word) (s : State) : (s.setResult w).params = s.params := rfl
@[simp] theorem setResult_busy (w : Word) (s : State) : (s.setResult w).busy = s.busy := rfl
@[simp] theorem setResult_done (w : Word) (s : State) : (s.setResult w).done = s.done := rfl
@[simp] theorem setResult_err (w : Word) (s : State) : (s.setResult w).err = s.err := rfl
@[simp] theorem setResult_latch (w : Word) (s : State) : (s.setResult w).latch = s.latch := rfl
@[simp] theorem setResult_turns (w : Word) (s : State) : (s.setResult w).turns = s.turns := rfl
@[simp] theorem setResult_inLen (w : Word) (s : State) : (s.setResult w).inLen = s.inLen := rfl
@[simp] theorem setResult_origLen (w : Word) (s : State) : (s.setResult w).origLen = s.origLen := rfl
@[simp] theorem setResult_outLen (w : Word) (s : State) : (s.setResult w).outLen = s.outLen := rfl
@[simp] theorem setResult_k (w : Word) (s : State) : (s.setResult w).k = s.k := rfl
@[simp] theorem setResult_wbase (w : Word) (s : State) : (s.setResult w).wbase = s.wbase := rfl
@[simp] theorem setResult_wbits (w : Word) (s : State) : (s.setResult w).wbits = s.wbits := rfl
@[simp] theorem setResult_rbits (w : Word) (s : State) : (s.setResult w).rbits = s.rbits := rfl
@[simp] theorem setResult_cycleM (w : Word) (s : State) : (s.setResult w).cycleM = s.cycleM := rfl
@[simp] theorem setResult_cycleJ (w : Word) (s : State) : (s.setResult w).cycleJ = s.cycleJ := rfl
@[simp] theorem setResult_result (w : Word) (s : State) : (s.setResult w).result = w := rfl
@[simp] theorem setResult_freq (w : Word) (s : State) : (s.setResult w).freq = s.freq := rfl
@[simp] theorem setResult_symtab (w : Word) (s : State) : (s.setResult w).symtab = s.symtab := rfl
@[simp] theorem setResult_ranktab (w : Word) (s : State) : (s.setResult w).ranktab = s.ranktab := rfl
@[simp] theorem setResult_inbuf (w : Word) (s : State) : (s.setResult w).inbuf = s.inbuf := rfl
@[simp] theorem setResult_outbuf (w : Word) (s : State) : (s.setResult w).outbuf = s.outbuf := rfl
@[simp] theorem setResult_queue (w : Word) (s : State) : (s.setResult w).queue = s.queue := rfl
@[simp] theorem setResult_response (w : Word) (s : State) : (s.setResult w).response = s.response := rfl
@[simp] theorem setResult_resets (w : Word) (s : State) : (s.setResult w).resets = s.resets := rfl
@[simp] theorem setResult_accepts (w : Word) (s : State) : (s.setResult w).accepts = s.accepts := rfl

/-! ### setFreq -/

@[simp] theorem setFreq_params (t : Table Word) (s : State) : (s.setFreq t).params = s.params := rfl
@[simp] theorem setFreq_busy (t : Table Word) (s : State) : (s.setFreq t).busy = s.busy := rfl
@[simp] theorem setFreq_done (t : Table Word) (s : State) : (s.setFreq t).done = s.done := rfl
@[simp] theorem setFreq_err (t : Table Word) (s : State) : (s.setFreq t).err = s.err := rfl
@[simp] theorem setFreq_latch (t : Table Word) (s : State) : (s.setFreq t).latch = s.latch := rfl
@[simp] theorem setFreq_turns (t : Table Word) (s : State) : (s.setFreq t).turns = s.turns := rfl
@[simp] theorem setFreq_inLen (t : Table Word) (s : State) : (s.setFreq t).inLen = s.inLen := rfl
@[simp] theorem setFreq_origLen (t : Table Word) (s : State) : (s.setFreq t).origLen = s.origLen := rfl
@[simp] theorem setFreq_outLen (t : Table Word) (s : State) : (s.setFreq t).outLen = s.outLen := rfl
@[simp] theorem setFreq_k (t : Table Word) (s : State) : (s.setFreq t).k = s.k := rfl
@[simp] theorem setFreq_wbase (t : Table Word) (s : State) : (s.setFreq t).wbase = s.wbase := rfl
@[simp] theorem setFreq_wbits (t : Table Word) (s : State) : (s.setFreq t).wbits = s.wbits := rfl
@[simp] theorem setFreq_rbits (t : Table Word) (s : State) : (s.setFreq t).rbits = s.rbits := rfl
@[simp] theorem setFreq_cycleM (t : Table Word) (s : State) : (s.setFreq t).cycleM = s.cycleM := rfl
@[simp] theorem setFreq_cycleJ (t : Table Word) (s : State) : (s.setFreq t).cycleJ = s.cycleJ := rfl
@[simp] theorem setFreq_result (t : Table Word) (s : State) : (s.setFreq t).result = s.result := rfl
@[simp] theorem setFreq_freq (t : Table Word) (s : State) : (s.setFreq t).freq = t := rfl
@[simp] theorem setFreq_symtab (t : Table Word) (s : State) : (s.setFreq t).symtab = s.symtab := rfl
@[simp] theorem setFreq_ranktab (t : Table Word) (s : State) : (s.setFreq t).ranktab = s.ranktab := rfl
@[simp] theorem setFreq_inbuf (t : Table Word) (s : State) : (s.setFreq t).inbuf = s.inbuf := rfl
@[simp] theorem setFreq_outbuf (t : Table Word) (s : State) : (s.setFreq t).outbuf = s.outbuf := rfl
@[simp] theorem setFreq_queue (t : Table Word) (s : State) : (s.setFreq t).queue = s.queue := rfl
@[simp] theorem setFreq_response (t : Table Word) (s : State) : (s.setFreq t).response = s.response := rfl
@[simp] theorem setFreq_resets (t : Table Word) (s : State) : (s.setFreq t).resets = s.resets := rfl
@[simp] theorem setFreq_accepts (t : Table Word) (s : State) : (s.setFreq t).accepts = s.accepts := rfl

/-! ### setCodeTable -/

@[simp] theorem setCodeTable_params (n : Nat) (t : Table Byte) (u : Table (Option Byte)) (s : State) : (s.setCodeTable n t u).params = s.params := rfl
@[simp] theorem setCodeTable_busy (n : Nat) (t : Table Byte) (u : Table (Option Byte)) (s : State) : (s.setCodeTable n t u).busy = s.busy := rfl
@[simp] theorem setCodeTable_done (n : Nat) (t : Table Byte) (u : Table (Option Byte)) (s : State) : (s.setCodeTable n t u).done = s.done := rfl
@[simp] theorem setCodeTable_err (n : Nat) (t : Table Byte) (u : Table (Option Byte)) (s : State) : (s.setCodeTable n t u).err = s.err := rfl
@[simp] theorem setCodeTable_latch (n : Nat) (t : Table Byte) (u : Table (Option Byte)) (s : State) : (s.setCodeTable n t u).latch = s.latch := rfl
@[simp] theorem setCodeTable_turns (n : Nat) (t : Table Byte) (u : Table (Option Byte)) (s : State) : (s.setCodeTable n t u).turns = s.turns := rfl
@[simp] theorem setCodeTable_inLen (n : Nat) (t : Table Byte) (u : Table (Option Byte)) (s : State) : (s.setCodeTable n t u).inLen = s.inLen := rfl
@[simp] theorem setCodeTable_origLen (n : Nat) (t : Table Byte) (u : Table (Option Byte)) (s : State) : (s.setCodeTable n t u).origLen = s.origLen := rfl
@[simp] theorem setCodeTable_outLen (n : Nat) (t : Table Byte) (u : Table (Option Byte)) (s : State) : (s.setCodeTable n t u).outLen = s.outLen := rfl
@[simp] theorem setCodeTable_k (n : Nat) (t : Table Byte) (u : Table (Option Byte)) (s : State) : (s.setCodeTable n t u).k = BitVec.ofNat 8 n := rfl
@[simp] theorem setCodeTable_wbase (n : Nat) (t : Table Byte) (u : Table (Option Byte)) (s : State) : (s.setCodeTable n t u).wbase = s.wbase := rfl
@[simp] theorem setCodeTable_wbits (n : Nat) (t : Table Byte) (u : Table (Option Byte)) (s : State) : (s.setCodeTable n t u).wbits = s.wbits := rfl
@[simp] theorem setCodeTable_rbits (n : Nat) (t : Table Byte) (u : Table (Option Byte)) (s : State) : (s.setCodeTable n t u).rbits = s.rbits := rfl
@[simp] theorem setCodeTable_cycleM (n : Nat) (t : Table Byte) (u : Table (Option Byte)) (s : State) : (s.setCodeTable n t u).cycleM = s.cycleM := rfl
@[simp] theorem setCodeTable_cycleJ (n : Nat) (t : Table Byte) (u : Table (Option Byte)) (s : State) : (s.setCodeTable n t u).cycleJ = s.cycleJ := rfl
@[simp] theorem setCodeTable_result (n : Nat) (t : Table Byte) (u : Table (Option Byte)) (s : State) : (s.setCodeTable n t u).result = s.result := rfl
@[simp] theorem setCodeTable_freq (n : Nat) (t : Table Byte) (u : Table (Option Byte)) (s : State) : (s.setCodeTable n t u).freq = s.freq := rfl
@[simp] theorem setCodeTable_symtab (n : Nat) (t : Table Byte) (u : Table (Option Byte)) (s : State) : (s.setCodeTable n t u).symtab = t := rfl
@[simp] theorem setCodeTable_ranktab (n : Nat) (t : Table Byte) (u : Table (Option Byte)) (s : State) : (s.setCodeTable n t u).ranktab = u := rfl
@[simp] theorem setCodeTable_inbuf (n : Nat) (t : Table Byte) (u : Table (Option Byte)) (s : State) : (s.setCodeTable n t u).inbuf = s.inbuf := rfl
@[simp] theorem setCodeTable_outbuf (n : Nat) (t : Table Byte) (u : Table (Option Byte)) (s : State) : (s.setCodeTable n t u).outbuf = s.outbuf := rfl
@[simp] theorem setCodeTable_queue (n : Nat) (t : Table Byte) (u : Table (Option Byte)) (s : State) : (s.setCodeTable n t u).queue = s.queue := rfl
@[simp] theorem setCodeTable_response (n : Nat) (t : Table Byte) (u : Table (Option Byte)) (s : State) : (s.setCodeTable n t u).response = s.response := rfl
@[simp] theorem setCodeTable_resets (n : Nat) (t : Table Byte) (u : Table (Option Byte)) (s : State) : (s.setCodeTable n t u).resets = s.resets := rfl
@[simp] theorem setCodeTable_accepts (n : Nat) (t : Table Byte) (u : Table (Option Byte)) (s : State) : (s.setCodeTable n t u).accepts = s.accepts := rfl

/-! ### setCursor -/

@[simp] theorem setCursor_params (p m j : Nat) (s : State) : (s.setCursor p m j).params = s.params := rfl
@[simp] theorem setCursor_busy (p m j : Nat) (s : State) : (s.setCursor p m j).busy = s.busy := rfl
@[simp] theorem setCursor_done (p m j : Nat) (s : State) : (s.setCursor p m j).done = s.done := rfl
@[simp] theorem setCursor_err (p m j : Nat) (s : State) : (s.setCursor p m j).err = s.err := rfl
@[simp] theorem setCursor_latch (p m j : Nat) (s : State) : (s.setCursor p m j).latch = s.latch := rfl
@[simp] theorem setCursor_turns (p m j : Nat) (s : State) : (s.setCursor p m j).turns = s.turns := rfl
@[simp] theorem setCursor_inLen (p m j : Nat) (s : State) : (s.setCursor p m j).inLen = s.inLen := rfl
@[simp] theorem setCursor_origLen (p m j : Nat) (s : State) : (s.setCursor p m j).origLen = s.origLen := rfl
@[simp] theorem setCursor_outLen (p m j : Nat) (s : State) : (s.setCursor p m j).outLen = s.outLen := rfl
@[simp] theorem setCursor_k (p m j : Nat) (s : State) : (s.setCursor p m j).k = s.k := rfl
@[simp] theorem setCursor_wbase (p m j : Nat) (s : State) : (s.setCursor p m j).wbase = s.wbase := rfl
@[simp] theorem setCursor_wbits (p m j : Nat) (s : State) : (s.setCursor p m j).wbits = s.wbits := rfl
@[simp] theorem setCursor_rbits (p m j : Nat) (s : State) : (s.setCursor p m j).rbits = BitVec.ofNat 32 p := rfl
@[simp] theorem setCursor_cycleM (p m j : Nat) (s : State) : (s.setCursor p m j).cycleM = BitVec.ofNat 5 (min m 31) := rfl
@[simp] theorem setCursor_cycleJ (p m j : Nat) (s : State) : (s.setCursor p m j).cycleJ = BitVec.ofNat 5 (min j 31) := rfl
@[simp] theorem setCursor_result (p m j : Nat) (s : State) : (s.setCursor p m j).result = s.result := rfl
@[simp] theorem setCursor_freq (p m j : Nat) (s : State) : (s.setCursor p m j).freq = s.freq := rfl
@[simp] theorem setCursor_symtab (p m j : Nat) (s : State) : (s.setCursor p m j).symtab = s.symtab := rfl
@[simp] theorem setCursor_ranktab (p m j : Nat) (s : State) : (s.setCursor p m j).ranktab = s.ranktab := rfl
@[simp] theorem setCursor_inbuf (p m j : Nat) (s : State) : (s.setCursor p m j).inbuf = s.inbuf := rfl
@[simp] theorem setCursor_outbuf (p m j : Nat) (s : State) : (s.setCursor p m j).outbuf = s.outbuf := rfl
@[simp] theorem setCursor_queue (p m j : Nat) (s : State) : (s.setCursor p m j).queue = s.queue := rfl
@[simp] theorem setCursor_response (p m j : Nat) (s : State) : (s.setCursor p m j).response = s.response := rfl
@[simp] theorem setCursor_resets (p m j : Nat) (s : State) : (s.setCursor p m j).resets = s.resets := rfl
@[simp] theorem setCursor_accepts (p m j : Nat) (s : State) : (s.setCursor p m j).accepts = s.accepts := rfl

/-! ### putOut -/

@[simp] theorem putOut_params (i : Nat) (ys : List Byte) (s : State) : (s.putOut i ys).params = s.params := rfl
@[simp] theorem putOut_busy (i : Nat) (ys : List Byte) (s : State) : (s.putOut i ys).busy = s.busy := rfl
@[simp] theorem putOut_done (i : Nat) (ys : List Byte) (s : State) : (s.putOut i ys).done = s.done := rfl
@[simp] theorem putOut_err (i : Nat) (ys : List Byte) (s : State) : (s.putOut i ys).err = s.err := rfl
@[simp] theorem putOut_latch (i : Nat) (ys : List Byte) (s : State) : (s.putOut i ys).latch = s.latch := rfl
@[simp] theorem putOut_turns (i : Nat) (ys : List Byte) (s : State) : (s.putOut i ys).turns = s.turns := rfl
@[simp] theorem putOut_inLen (i : Nat) (ys : List Byte) (s : State) : (s.putOut i ys).inLen = s.inLen := rfl
@[simp] theorem putOut_origLen (i : Nat) (ys : List Byte) (s : State) : (s.putOut i ys).origLen = s.origLen := rfl
@[simp] theorem putOut_outLen (i : Nat) (ys : List Byte) (s : State) : (s.putOut i ys).outLen = s.outLen := rfl
@[simp] theorem putOut_k (i : Nat) (ys : List Byte) (s : State) : (s.putOut i ys).k = s.k := rfl
@[simp] theorem putOut_wbase (i : Nat) (ys : List Byte) (s : State) : (s.putOut i ys).wbase = s.wbase := rfl
@[simp] theorem putOut_wbits (i : Nat) (ys : List Byte) (s : State) : (s.putOut i ys).wbits = s.wbits := rfl
@[simp] theorem putOut_rbits (i : Nat) (ys : List Byte) (s : State) : (s.putOut i ys).rbits = s.rbits := rfl
@[simp] theorem putOut_cycleM (i : Nat) (ys : List Byte) (s : State) : (s.putOut i ys).cycleM = s.cycleM := rfl
@[simp] theorem putOut_cycleJ (i : Nat) (ys : List Byte) (s : State) : (s.putOut i ys).cycleJ = s.cycleJ := rfl
@[simp] theorem putOut_result (i : Nat) (ys : List Byte) (s : State) : (s.putOut i ys).result = s.result := rfl
@[simp] theorem putOut_freq (i : Nat) (ys : List Byte) (s : State) : (s.putOut i ys).freq = s.freq := rfl
@[simp] theorem putOut_symtab (i : Nat) (ys : List Byte) (s : State) : (s.putOut i ys).symtab = s.symtab := rfl
@[simp] theorem putOut_ranktab (i : Nat) (ys : List Byte) (s : State) : (s.putOut i ys).ranktab = s.ranktab := rfl
@[simp] theorem putOut_inbuf (i : Nat) (ys : List Byte) (s : State) : (s.putOut i ys).inbuf = s.inbuf := rfl
@[simp] theorem putOut_outbuf (i : Nat) (ys : List Byte) (s : State) : (s.putOut i ys).outbuf = Memory.putBytes s.outbuf i ys := rfl
@[simp] theorem putOut_queue (i : Nat) (ys : List Byte) (s : State) : (s.putOut i ys).queue = s.queue := rfl
@[simp] theorem putOut_response (i : Nat) (ys : List Byte) (s : State) : (s.putOut i ys).response = s.response := rfl
@[simp] theorem putOut_resets (i : Nat) (ys : List Byte) (s : State) : (s.putOut i ys).resets = s.resets := rfl
@[simp] theorem putOut_accepts (i : Nat) (ys : List Byte) (s : State) : (s.putOut i ys).accepts = s.accepts := rfl

/-! ### startWriter -/

@[simp] theorem startWriter_params (n : Nat) (s : State) : (s.startWriter n).params = s.params := rfl
@[simp] theorem startWriter_busy (n : Nat) (s : State) : (s.startWriter n).busy = s.busy := rfl
@[simp] theorem startWriter_done (n : Nat) (s : State) : (s.startWriter n).done = s.done := rfl
@[simp] theorem startWriter_err (n : Nat) (s : State) : (s.startWriter n).err = s.err := rfl
@[simp] theorem startWriter_latch (n : Nat) (s : State) : (s.startWriter n).latch = s.latch := rfl
@[simp] theorem startWriter_turns (n : Nat) (s : State) : (s.startWriter n).turns = s.turns := rfl
@[simp] theorem startWriter_inLen (n : Nat) (s : State) : (s.startWriter n).inLen = s.inLen := rfl
@[simp] theorem startWriter_origLen (n : Nat) (s : State) : (s.startWriter n).origLen = s.origLen := rfl
@[simp] theorem startWriter_outLen (n : Nat) (s : State) : (s.startWriter n).outLen = s.outLen := rfl
@[simp] theorem startWriter_k (n : Nat) (s : State) : (s.startWriter n).k = s.k := rfl
@[simp] theorem startWriter_wbase (n : Nat) (s : State) : (s.startWriter n).wbase = BitVec.ofNat 16 n := rfl
@[simp] theorem startWriter_wbits (n : Nat) (s : State) : (s.startWriter n).wbits = 0 := rfl
@[simp] theorem startWriter_rbits (n : Nat) (s : State) : (s.startWriter n).rbits = s.rbits := rfl
@[simp] theorem startWriter_cycleM (n : Nat) (s : State) : (s.startWriter n).cycleM = s.cycleM := rfl
@[simp] theorem startWriter_cycleJ (n : Nat) (s : State) : (s.startWriter n).cycleJ = s.cycleJ := rfl
@[simp] theorem startWriter_result (n : Nat) (s : State) : (s.startWriter n).result = s.result := rfl
@[simp] theorem startWriter_freq (n : Nat) (s : State) : (s.startWriter n).freq = s.freq := rfl
@[simp] theorem startWriter_symtab (n : Nat) (s : State) : (s.startWriter n).symtab = s.symtab := rfl
@[simp] theorem startWriter_ranktab (n : Nat) (s : State) : (s.startWriter n).ranktab = s.ranktab := rfl
@[simp] theorem startWriter_inbuf (n : Nat) (s : State) : (s.startWriter n).inbuf = s.inbuf := rfl
@[simp] theorem startWriter_outbuf (n : Nat) (s : State) : (s.startWriter n).outbuf = s.outbuf := rfl
@[simp] theorem startWriter_queue (n : Nat) (s : State) : (s.startWriter n).queue = s.queue := rfl
@[simp] theorem startWriter_response (n : Nat) (s : State) : (s.startWriter n).response = s.response := rfl
@[simp] theorem startWriter_resets (n : Nat) (s : State) : (s.startWriter n).resets = s.resets := rfl
@[simp] theorem startWriter_accepts (n : Nat) (s : State) : (s.startWriter n).accepts = s.accepts := rfl

/-! ### accept -/

@[simp] theorem accept_params (w : Word) (s : State) : (accept w s).params = s.params := rfl
@[simp] theorem accept_busy (w : Word) (s : State) : (accept w s).busy = true := rfl
@[simp] theorem accept_done (w : Word) (s : State) : (accept w s).done = false := rfl
@[simp] theorem accept_err (w : Word) (s : State) : (accept w s).err = s.err := rfl
@[simp] theorem accept_latch (w : Word) (s : State) : (accept w s).latch = w := rfl
@[simp] theorem accept_turns (w : Word) (s : State) : (accept w s).turns = Config.busyTurns s.accepts := rfl
@[simp] theorem accept_inLen (w : Word) (s : State) : (accept w s).inLen = s.inLen := rfl
@[simp] theorem accept_origLen (w : Word) (s : State) : (accept w s).origLen = s.origLen := rfl
@[simp] theorem accept_outLen (w : Word) (s : State) : (accept w s).outLen = s.outLen := rfl
@[simp] theorem accept_k (w : Word) (s : State) : (accept w s).k = s.k := rfl
@[simp] theorem accept_wbase (w : Word) (s : State) : (accept w s).wbase = s.wbase := rfl
@[simp] theorem accept_wbits (w : Word) (s : State) : (accept w s).wbits = s.wbits := rfl
@[simp] theorem accept_rbits (w : Word) (s : State) : (accept w s).rbits = s.rbits := rfl
@[simp] theorem accept_cycleM (w : Word) (s : State) : (accept w s).cycleM = s.cycleM := rfl
@[simp] theorem accept_cycleJ (w : Word) (s : State) : (accept w s).cycleJ = s.cycleJ := rfl
@[simp] theorem accept_result (w : Word) (s : State) : (accept w s).result = s.result := rfl
@[simp] theorem accept_freq (w : Word) (s : State) : (accept w s).freq = s.freq := rfl
@[simp] theorem accept_symtab (w : Word) (s : State) : (accept w s).symtab = s.symtab := rfl
@[simp] theorem accept_ranktab (w : Word) (s : State) : (accept w s).ranktab = s.ranktab := rfl
@[simp] theorem accept_inbuf (w : Word) (s : State) : (accept w s).inbuf = s.inbuf := rfl
@[simp] theorem accept_outbuf (w : Word) (s : State) : (accept w s).outbuf = s.outbuf := rfl
@[simp] theorem accept_queue (w : Word) (s : State) : (accept w s).queue = s.queue := rfl
@[simp] theorem accept_response (w : Word) (s : State) : (accept w s).response = s.response := rfl
@[simp] theorem accept_resets (w : Word) (s : State) : (accept w s).resets = s.resets := rfl
@[simp] theorem accept_accepts (w : Word) (s : State) : (accept w s).accepts = s.accepts + 1 := rfl

/-! ### accepted -/

@[simp] theorem accepted_params (w : Word) (s : State) : (s.accepted w).params = s.params := rfl
@[simp] theorem accepted_busy (w : Word) (s : State) : (s.accepted w).busy = true := rfl
@[simp] theorem accepted_done (w : Word) (s : State) : (s.accepted w).done = false := rfl
@[simp] theorem accepted_err (w : Word) (s : State) : (s.accepted w).err = s.err := rfl
@[simp] theorem accepted_latch (w : Word) (s : State) : (s.accepted w).latch = w := rfl
@[simp] theorem accepted_turns (w : Word) (s : State) : (s.accepted w).turns = 0 := rfl
@[simp] theorem accepted_inLen (w : Word) (s : State) : (s.accepted w).inLen = s.inLen := rfl
@[simp] theorem accepted_origLen (w : Word) (s : State) : (s.accepted w).origLen = s.origLen := rfl
@[simp] theorem accepted_outLen (w : Word) (s : State) : (s.accepted w).outLen = s.outLen := rfl
@[simp] theorem accepted_k (w : Word) (s : State) : (s.accepted w).k = s.k := rfl
@[simp] theorem accepted_wbase (w : Word) (s : State) : (s.accepted w).wbase = s.wbase := rfl
@[simp] theorem accepted_wbits (w : Word) (s : State) : (s.accepted w).wbits = s.wbits := rfl
@[simp] theorem accepted_rbits (w : Word) (s : State) : (s.accepted w).rbits = s.rbits := rfl
@[simp] theorem accepted_cycleM (w : Word) (s : State) : (s.accepted w).cycleM = s.cycleM := rfl
@[simp] theorem accepted_cycleJ (w : Word) (s : State) : (s.accepted w).cycleJ = s.cycleJ := rfl
@[simp] theorem accepted_result (w : Word) (s : State) : (s.accepted w).result = s.result := rfl
@[simp] theorem accepted_freq (w : Word) (s : State) : (s.accepted w).freq = s.freq := rfl
@[simp] theorem accepted_symtab (w : Word) (s : State) : (s.accepted w).symtab = s.symtab := rfl
@[simp] theorem accepted_ranktab (w : Word) (s : State) : (s.accepted w).ranktab = s.ranktab := rfl
@[simp] theorem accepted_inbuf (w : Word) (s : State) : (s.accepted w).inbuf = s.inbuf := rfl
@[simp] theorem accepted_outbuf (w : Word) (s : State) : (s.accepted w).outbuf = s.outbuf := rfl
@[simp] theorem accepted_queue (w : Word) (s : State) : (s.accepted w).queue = s.queue := rfl
@[simp] theorem accepted_response (w : Word) (s : State) : (s.accepted w).response = s.response := rfl
@[simp] theorem accepted_resets (w : Word) (s : State) : (s.accepted w).resets = s.resets := rfl
@[simp] theorem accepted_accepts (w : Word) (s : State) : (s.accepted w).accepts = s.accepts := rfl

end Sys2Proof.Machine
end

