-- ==== Sys2Proof/Laws/Buffers.lean ====
section
/-! SUPPORT. The laws of the buffers: read after write, the canonical form and the capacity, which every operation keeps. -/

namespace Sys2Proof.Machine

/-! ### Read after write -/

theorem cell_put (m : Memory) (i j : Nat) (y : Byte) :
    Memory.cell (Memory.put m i y) j = if j = i then some y else Memory.cell m j := by
  induction m with
  | nil => simp [Memory.put, Memory.cell]
  | cons c m ih =>
    obtain ⟨a, x⟩ := c
    by_cases h1 : i < a
    · simp [Memory.put, Memory.cell, h1]
    · by_cases h2 : i = a
      · subst h2; by_cases hj : j = i <;> simp [Memory.put, Memory.cell, hj]
      · by_cases hj : j = a
        · subst hj; simp [Memory.put, Memory.cell, h1, h2, Ne.symm h2]
        · simp [Memory.put, Memory.cell, h1, h2, hj, ih]

theorem cell_putBytes (ys : List Byte) : ∀ (m : Memory) (i j : Nat),
    Memory.cell (Memory.putBytes m i ys) j =
      if i ≤ j ∧ j < i + ys.length then ys[j - i]? else Memory.cell m j := by
  induction ys with
  | nil => intro m i j; simp [Memory.putBytes]
  | cons y ys ih =>
    intro m i j
    rw [Memory.putBytes, ih, cell_put]
    by_cases hj : j = i
    · subst hj; simp
    · by_cases h : i + 1 ≤ j ∧ j < i + 1 + ys.length
      · have e : j - i = (j - (i + 1)) + 1 := by omega
        have h' : i ≤ j ∧ j < i + (ys.length + 1) := by omega
        simp [h, h', e]
      · have h' : ¬(i ≤ j ∧ j < i + (ys.length + 1)) := by omega
        rw [if_neg h, if_neg hj, List.length_cons, if_neg h']

/-! ### The canonical form -/

theorem fst_mem_put {m : Memory} {i : Nat} {y : Byte} {c : Host.Cell} (h : c ∈ Memory.put m i y) : c.1 = i ∨ c ∈ m := by
  induction m with
  | nil => simp [Memory.put] at h; simp [h]
  | cons d m ih =>
    obtain ⟨a, x⟩ := d
    by_cases h1 : i < a
    · simp only [Memory.put, h1, if_true, List.mem_cons] at h
      rcases h with rfl | rfl | h <;> simp [*]
    · by_cases h2 : i = a
      · subst h2
        rw [Memory.put, if_neg h1, if_pos rfl] at h
        rcases List.mem_cons.mp h with rfl | h
        · exact .inl rfl
        · exact .inr (List.mem_cons_of_mem _ h)
      · simp only [Memory.put, h1, if_false, h2, List.mem_cons] at h
        rcases h with rfl | h
        · exact .inr List.mem_cons_self
        · exact (ih h).imp id (List.mem_cons_of_mem _)

theorem put_wf {m : Memory} (i : Nat) (y : Byte) (h : Memory.wf m) : Memory.wf (Memory.put m i y) := by
  induction m with
  | nil => simp [Memory.put, Memory.wf]
  | cons d m ih =>
    obtain ⟨a, x⟩ := d
    obtain ⟨hd, hm⟩ := List.pairwise_cons.mp h
    by_cases h1 : i < a
    · simp only [Memory.put, h1, if_true]
      refine List.pairwise_cons.mpr ⟨fun c hc => ?_, h⟩
      rcases List.mem_cons.mp hc with rfl | hc
      · exact h1
      · exact lt_trans h1 (hd c hc)
    · by_cases h2 : i = a
      · subst h2
        simp only [Memory.put, h1, if_false, if_true]
        exact List.pairwise_cons.mpr ⟨hd, hm⟩
      · simp only [Memory.put, h1, if_false, h2]
        refine List.pairwise_cons.mpr ⟨fun c hc => ?_, ih hm⟩
        rcases fst_mem_put hc with e | hc
        · show a < c.1
          omega
        · exact hd c hc

theorem put_below {m : Memory} {cap i : Nat} (y : Byte) (h : Memory.below m cap) (hi : i < cap) :
    Memory.below (Memory.put m i y) cap := fun c hc => by
  rcases fst_mem_put hc with e | hc
  · omega
  · exact h c hc

theorem putBytes_wf (ys : List Byte) : ∀ {m : Memory} (i : Nat), Memory.wf m → Memory.wf (Memory.putBytes m i ys) := by
  induction ys with
  | nil => intro m i h; exact h
  | cons y ys ih => intro m i h; exact ih _ (put_wf i y h)

theorem putBytes_below (ys : List Byte) : ∀ {m : Memory} {cap i : Nat}, Memory.below m cap → i + ys.length ≤ cap →
    Memory.below (Memory.putBytes m i ys) cap := by
  induction ys with
  | nil => intro m cap i h _; exact h
  | cons y ys ih =>
    intro m cap i h hi
    rw [List.length_cons] at hi
    exact ih (put_below y h (by omega)) (by omega)

/-- In canonical form a buffer that reads the same everywhere is the same data. -/
theorem wf_ext {m n : Memory} (hm : Memory.wf m) (hn : Memory.wf n) (h : ∀ i, Memory.cell m i = Memory.cell n i) : m = n := by
  have none_of_lt : ∀ {l : Memory} {i : Nat}, (∀ c ∈ l, i < c.1) → Memory.cell l i = none := by
    intro l
    induction l with
    | nil => intro i _; rfl
    | cons c l ih =>
      intro i hl
      obtain ⟨a, x⟩ := c
      have h1 : i ≠ a := (hl (a, x) List.mem_cons_self).ne
      rw [Memory.cell, if_neg h1]
      exact ih fun c hc => hl c (List.mem_cons_of_mem _ hc)
  induction m generalizing n with
  | nil =>
    cases n with
    | nil => rfl
    | cons c n => obtain ⟨a, x⟩ := c; have := h a; simp [Memory.cell] at this
  | cons c m ih =>
    obtain ⟨a, x⟩ := c
    obtain ⟨hc, hm'⟩ := List.pairwise_cons.mp hm
    cases n with
    | nil => have := h a; simp [Memory.cell] at this
    | cons d n =>
      obtain ⟨b, z⟩ := d
      obtain ⟨hd, hn'⟩ := List.pairwise_cons.mp hn
      have hab : a = b := by
        rcases Nat.lt_trichotomy a b with hlt | he | hgt
        · have h1 := h a
          rw [none_of_lt (l := (b, z) :: n)] at h1
          · simp [Memory.cell] at h1
          · intro e he
            rcases List.mem_cons.mp he with rfl | he
            · exact hlt
            · exact lt_trans hlt (hd e he)
        · exact he
        · have h1 := h b
          rw [none_of_lt (l := (a, x) :: m)] at h1
          · simp [Memory.cell] at h1
          · intro e he
            rcases List.mem_cons.mp he with rfl | he
            · exact hgt
            · exact lt_trans hgt (hc e he)
      subst hab
      have hxz : x = z := by have := h a; simpa [Memory.cell] using this
      subst hxz
      congr 1
      refine ih hm' hn' fun i => ?_
      by_cases hi : i = a
      · subst hi
        rw [none_of_lt (fun c hc' => hc c hc'), none_of_lt (fun c hc' => hd c hc')]
      · have := h i
        simpa [Memory.cell, hi] using this

/-! ### Bytes of INBUF and OUTBUF -/

theorem inByte_congr {s t : State} (h : t.inbuf = s.inbuf) (hr : t.resets = s.resets) (i : Nat) : t.inByte i = s.inByte i := by
  simp only [State.inByte, h, hr]

theorem outByte_congr {s t : State} (h : t.outbuf = s.outbuf) (hr : t.resets = s.resets) (i : Nat) :
    t.outByte i = s.outByte i := by
  simp only [State.outByte, h, hr]

theorem outBitAt_congr {s t : State} {b i : Nat} (h : t.outByte (b + i / 8) = s.outByte (b + i / 8)) :
    t.outBitAt b i = s.outBitAt b i := by
  simp only [State.outBitAt, h]

theorem inBytes_congr {s t : State} {i n : Nat} (h : ∀ d, d < n → t.inByte (i + d) = s.inByte (i + d)) :
    t.inBytes i n = s.inBytes i n :=
  List.map_congr_left fun d hd => h d (List.mem_range.mp hd)

@[simp] theorem length_inBytes (s : State) (i n : Nat) : (s.inBytes i n).length = n := by simp [State.inBytes]

theorem getElem?_inBytes {s : State} {i n d : Nat} (h : d < n) : (s.inBytes i n)[d]? = some (s.inByte (i + d)) := by
  simp [State.inBytes, h]

@[simp] theorem length_input (s : State) : s.input.length = s.inLen.toNat := length_inBytes ..

/-- What OUTBUF holds after bytes were written to it. -/
theorem outByte_putOut (s : State) (i j : Nat) (ys : List Byte) :
    (s.putOut i ys).outByte j = if i ≤ j ∧ j < i + ys.length then (ys[j - i]?).getD 0 else s.outByte j := by
  simp only [State.outByte, putOut_outbuf, cell_putBytes]
  by_cases h : i ≤ j ∧ j < i + ys.length
  · have hl : j - i < ys.length := by omega
    rw [if_pos h, if_pos h, List.getElem?_eq_getElem hl]
    rfl
  · rw [if_neg h, if_neg h]
    rfl

end Sys2Proof.Machine
end

