-- ==== Sys2Proof/Laws/Bus.lean ====
section
/-! SUPPORT. What a turn of the host does (20_memory.md R61 to R72): the address map, target by target, and one lemma for each
kind of transaction. -/

namespace Sys2Proof.Machine

/-! ### Whose turn it is -/

theorem engineTurn_iff {s : State} : engineTurn s = true ↔ s.busy = true ∧ s.turns = 0 := by simp [engineTurn]

/-- A step that is not the engine's is the host's (R61). -/
theorem step_host {s : State} (h : ¬(s.busy = true ∧ s.turns = 0)) : step s = .next (hostTurn s) := by
  rw [step, if_neg (by rwa [engineTurn_iff])]

/-- Every command ends in a completion (R134, R138). -/
theorem exec_next (i : Instr) (s : State) : ∃ r : Run, exec i s = .next (complete r.err r.state) := by
  cases i <;> exact ⟨_, rfl⟩

/-- A step that is the engine's completes the latched command (R133). -/
theorem step_engine {s : State} (h : s.busy = true ∧ s.turns = 0) :
    (∃ i, decode s.latch = .command i ∧ step s = exec i s) ∨
    ((∀ i, decode s.latch ≠ .command i) ∧ step s = illegalCommand s) := by
  rw [step, if_pos (engineTurn_iff.mpr h)]
  cases h : decode s.latch with
  | command i => exact .inl ⟨i, rfl, rfl⟩
  | reservedOp => exact .inr ⟨fun i hi => Decoded.noConfusion hi, rfl⟩
  | reservedBits => exact .inr ⟨fun i hi => Decoded.noConfusion hi, rfl⟩

/-- A run of one step more. -/
theorem run_succ {s s' : State} (n : Nat) (h : step s = .next s') : core.run (n + 1) s = core.run n s' := by
  have h' : core.step s = .next s' := h
  simp only [Host.Core.run, h']

theorem hostTurn_cons {s : State} {op : HostOp} {rest : List HostOp} (h : s.queue = op :: rest) :
    hostTurn s = perform op { s with queue := rest, turns := s.turns - 1 } := by simp only [hostTurn, h]

theorem hostTurn_nil {s : State} (h : s.queue = []) : hostTurn s = { s with turns := s.turns - 1 } := by simp only [hostTurn, h]

/-! ### The address map (R62 to R65) -/

/-- An address below 2^18 is its own number (R60). -/
theorem toNat_address {n : Nat} (h : n < 2 ^ 18) : (BitVec.ofNat 18 n).toNat = n := by
  rw [BitVec.toNat_ofNat, Nat.mod_eq_of_lt h]

/-- The entry that a word of a table window names: the inverse of the window's address. -/
theorem entry_of_address (b : Nat) (x : Byte) : BitVec.ofNat 8 ((b + 4 * x.toNat - b) / 4) = x := by
  rw [show (b + 4 * x.toNat - b) / 4 = x.toNat by omega, BitVec.ofNat_toNat, BitVec.setWidth_eq]

theorem target_inbuf {p : Config.Params} {n : Nat} (hp : p.legal) (h4 : n % 4 = 0) (h : n < p.inCap) :
    target p (BitVec.ofNat 18 (0x10000 + n)) = some (.inbuf n) := by
  simp (disch := omega) only [target, toNat_address, if_pos, if_neg, Nat.add_sub_cancel_left]

theorem target_outbuf {p : Config.Params} {n : Nat} (hp : p.legal) (h4 : n % 4 = 0) (h : n < p.outCap) :
    target p (BitVec.ofNat 18 (0x20000 + n)) = some (.outbuf n) := by
  simp (disch := omega) only [target, toNat_address, if_pos, if_neg, Nat.add_sub_cancel_left]

theorem target_freq (p : Config.Params) (x : Byte) : target p (BitVec.ofNat 18 (0x400 + 4 * x.toNat)) = some (.freq x) := by
  have hx := x.isLt
  simp (disch := omega) only [target, toNat_address, if_pos, if_neg, entry_of_address]

theorem target_symtab (p : Config.Params) (x : Byte) : target p (BitVec.ofNat 18 (0x800 + 4 * x.toNat)) = some (.symtab x) := by
  have hx := x.isLt
  simp (disch := omega) only [target, toNat_address, if_pos, if_neg, entry_of_address]

theorem target_ranktab (p : Config.Params) (x : Byte) : target p (BitVec.ofNat 18 (0xC00 + 4 * x.toNat)) = some (.ranktab x) := by
  have hx := x.isLt
  simp (disch := omega) only [target, toNat_address, if_pos, if_neg, entry_of_address]

/-! ### The buffers' words (R63, R68) -/

theorem length_bytesOfWord (w : Word) : (bytesOfWord w).length = 4 := rfl

theorem getElem?_bytesOfWord (w : Word) {d : Nat} (h : d < 4) : (bytesOfWord w)[d]? = some (w.extractLsb' (8 * d) 8) := by
  interval_cases d <;> rfl

theorem inByte_putWord (s : State) (i j : Nat) (w : Word) :
    ({ s with inbuf := Memory.putBytes s.inbuf i (bytesOfWord w) } : State).inByte j =
      if i ≤ j ∧ j < i + 4 then w.extractLsb' (8 * (j - i)) 8 else s.inByte j := by
  have e := cell_putBytes (bytesOfWord w) s.inbuf i j
  by_cases h : i ≤ j ∧ j < i + 4
  · rw [if_pos (show i ≤ j ∧ j < i + (bytesOfWord w).length from h), getElem?_bytesOfWord w (by omega)] at e
    rw [if_pos h, State.inByte, e]; rfl
  · rw [if_neg (show ¬(i ≤ j ∧ j < i + (bytesOfWord w).length) from h)] at e
    rw [if_neg h, State.inByte, e]; rfl

theorem outByte_putWord (s : State) (i j : Nat) (w : Word) :
    ({ s with outbuf := Memory.putBytes s.outbuf i (bytesOfWord w) } : State).outByte j =
      if i ≤ j ∧ j < i + 4 then w.extractLsb' (8 * (j - i)) 8 else s.outByte j := by
  have e := cell_putBytes (bytesOfWord w) s.outbuf i j
  by_cases h : i ≤ j ∧ j < i + 4
  · rw [if_pos (show i ≤ j ∧ j < i + (bytesOfWord w).length from h), getElem?_bytesOfWord w (by omega)] at e
    rw [if_pos h, State.outByte, e]; rfl
  · rw [if_neg (show ¬(i ≤ j ∧ j < i + (bytesOfWord w).length) from h)] at e
    rw [if_neg h, State.outByte, e]; rfl

/-- A word's bytes, put together again, are the word. -/
theorem extractLsb'_wordOfBytes (b0 b1 b2 b3 : Byte) :
    (wordOfBytes b0 b1 b2 b3).extractLsb' 0 8 = b0 ∧ (wordOfBytes b0 b1 b2 b3).extractLsb' 8 8 = b1 ∧
    (wordOfBytes b0 b1 b2 b3).extractLsb' 16 8 = b2 ∧ (wordOfBytes b0 b1 b2 b3).extractLsb' 24 8 = b3 := by
  refine ⟨?_, ?_, ?_, ?_⟩ <;>
  · ext i hi
    simp only [wordOfBytes, BitVec.getElem_extractLsb', BitVec.getLsbD_append]
    interval_cases i <;> simp

end Sys2Proof.Machine
end

