-- ==== Sys2Proof/Laws/Canon.lean ====
section
/-! SUPPORT. The canonical enumeration and its inverse (43_code_builder.md R181, R182, R186). -/

namespace Sys2Proof.Machine

theorem base_succ {L : Nat} (h : 2 ≤ L) : base (L + 1) = base L + (L - 1) := by
  obtain ⟨n, rfl⟩ := Nat.exists_eq_add_of_le' h
  obtain ⟨c, hc⟩ := even_iff_two_dvd.mp (Nat.even_mul_succ_self n)
  simp only [base, show n + 2 + 1 - 2 = n + 1 by omega, show n + 2 + 1 - 1 = n + 2 by omega,
    show n + 2 - 2 = n by omega, show n + 2 - 1 = n + 1 by omega,
    show (n + 1) * (n + 2) = n * (n + 1) + 2 * (n + 1) by ring, hc]
  omega

theorem base_mono {K L : Nat} (h2 : 2 ≤ K) (h : K ≤ L) : base K ≤ base L := by
  induction L, h using Nat.le_induction with
  | base => exact le_rfl
  | succ L hL ih => rw [base_succ (le_trans h2 hL)]; omega

theorem lengthFrom_spec (r : Nat) : ∀ fuel L, 2 ≤ L → base L ≤ r → r < base (L + fuel + 1) →
    L ≤ lengthFrom fuel L r ∧ base (lengthFrom fuel L r) ≤ r ∧ r < base (lengthFrom fuel L r + 1) := by
  intro fuel
  induction fuel with
  | zero => intro L _ h1 h2; exact ⟨le_rfl, h1, h2⟩
  | succ fuel ih =>
    intro L hL h1 h2
    by_cases h : r < base (L + 1)
    · simp only [lengthFrom, h, if_true]; exact ⟨le_rfl, h1, trivial⟩
    · simp only [lengthFrom, h, if_false]
      obtain ⟨i1, i2, i3⟩ := ih (L + 1) (by omega) (by omega) (by rwa [show L + 1 + fuel + 1 = L + (fuel + 1) + 1 by omega])
      exact ⟨by omega, i2, i3⟩

/-- The codeword length of a rank (R181). -/
theorem codeLength_spec (r : Nat) : 2 ≤ codeLength r ∧ base (codeLength r) ≤ r ∧ r < base (codeLength r + 1) := by
  refine lengthFrom_spec r (r + 1) 2 le_rfl (by simp [base]) ?_
  have : ∀ n, n < base (n + 4) := by
    intro n
    induction n with
    | zero => decide
    | succ n ih => have := base_succ (L := n + 4) (by omega); rw [show n + 1 + 4 = n + 4 + 1 by omega, this]; omega
  have h := this r
  rwa [show 2 + (r + 1) + 1 = r + 4 by omega]

theorem codeLength_unique {r L : Nat} (h2 : 2 ≤ L) (h1 : base L ≤ r) (h3 : r < base (L + 1)) : L = codeLength r := by
  obtain ⟨k2, k1, k3⟩ := codeLength_spec r
  rcases Nat.lt_trichotomy L (codeLength r) with h | h | h
  · have := base_mono (K := L + 1) (by omega) h; omega
  · exact h
  · have := base_mono (K := codeLength r + 1) (by omega) h; omega

/-- The cycle of a rank: both counts are at least 1 and sum to the length (R181). -/
theorem cycleOf_spec (r : Nat) :
    1 ≤ (cycleOf r).1 ∧ 1 ≤ (cycleOf r).2 ∧ (cycleOf r).1 + (cycleOf r).2 = codeLength r ∧
      base (codeLength r) + ((cycleOf r).2 - 1) = r := by
  obtain ⟨h2, h1, h3⟩ := codeLength_spec r
  rw [base_succ h2] at h3
  simp only [cycleOf]
  omega

theorem rankOfCycle_pos {m j : Nat} (hm : 1 ≤ m) (hj : 1 ≤ j) : rankOfCycle m j = some (base (m + j) + (j - 1)) := by
  rw [rankOfCycle, if_neg (by omega)]

theorem rankOfCycle_eq_none {m j : Nat} : rankOfCycle m j = none ↔ m < 1 ∨ j < 1 := by
  simp only [rankOfCycle, ite_eq_left_iff, reduceCtorEq, imp_false, not_not]

/-- g inverts f (R182). -/
theorem rankOfCycle_cycleOf (r : Nat) : rankOfCycle (cycleOf r).1 (cycleOf r).2 = some r := by
  obtain ⟨h1, h2, h3, h4⟩ := cycleOf_spec r
  rw [rankOfCycle_pos h1 h2, h3, h4]

/-- f inverts g (R182). -/
theorem cycleOf_of_rankOfCycle {m j r : Nat} (h : rankOfCycle m j = some r) : cycleOf r = (m, j) := by
  have hn : ¬(m < 1 ∨ j < 1) := fun hn => by rw [rankOfCycle_eq_none.mpr hn] at h; cases h
  rw [rankOfCycle, if_neg hn, Option.some.injEq] at h
  have hL : m + j = codeLength r := by
    refine codeLength_unique (by omega) (by omega) ?_
    rw [base_succ (by omega)]; omega
  simp only [cycleOf, ← hL, Prod.mk.injEq]
  omega

theorem cycleOf_injective {q r : Nat} (h : cycleOf q = cycleOf r) : q = r := by
  have := rankOfCycle_cycleOf q
  rw [h, rankOfCycle_cycleOf] at this
  exact (Option.some.inj this).symm

/-- Code lengths do not decrease with the rank (R186). -/
theorem codeLength_mono {q r : Nat} (h : q ≤ r) : codeLength q ≤ codeLength r := by
  obtain ⟨_, h1, _⟩ := codeLength_spec q
  obtain ⟨_, _, h3⟩ := codeLength_spec r
  by_contra hc
  have := base_mono (K := codeLength r + 1) (L := codeLength q) (by omega) (by omega)
  omega

/-- A rank of one byte has a codeword of at most 24 bits (R186). -/
theorem codeLength_le_24 {r : Nat} (h : r ≤ 255) : codeLength r ≤ 24 := by
  refine le_trans (codeLength_mono h) ?_
  rw [← codeLength_unique (r := 255) (L := 24) (by decide) (by decide) (by decide)]

@[simp] theorem length_cycleBits (m j : Nat) : (cycleBits m j).length = m + j := by simp [cycleBits]

end Sys2Proof.Machine
end

