-- ==== Sys2Proof/Laws/Tables.lean ====
section
/-! SUPPORT. The laws of the 256-entry tables and of the list of symbols. -/

namespace Sys2Proof.Machine

theorem entry_setEntry {α : Type} (t : Table α) (i j : Byte) (x : α) :
    Table.entry (Table.setEntry t i x) j = if i = j then x else Table.entry t j := by
  simp only [Table.entry, Table.setEntry, Vector.getElem_set, BitVec.toNat_inj]

@[simp] theorem entry_setEntry_self {α : Type} (t : Table α) (i : Byte) (x : α) :
    Table.entry (Table.setEntry t i x) i = x := by simp [entry_setEntry]

@[simp] theorem entry_replicate {α : Type} (x : α) (i : Byte) :
    Table.entry (Vector.replicate 256 x : Table α) i = x := by simp [Table.entry]

theorem table_ext {α : Type} {t u : Table α} (h : ∀ i, Table.entry t i = Table.entry u i) : t = u := by
  refine Vector.ext fun i hi => ?_
  have := h (BitVec.ofNat 8 i)
  simpa [Table.entry, Nat.mod_eq_of_lt hi] using this

@[simp] theorem mem_symbols (x : Byte) : x ∈ symbols :=
  List.mem_map.mpr ⟨x.toNat, List.mem_range.mpr x.isLt, by simp⟩

@[simp] theorem length_symbols : symbols.length = 256 := by simp [symbols]

theorem nodup_symbols : symbols.Nodup := by
  refine (List.nodup_map_iff_inj_on List.nodup_range).mpr fun a ha b hb h => ?_
  have h' := congrArg BitVec.toNat h
  simpa [Nat.mod_eq_of_lt (List.mem_range.mp ha), Nat.mod_eq_of_lt (List.mem_range.mp hb)] using h'

/-- What a pass of writes leaves at an entry some write names, when the writes to it agree. -/
theorem entry_foldl_setEntry {α β : Type} (key : β → Byte) (val : β → α) (i : Byte) (v : α) :
    ∀ (l : List β) (t : Table α), (∀ x ∈ l, key x = i → val x = v) → (∃ x ∈ l, key x = i) →
      Table.entry (l.foldl (fun u x => Table.setEntry u (key x) (val x)) t) i = v := by
  intro l
  induction l with
  | nil => rintro t - ⟨x, hx, -⟩; cases hx
  | cons a l ih =>
    intro t hv hex
    by_cases hl : ∃ x ∈ l, key x = i
    · exact ih _ (fun x hx => hv x (List.mem_cons_of_mem _ hx)) hl
    · have ha : key a = i := by
        obtain ⟨x, hx, hk⟩ := hex
        rcases List.mem_cons.mp hx with rfl | hx
        · exact hk
        · exact absurd ⟨x, hx, hk⟩ hl
      have keep : ∀ (l' : List β) (t' : Table α), (¬∃ x ∈ l', key x = i) →
          Table.entry (l'.foldl (fun u x => Table.setEntry u (key x) (val x)) t') i = Table.entry t' i := by
        intro l'
        induction l' with
        | nil => intro t' _; rfl
        | cons b l' ih' =>
          intro t' hn
          simp only [List.mem_cons, exists_eq_or_imp, not_or] at hn
          simp only [List.foldl_cons]
          rw [ih' _ hn.2, entry_setEntry, if_neg hn.1]
      simp only [List.foldl_cons]
      rw [keep l _ hl, entry_setEntry, if_pos ha, hv a List.mem_cons_self ha]

/-- A pass of writes leaves alone an entry no write names. -/
theorem entry_foldl_setEntry_of_not {α β : Type} (key : β → Byte) (val : β → α) (i : Byte) :
    ∀ (l : List β) (t : Table α), (∀ x ∈ l, key x ≠ i) →
      Table.entry (l.foldl (fun u x => Table.setEntry u (key x) (val x)) t) i = Table.entry t i := by
  intro l
  induction l with
  | nil => intro t _; rfl
  | cons b l ih =>
    intro t hn
    simp only [List.foldl_cons]
    rw [ih _ fun x hx => hn x (List.mem_cons_of_mem _ hx), entry_setEntry, if_neg (hn b List.mem_cons_self)]

end Sys2Proof.Machine
end

