-- ==== Sys2Proof/Laws/Counts.lean ====
section
/-! SUPPORT. Frequency counting and the rank order (42_frequency.md R170, 43_code_builder.md R184, R185). -/

namespace Sys2Proof.Machine

/-! ### FREQ -/

theorem toNat_entry_foldl_countByte (x : Byte) : ∀ (l : List Byte) (t : Table Word),
    (Table.entry t x).toNat + l.length < 2 ^ 32 →
      (Table.entry (l.foldl countByte t) x).toNat = (Table.entry t x).toNat + l.count x := by
  intro l
  induction l with
  | nil => intro t _; simp
  | cons y l ih =>
    intro t h
    rw [List.length_cons] at h
    have e : (Table.entry (countByte t y) x).toNat = (Table.entry t x).toNat + if y = x then 1 else 0 := by
      rw [countByte, entry_setEntry]
      by_cases hy : y = x
      · subst hy
        rw [if_pos rfl, if_pos rfl, BitVec.toNat_add]
        exact Nat.mod_eq_of_lt (by change (Table.entry t y).toNat + 1 < _; omega)
      · rw [if_neg hy, if_neg hy]; rfl
    rw [List.foldl_cons, ih, e, List.count_cons]
    · simp only [beq_iff_eq]; omega
    · rw [e]; split <;> omega

/-- FREQ[x] is the number of occurrences of x in the input (R170). -/
theorem toNat_entry_counts {l : List Byte} (h : l.length < 2 ^ 32) (x : Byte) :
    (Table.entry (counts l) x).toNat = l.count x := by
  have := toNat_entry_foldl_countByte x l (Vector.replicate 256 0) (by simpa using h)
  simpa [counts] using this

theorem sum_map_ite_eq (y : Byte) (ss : List Byte) : (ss.map (fun x => if y = x then 1 else 0)).sum = ss.count y := by
  induction ss with
  | nil => rfl
  | cons a ss ih =>
    rw [List.map_cons, List.sum_cons, ih, List.count_cons, Nat.add_comm]
    simp only [beq_iff_eq, @eq_comm _ a y]

/-- The counts of a text over all symbols sum to its length (R171). -/
theorem sum_map_count {ss : List Byte} (hnd : ss.Nodup) (hmem : ∀ x, x ∈ ss) (l : List Byte) :
    (ss.map (fun x => l.count x)).sum = l.length := by
  induction l with
  | nil => simp
  | cons y l ih =>
    have e : ss.map (fun x => (y :: l).count x) = ss.map (fun x => l.count x + if y = x then 1 else 0) :=
      List.map_congr_left fun x _ => by rw [List.count_cons]; simp only [beq_iff_eq]
    rw [e, List.sum_map_add, ih, sum_map_ite_eq, List.count_eq_one_of_mem hnd (hmem y), List.length_cons]

theorem sum_count_symbols (l : List Byte) : (symbols.map (fun x => l.count x)).sum = l.length :=
  sum_map_count nodup_symbols mem_symbols l

/-! ### The rank order -/

theorem countP_lt_countP {α : Type} {l : List α} {p q : α → Bool} (h : ∀ a ∈ l, p a = true → q a = true)
    {x : α} (hx : x ∈ l) (hp : p x = false) (hq : q x = true) : l.countP p < l.countP q := by
  induction l with
  | nil => cases hx
  | cons a l ih =>
    have hle : l.countP p ≤ l.countP q := List.countP_mono_left fun a ha => h a (List.mem_cons_of_mem _ ha)
    rcases List.mem_cons.mp hx with rfl | hx
    · rw [List.countP_cons_of_neg (by simp [hp]), List.countP_cons_of_pos hq]; omega
    · have := ih (fun a ha => h a (List.mem_cons_of_mem _ ha)) hx
      have ha := h a List.mem_cons_self
      simp only [List.countP_cons]
      cases hpa : p a <;> cases hqa : q a <;> simp_all

theorem present_iff {t : Table Word} {x : Byte} : present t x = true ↔ Table.entry t x ≠ 0 := by simp [present]

theorem before_iff {t : Table Word} {y x : Byte} : before t y x = true ↔
    Table.entry t x < Table.entry t y ∨ (Table.entry t y = Table.entry t x ∧ y < x) := by simp [before]

theorem before_irrefl (t : Table Word) (x : Byte) : before t x x = false := by
  rw [Bool.eq_false_iff, Ne, before_iff]
  simp

theorem before_trans {t : Table Word} {x y z : Byte} (h1 : before t x y = true) (h2 : before t y z = true) :
    before t x z = true := by
  rw [before_iff] at *
  simp only [BitVec.lt_def, ← BitVec.toNat_inj] at *
  omega

theorem before_total (t : Table Word) {x y : Byte} (h : x ≠ y) : before t x y = true ∨ before t y x = true := by
  rw [before_iff, before_iff]
  simp only [BitVec.lt_def, ← BitVec.toNat_inj, ne_eq] at *
  omega

/-- The rank order: a present symbol before another has the smaller rank (R184). -/
theorem rankOf_lt {t : Table Word} {x y : Byte} (hx : present t x = true) (h : before t x y = true) :
    rankOf t x < rankOf t y := by
  refine countP_lt_countP (x := x) (fun a _ ha => ?_) (mem_symbols x) (by simp [before_irrefl]) (by simp [hx, h])
  simp only [Bool.and_eq_true] at ha ⊢
  exact ⟨ha.1, before_trans ha.2 h⟩

theorem rankOf_injective {t : Table Word} {x y : Byte} (hx : present t x = true) (hy : present t y = true)
    (h : rankOf t x = rankOf t y) : x = y := by
  by_contra hne
  rcases before_total t hne with hb | hb
  · have := rankOf_lt hx hb; omega
  · have := rankOf_lt hy hb; omega

/-- A present symbol's rank is below the number of present symbols (R184). -/
theorem rankOf_lt_length {t : Table Word} {x : Byte} (hx : present t x = true) : rankOf t x < (presentSymbols t).length := by
  rw [presentSymbols, ← List.countP_eq_length_filter]
  exact countP_lt_countP (fun a _ ha => by simp only [Bool.and_eq_true] at ha; exact ha.1) (mem_symbols x)
    (by simp [before_irrefl]) hx

theorem mem_presentSymbols {t : Table Word} {x : Byte} : x ∈ presentSymbols t ↔ present t x = true := by
  simp [presentSymbols]

theorem length_presentSymbols_le (t : Table Word) : (presentSymbols t).length ≤ 256 := by
  have := List.length_filter_le (present t) symbols
  rwa [length_symbols] at this

/-- Every rank below K is some present symbol's (R184). -/
theorem exists_rankOf {t : Table Word} {r : Nat} (h : r < (presentSymbols t).length) :
    ∃ x, present t x = true ∧ rankOf t x = r := by
  have hnd : ((presentSymbols t).map (rankOf t)).Nodup := by
    refine (List.nodup_map_iff_inj_on (nodup_symbols.filter _)).mpr fun a ha b hb hab => ?_
    exact rankOf_injective (mem_presentSymbols.mp ha) (mem_presentSymbols.mp hb) hab
  have hsub : ((presentSymbols t).map (rankOf t)).toFinset ⊆ Finset.range (presentSymbols t).length := by
    intro a ha
    obtain ⟨x, hx, rfl⟩ := List.mem_map.mp (List.mem_toFinset.mp ha)
    exact Finset.mem_range.mpr (rankOf_lt_length (mem_presentSymbols.mp hx))
  have hcard := Finset.eq_of_subset_of_card_le hsub (by
    rw [Finset.card_range, List.toFinset_card_of_nodup hnd, List.length_map])
  have hr : r ∈ ((presentSymbols t).map (rankOf t)).toFinset := by rw [hcard]; exact Finset.mem_range.mpr h
  obtain ⟨x, hx, rfl⟩ := List.mem_map.mp (List.mem_toFinset.mp hr)
  exact ⟨x, mem_presentSymbols.mp hx, rfl⟩

/-- All 256 symbols are present exactly when there are 256 present ones. -/
theorem length_presentSymbols_eq {t : Table Word} : (presentSymbols t).length = 256 ↔ ∀ x, Table.entry t x ≠ 0 := by
  rw [presentSymbols, ← length_symbols, List.length_filter_eq_length_iff]
  exact ⟨fun h x => present_iff.mp (h x (mem_symbols x)), fun h x _ => present_iff.mpr (h x)⟩

/-! ### The tables of BUILD_ENC -/

/-- RANKTAB after BUILD_ENC (R185). -/
theorem entry_symbolRanks (t : Table Word) (x : Byte) :
    Table.entry (symbolRanks t) x = if present t x = true then some (BitVec.ofNat 8 (rankOf t x)) else none := by
  unfold symbolRanks
  by_cases h : present t x = true
  · rw [if_pos h]
    refine entry_foldl_setEntry (fun x => x) (fun x => some (BitVec.ofNat 8 (rankOf t x))) x _ _ _ ?_ ⟨x, mem_presentSymbols.mpr h, rfl⟩
    rintro y _ rfl; rfl
  · rw [if_neg h]
    refine (entry_foldl_setEntry_of_not (fun x => x) (fun x => some (BitVec.ofNat 8 (rankOf t x))) x _ _ ?_).trans (by simp)
    rintro y hy rfl
    exact h (mem_presentSymbols.mp hy)

/-- SYMTAB at a present symbol's rank, after BUILD_ENC (R185). -/
theorem entry_rankedSymbols {t : Table Word} {x : Byte} (h : present t x = true) :
    Table.entry (rankedSymbols t) (BitVec.ofNat 8 (rankOf t x)) = x := by
  have hle := length_presentSymbols_le t
  refine entry_foldl_setEntry (fun x => BitVec.ofNat 8 (rankOf t x)) (fun x => x) _ x _ _ ?_ ⟨x, mem_presentSymbols.mpr h, rfl⟩
  intro y hy hk
  have hy' := mem_presentSymbols.mp hy
  have h1 := rankOf_lt_length hy'
  have h2 := rankOf_lt_length h
  refine rankOf_injective hy' h ?_
  have := congrArg BitVec.toNat hk
  simpa [Nat.mod_eq_of_lt (by omega : rankOf t y < 256), Nat.mod_eq_of_lt (by omega : rankOf t x < 256)] using this

/-- SYMTAB from K on, after BUILD_ENC (R185). -/
theorem entry_rankedSymbols_of_le {t : Table Word} {r : Byte} (h : (presentSymbols t).length ≤ r.toNat) :
    Table.entry (rankedSymbols t) r = 0 := by
  refine (entry_foldl_setEntry_of_not (fun x => BitVec.ofNat 8 (rankOf t x)) (fun x => x) r _ _ ?_).trans (by simp)
  intro y hy hk
  have h1 := rankOf_lt_length (mem_presentSymbols.mp hy)
  have hr := r.isLt
  have := congrArg BitVec.toNat hk
  simp only [BitVec.toNat_ofNat] at this
  rw [Nat.mod_eq_of_lt (by omega : rankOf t y < 2 ^ 8)] at this
  omega

end Sys2Proof.Machine
end

