-- ==== Sys2Proof/Laws/Headers.lean ====
section
/-! SUPPORT. The tables BUILD_DEC loads (46_header.md R241). -/

namespace Sys2Proof.Machine

/-- SYMTAB after the header's symbols were loaded from rank r on (R241). -/
theorem entry_loadSymbols (xs : List Byte) : ∀ (r : Nat) (t : Table Byte) (i : Byte), r + xs.length ≤ 256 →
    Table.entry (loadSymbols xs r t) i =
      if r ≤ i.toNat ∧ i.toNat < r + xs.length then (xs[i.toNat - r]?).getD 0 else Table.entry t i := by
  induction xs with
  | nil => intro r t i _; simp [loadSymbols]
  | cons x xs ih =>
    intro r t i h
    rw [List.length_cons] at h
    rw [loadSymbols, ih _ _ _ (by omega), entry_setEntry]
    have hr : (BitVec.ofNat 8 r = i) ↔ r = i.toNat := by
      rw [← BitVec.toNat_inj, BitVec.toNat_ofNat, Nat.mod_eq_of_lt (by omega)]
    by_cases hi : r = i.toNat
    · rw [if_neg (by omega), if_pos (hr.mpr hi), if_pos (by rw [List.length_cons]; omega), hi]; simp
    · rw [if_neg (fun e => hi (hr.mp e))]
      by_cases h2 : r + 1 ≤ i.toNat ∧ i.toNat < r + 1 + xs.length
      · rw [if_pos h2, if_pos (by rw [List.length_cons]; omega), show i.toNat - r = (i.toNat - (r + 1)) + 1 by omega,
          List.getElem?_cons_succ]
      · rw [if_neg h2, if_neg (by rw [List.length_cons]; omega)]

/-- RANKTAB after the header's symbols were loaded from rank r on (R241): an entry that already held a rank keeps it; the others
hold the first rank at which their symbol stands, if it stands there at all. -/
theorem entry_loadRanks (xs : List Byte) : ∀ (r : Nat) (t : Table (Option Byte)) (x : Byte), r + xs.length ≤ 256 →
    Table.entry (loadRanks xs r t) x =
      match Table.entry t x with
      | some q => some q
      | none => if x ∈ xs then some (BitVec.ofNat 8 (r + xs.idxOf x)) else none := by
  induction xs with
  | nil => intro r t x _; simp only [loadRanks, List.not_mem_nil, if_false]; cases Table.entry t x <;> rfl
  | cons y xs ih =>
    intro r t x h
    rw [List.length_cons] at h
    rw [loadRanks, ih _ _ _ (by omega), setFirstRank]
    by_cases hy : y = x
    · subst hy
      cases ht : Table.entry t y with
      | none => simp
      | some q => simp [ht]
    · have hset : Table.entry (if Table.entry t y = none then Table.setEntry t y (some (BitVec.ofNat 8 r)) else t) x =
          Table.entry t x := by
        split
        · rw [entry_setEntry, if_neg hy]
        · rfl
      rw [hset]
      cases ht : Table.entry t x with
      | some q => rfl
      | none =>
        have hx : x ≠ y := fun e => hy e.symm
        simp only [List.mem_cons, hx, false_or, List.idxOf_cons_ne xs hy]
        by_cases hm : x ∈ xs
        · rw [if_pos hm, if_pos hm]; congr 2; omega
        · rw [if_neg hm, if_neg hm]

theorem not_before_idxOf {x : Byte} {q : Nat} {xs : List Byte} (h : q < xs.idxOf x) : xs[q]? ≠ some x := fun hq => by
  obtain ⟨_, he⟩ := List.getElem?_eq_some_iff.mp hq
  have := List.not_of_lt_findIdx (p := (· == x)) h
  simp [he] at this

/-- RANKTAB after BUILD_DEC (R241): the first rank of each symbol of the header. -/
theorem entry_loadRanks_eq_some {xs : List Byte} (h : xs.length ≤ 255) (x r : Byte) :
    Table.entry (loadRanks xs 0 (Vector.replicate 256 none)) x = some r ↔
      xs[r.toNat]? = some x ∧ ∀ q, q < r.toNat → xs[q]? ≠ some x := by
  rw [entry_loadRanks xs 0 _ x (by omega)]
  simp only [entry_replicate, Nat.zero_add]
  by_cases hm : x ∈ xs
  · have hlt := List.idxOf_lt_length_of_mem hm
    have hget : xs[xs.idxOf x]? = some x := by
      rw [List.getElem?_eq_getElem hlt, List.getElem_idxOf]
    rw [if_pos hm, Option.some.injEq, ← BitVec.toNat_inj, BitVec.toNat_ofNat, Nat.mod_eq_of_lt (by omega)]
    constructor
    · intro e
      rw [← e]
      refine ⟨hget, fun q hq hqx => ?_⟩
      exact not_before_idxOf hq hqx
    · rintro ⟨h1, h2⟩
      rcases Nat.lt_trichotomy (xs.idxOf x) r.toNat with hlt' | he | hgt
      · exact absurd hget (h2 _ hlt')
      · exact he
      · exact absurd h1 (not_before_idxOf hgt)
  · rw [if_neg hm]
    exact Iff.intro (fun e => nomatch e) fun h1 => absurd (List.mem_of_getElem? h1.1) hm

end Sys2Proof.Machine
end

