-- ==== Sys2Proof/Laws/Runs.lean ====
section
/-! SUPPORT. Run-length parsing (45_decoder.md R217 to R221): what the parsing loop does with a cycle code in front of it. -/

namespace Sys2Proof.Machine

theorem runLength_replicate (b : Bool) (n : Nat) {rest : List Bool} (h : rest.head? ≠ some b) :
    runLength b (List.replicate n b ++ rest) = n := by
  induction n with
  | zero =>
    cases rest with
    | nil => rfl
    | cons x xs =>
      have hx : x ≠ b := fun e => h (by simp [e])
      simp [runLength, hx]
  | succ n ih => simp [List.replicate_succ, runLength, ih]

theorem runLength_le (b : Bool) (bits : List Bool) : runLength b bits ≤ bits.length := by
  induction bits with
  | nil => exact le_rfl
  | cons x xs ih =>
    simp only [runLength, List.length_cons]
    split <;> omega

/-- The bits in front of a run's end are all the run's. -/
theorem take_runLength (b : Bool) (bits : List Bool) : bits.take (runLength b bits) = List.replicate (runLength b bits) b := by
  induction bits with
  | nil => rfl
  | cons x xs ih =>
    simp only [runLength]
    split
    · rename_i h; rw [List.take_succ_cons, ih, h, List.replicate_succ]
    · rfl

theorem head_drop_runLength (b : Bool) (bits : List Bool) : (bits.drop (runLength b bits)).head? ≠ some b := by
  induction bits with
  | nil => simp [runLength]
  | cons x xs ih =>
    simp only [runLength]
    split
    · simpa using ih
    · rename_i h; simpa using h

/-- One turn of the loop at a cycle code (R217): m zeros, at least one 1 in j ones, and what follows does not lengthen the one
run. -/
theorem parse_cycle (resolve : Nat → Nat → Option Byte) (need m j pos m0 j0 : Nat) {rest : List Bool} (hj : 1 ≤ j)
    (h : rest.head? ≠ some true) :
    parse resolve (need + 1) (List.replicate m false ++ (List.replicate j true ++ rest)) pos m0 j0 =
      match resolve m j with
      | none => ⟨[], pos + m + j, m, j, .unresolvedCycle⟩
      | some x =>
        { parse resolve need rest (pos + m + j) m j with out := x :: (parse resolve need rest (pos + m + j) m j).out } := by
  have h1 : (List.replicate j true ++ rest).head? ≠ some false := by
    obtain ⟨n, rfl⟩ := Nat.exists_eq_add_of_le' hj
    simp [List.replicate_succ]
  have hz := runLength_replicate false m h1
  have ho := runLength_replicate true j h
  have hd : (List.replicate m false ++ (List.replicate j true ++ rest)).drop m = List.replicate j true ++ rest :=
    List.drop_left' (by simp)
  have hd2 : (List.replicate j true ++ rest).drop j = rest := List.drop_left' (by simp)
  have hne : (List.replicate j true ++ rest).isEmpty = false := by
    obtain ⟨n, rfl⟩ := Nat.exists_eq_add_of_le' hj
    simp [List.replicate_succ]
  simp only [parse, hz, hd, hne, ho, hd2]
  rfl

/-- The loop at zeros up to the end of the payload (R217, R222). -/
theorem parse_zeros (resolve : Nat → Nat → Option Byte) (need z pos m0 j0 : Nat) :
    parse resolve (need + 1) (List.replicate z false) pos m0 j0 = ⟨[], pos + z, z, 0, .truncatedStream⟩ := by
  have hz : runLength false (List.replicate z false) = z := by
    have := runLength_replicate false z (rest := []) (by simp)
    simpa using this
  simp [parse, hz]

/-- Whatever the bits: the loop recovers at most the symbols asked for and stays within the payload. -/
theorem parse_bounds (resolve : Nat → Nat → Option Byte) : ∀ (need : Nat) (bits : List Bool) (pos m j : Nat),
    (parse resolve need bits pos m j).out.length ≤ need ∧ (parse resolve need bits pos m j).pos ≤ pos + bits.length := by
  intro need
  induction need with
  | zero => intro bits pos m j; simp [parse]
  | succ need ih =>
    intro bits pos m j
    have h1 := runLength_le false bits
    have h2 := runLength_le true (bits.drop (runLength false bits))
    rw [List.length_drop] at h2
    simp only [parse]
    split
    · exact ⟨by simp, by simp only; omega⟩
    · split
      · exact ⟨by simp, by simp only; omega⟩
      · rename_i x _
        obtain ⟨i1, i2⟩ := ih ((bits.drop (runLength false bits)).drop (runLength true (bits.drop (runLength false bits))))
          (pos + runLength false bits + runLength true (bits.drop (runLength false bits))) (runLength false bits)
          (runLength true (bits.drop (runLength false bits)))
        simp only [List.length_drop] at i2
        simp only [List.length_cons]
        omega

/-- The loop ends in one of three codes (R221). -/
theorem parse_err (resolve : Nat → Nat → Option Byte) : ∀ (need : Nat) (bits : List Bool) (pos m j : Nat),
    (parse resolve need bits pos m j).err ∈ [ErrCode.ok, .truncatedStream, .unresolvedCycle] := by
  intro need
  induction need with
  | zero => intro bits pos m j; simp [parse]
  | succ need ih =>
    intro bits pos m j
    simp only [parse]
    split
    · simp
    · split
      · simp
      · exact ih _ _ _ _

/-- A resolved cycle's rank is below K, and f gives the cycle back. -/
theorem resolve_eq_some {s : State} {m j : Nat} {x : Byte} (h : s.resolve m j = some x) :
    ∃ r, r < s.k.toNat ∧ rankOfCycle m j = some r ∧ cycleOf r = (m, j) ∧ x = s.symbolAt r := by
  unfold State.resolve at h
  split at h
  · cases h
  · rename_i r hr
    split at h
    · rename_i hk
      exact ⟨r, hk, hr, cycleOf_of_rankOfCycle hr, (Option.some.inj h).symm⟩
    · cases h

/-- The cycle of a rank below K resolves to the rank's symbol (R218). -/
theorem resolve_cycleOf {s : State} {r : Nat} (h : r < s.k.toNat) :
    s.resolve (cycleOf r).1 (cycleOf r).2 = some (s.symbolAt r) := by
  simp [State.resolve, rankOfCycle_cycleOf, h]

end Sys2Proof.Machine
end

