-- ==== Sys2Proof/Laws/Writer.lean ====
section
/-! SUPPORT. What the bit writer does (41_bitstream.md R150 to R154): one lemma for one bit, one for a bit string that fits,
one for a bit string that does not. -/

namespace Sys2Proof.Machine

/-! ### One bit -/

theorem getLsbD_setBit (x : Byte) (b : Bool) {p q : Nat} (hp : p < 8) :
    (setBit x p b).getLsbD q = if q = p then b else x.getLsbD q := by
  have h1 : (1#8 <<< p).getLsbD q = decide (q = p) := by
    simp only [BitVec.getLsbD_shiftLeft, BitVec.getLsbD_one]
    by_cases h : q = p
    · subst h; simp [hp]
    · simp [h]; omega
  by_cases h : q = p
  · subst h
    cases b <;> simp [setBit, hp]
  · cases b <;> simp [setBit, h1, h, BitVec.getLsbD_and, BitVec.getLsbD_or]
    by_cases hq : q < 8
    · simp [hq]
    · simp [BitVec.getLsbD_of_ge x q (by omega)]

theorem getLsbD_firstBit (b : Bool) (q : Nat) : ((BitVec.ofBool b).setWidth 8 <<< 7).getLsbD q = (decide (q = 7) && b) := by
  by_cases h : q = 7
  · subst h; cases b <;> rfl
  · by_cases h8 : q < 8
    · interval_cases q <;> cases b <;> simp_all
    · simp [h, BitVec.getLsbD_of_ge _ q (by omega : 8 ≤ q)]

theorem appendBit_eq_none {b : Bool} {s : State} : appendBit b s = none ↔ s.params.outCap ≤ s.writeOffset := by
  simp only [appendBit]
  split <;> simp_all

/-- One bit that fits: only OUTBUF and WBITS change, WBITS by one; the bit is in place; the byte's other bits are cleared at
its first bit and kept at a later one; every other byte stays. -/
theorem appendBit_fits {b : Bool} {s : State} (h : s.writeOffset < s.params.outCap) :
    ∃ t, appendBit b s = some t ∧
      t = { s with outbuf := t.outbuf, wbits := s.wbits + 1 } ∧
      (∀ i, i ≠ s.writeOffset → t.outByte i = s.outByte i) ∧
      (∀ q, (t.outByte s.writeOffset).getLsbD q =
        if q = s.writePos then b
        else if s.wbits.toNat % 8 = 0 then false else (s.outByte s.writeOffset).getLsbD q) ∧
      (Memory.wf s.outbuf → Memory.wf t.outbuf) ∧
      (Memory.below s.outbuf s.params.outCap → Memory.below t.outbuf s.params.outCap) := by
  simp only [appendBit, if_neg (by omega : ¬s.params.outCap ≤ s.writeOffset)]
  refine ⟨_, rfl, rfl, fun i hi => ?_, fun q => ?_, fun hw => put_wf _ _ hw, fun hb => put_below _ hb h⟩
  · simp only [State.outByte, cell_put, if_neg hi]
  · simp only [State.outByte, cell_put, if_true, Option.getD_some]
    by_cases hp : s.writePos = 7
    · have hm : s.wbits.toNat % 8 = 0 := by simp only [State.writePos] at hp; omega
      rw [if_pos hp, getLsbD_firstBit, hp, if_pos hm]
      by_cases hq : q = 7 <;> simp [hq]
    · have hm : s.wbits.toNat % 8 ≠ 0 := by simp only [State.writePos] at hp; omega
      rw [if_neg hp, getLsbD_setBit _ _ (by simp only [State.writePos]; omega), if_neg hm]

/-! ### Bit strings -/

theorem appendBits_append (xs ys : List Bool) (s : State) :
    appendBits (xs ++ ys) s =
      if (appendBits xs s).2 = true then appendBits ys (appendBits xs s).1 else appendBits xs s := by
  induction xs generalizing s with
  | nil => simp [appendBits]
  | cons b xs ih =>
    rcases Option.eq_none_or_eq_some (appendBit b s) with hb | ⟨t, hb⟩
    · simp [appendBits, hb]
    · simp only [List.cons_append, appendBits, hb]
      exact ih t

/-- What the stream's bit i is after n bits were appended to a stream of w bits whose bits were `old`. -/
def appendedBit (old : Nat → Bool) (w : Nat) (bits : List Bool) (i : Nat) : Bool :=
  if i < w then old i
  else if i < w + bits.length then (bits[i - w]?).getD false
  else if 8 * (i / 8) < w then old i
  else if i < 8 * ((w + bits.length + 7) / 8) then false
  else old i

/-- The bits all fit. -/
def fits (s : State) (n : Nat) : Prop := n = 0 ∨ s.wbits.toNat + n ≤ 8 * (s.params.outCap - s.wbase.toNat)

/-- A bit string that fits: only OUTBUF and WBITS change, WBITS by its length; every bit of the stream is as `appendedBit`
says; bytes outside the appended ones stay. -/
theorem appendBits_fits {bits : List Bool} : ∀ {s : State}, s.params.outCap ≤ 65536 → fits s bits.length →
    ∃ t, appendBits bits s = (t, true) ∧
      t = { s with outbuf := t.outbuf, wbits := t.wbits } ∧
      t.wbits.toNat = s.wbits.toNat + bits.length ∧
      (∀ i, t.outBitAt s.wbase.toNat i = appendedBit (s.outBitAt s.wbase.toNat) s.wbits.toNat bits i) ∧
      (∀ i, i < s.wbase.toNat + s.wbits.toNat / 8 ∨ s.wbase.toNat + (s.wbits.toNat + bits.length + 7) / 8 ≤ i →
        t.outByte i = s.outByte i) ∧
      (bits = [] → t = s) ∧
      (Memory.wf s.outbuf → Memory.wf t.outbuf) ∧
      (Memory.below s.outbuf s.params.outCap → Memory.below t.outbuf s.params.outCap) := by
  induction bits with
  | nil =>
    intro s _ _
    refine ⟨s, rfl, rfl, by simp, fun i => ?_, fun _ _ => rfl, fun _ => rfl, id, id⟩
    simp only [appendedBit, List.length_nil, Nat.add_zero]
    split
    · rfl
    · split
      · rfl
      · split
        · exfalso; omega
        · rfl
  | cons b bits ih =>
    intro s hc hf
    have hlen : s.wbits.toNat + (bits.length + 1) ≤ 8 * (s.params.outCap - s.wbase.toNat) := by
      rcases hf with h | h
      · simp at h
      · simpa using h
    have hoff : s.writeOffset < s.params.outCap := by simp only [State.writeOffset]; omega
    obtain ⟨u, hu, hframe, hbytes, hbit, hwf, hbel⟩ := appendBit_fits (b := b) hoff
    have hup : u.params = s.params := by rw [hframe]
    have hub : u.wbase = s.wbase := by rw [hframe]
    have huw : u.wbits.toNat = s.wbits.toNat + 1 := by
      have : u.wbits = s.wbits + 1 := by rw [hframe]
      rw [this, BitVec.toNat_add]
      exact Nat.mod_eq_of_lt (by change s.wbits.toNat + 1 < _; omega)
    have hfu : fits u bits.length := by
      right; rw [hup, hub, huw]; omega
    obtain ⟨t, ht, hft, hw, hbits, hby, -, hwf', hbel'⟩ := ih (by rw [hup]; exact hc) hfu
    rw [hub] at hbits hby
    rw [huw] at hw hby
    simp only [huw] at hbits
    rw [hup] at hbel'
    refine ⟨t, by simp only [appendBits, hu, ht], ?_, ?_, ?_, ?_, by simp, fun h => hwf' (hwf h), fun h => hbel' (hbel h)⟩
    · rw [hft, hframe]
    · simp only [List.length_cons]; omega
    · intro i
      -- the bits of u in terms of those of s
      have hu_bit : u.outBitAt s.wbase.toNat i =
          if i = s.wbits.toNat then b
          else if i / 8 = s.wbits.toNat / 8 ∧ s.wbits.toNat % 8 = 0 then false
          else s.outBitAt s.wbase.toNat i := by
        by_cases hi : i / 8 = s.wbits.toNat / 8
        · have hoff' : s.wbase.toNat + i / 8 = s.writeOffset := by simp only [State.writeOffset, hi]
          simp only [State.outBitAt, hoff', hbit]
          by_cases hi2 : i = s.wbits.toNat
          · rw [if_pos hi2, if_pos (by rw [hi2]; rfl)]
          · rw [if_neg hi2, if_neg (by simp only [State.writePos]; omega)]
            by_cases h0 : s.wbits.toNat % 8 = 0
            · rw [if_pos h0, if_pos ⟨hi, h0⟩]
            · rw [if_neg h0, if_neg (by tauto)]
        · rw [if_neg (by rintro rfl; exact hi rfl), if_neg (by tauto)]
          exact outBitAt_congr (hbytes _ (by simp only [State.writeOffset]; omega))
      rw [hbits]
      simp only [appendedBit, List.length_cons]
      by_cases h1 : i < s.wbits.toNat
      · rw [if_pos (by omega), if_pos h1, hu_bit, if_neg (by omega), if_neg (by omega)]
      · rw [if_neg h1]
        by_cases h2 : i = s.wbits.toNat
        · subst h2
          rw [if_pos (by omega), if_pos (by omega), hu_bit, if_pos rfl]
          simp
        · rw [if_neg (by omega)]
          by_cases h3 : i < s.wbits.toNat + 1 + bits.length
          · rw [if_pos h3, if_pos (by omega)]
            have e : i - s.wbits.toNat = (i - (s.wbits.toNat + 1)) + 1 := by omega
            rw [e, List.getElem?_cons_succ]
          · rw [if_neg h3, if_neg (by omega : ¬i < s.wbits.toNat + (bits.length + 1))]
            have e8 : (s.wbits.toNat + 1 + bits.length + 7) / 8 = (s.wbits.toNat + (bits.length + 1) + 7) / 8 := by
              congr 1; omega
            rw [e8]
            by_cases h4 : 8 * (i / 8) < s.wbits.toNat
            · rw [if_pos (by omega), if_pos h4, hu_bit, if_neg h2, if_neg (by omega)]
            · rw [if_neg h4]
              by_cases h5 : 8 * (i / 8) < s.wbits.toNat + 1
              · rw [if_pos h5, if_pos (by omega), hu_bit, if_neg h2, if_pos (by omega)]
              · rw [if_neg h5]
                by_cases h6 : i < 8 * ((s.wbits.toNat + (bits.length + 1) + 7) / 8)
                · rw [if_pos h6, if_pos h6]
                · rw [if_neg h6, if_neg h6, hu_bit, if_neg h2, if_neg (by omega)]
    · intro i hi
      simp only [List.length_cons] at hi
      rw [hby i (by omega), hbytes i (by simp only [State.writeOffset]; omega)]

/-- A bit string that does not fit: the bits up to the end of OUTBUF are appended, and no more. -/
theorem appendBits_full {bits : List Bool} {s : State} (h : ¬fits s bits.length) :
    ∃ n, n < bits.length ∧ fits s n ∧
      (s.wbits.toNat + n = max s.wbits.toNat (8 * (s.params.outCap - s.wbase.toNat))) ∧
      (s.params.outCap ≤ 65536 → appendBits bits s = ((appendBits (bits.take n) s).1, false)) := by
  simp only [fits, not_or] at h
  refine ⟨8 * (s.params.outCap - s.wbase.toNat) - s.wbits.toNat, by omega, ?_, by omega, fun hc => ?_⟩
  · simp only [fits]; omega
  · obtain ⟨n, hn⟩ : ∃ n, n = 8 * (s.params.outCap - s.wbase.toNat) - s.wbits.toNat := ⟨_, rfl⟩
    rw [← hn]
    have hlt : n < bits.length := by omega
    have hl : (bits.take n).length = n := by rw [List.length_take]; omega
    have hf : fits s (bits.take n).length := by rw [hl]; simp only [fits]; omega
    obtain ⟨t, ht, hft, hw, -⟩ := appendBits_fits hc hf
    have htp : t.params = s.params := by rw [hft]
    have htb : t.wbase = s.wbase := by rw [hft]
    have hnone : appendBit (bits[n]) t = none := by
      rw [appendBit_eq_none, htp]
      simp only [State.writeOffset, htb, hw, hl]
      omega
    have hsplit : bits = bits.take n ++ bits[n] :: bits.drop (n + 1) := by
      rw [← List.drop_eq_getElem_cons hlt, List.take_append_drop]
    conv_lhs => rw [hsplit]
    rw [appendBits_append, ht]
    simp [appendBits, hnone]

/-- Whatever the bits: only OUTBUF and WBITS change, and OUTBUF keeps its form and its capacity. -/
theorem appendBits_frame : ∀ (bits : List Bool) (s : State),
    (appendBits bits s).1 =
      { s with outbuf := (appendBits bits s).1.outbuf, wbits := (appendBits bits s).1.wbits } ∧
    (Memory.wf s.outbuf → Memory.wf (appendBits bits s).1.outbuf) ∧
    (Memory.below s.outbuf s.params.outCap → Memory.below (appendBits bits s).1.outbuf s.params.outCap) := by
  intro bits
  induction bits with
  | nil => intro s; exact ⟨rfl, id, id⟩
  | cons b bits ih =>
    intro s
    simp only [appendBits]
    by_cases h : s.writeOffset < s.params.outCap
    · obtain ⟨t, ht, hft, -, -, hwf, hbel⟩ := appendBit_fits (b := b) h
      have htp : t.params = s.params := by rw [hft]
      obtain ⟨i1, i2, i3⟩ := ih t
      rw [htp] at i3
      simp only [ht]
      refine ⟨?_, fun h => i2 (hwf h), fun h => i3 (hbel h)⟩
      rw [i1, hft]
    · simp only [appendBit_eq_none.mpr (by omega : s.params.outCap ≤ s.writeOffset)]
      exact ⟨trivial, id, id⟩

end Sys2Proof.Machine
end

