-- ==== Sys2Proof/Laws/Streams.lean ====
section
/-! SUPPORT. The payload as a bit string (30_encoding.md R102): what ENCODE's loop appends and what DECODE's loop parses. -/

namespace Sys2Proof.Machine

theorem codeOf_eq (r : Nat) : codeOf r = cycleBits (cycleOf r).1 (cycleOf r).2 := rfl

@[simp] theorem length_codeOf (r : Nat) : (codeOf r).length = codeLength r := by
  rw [codeOf_eq, length_cycleBits, (cycleOf_spec r).2.2.1]

@[simp] theorem payloadOf_nil : payloadOf [] = [] := rfl

@[simp] theorem payloadOf_cons (r : Nat) (rs : List Nat) : payloadOf (r :: rs) = codeOf r ++ payloadOf rs := rfl

@[simp] theorem payloadOf_append (qs rs : List Nat) : payloadOf (qs ++ rs) = payloadOf qs ++ payloadOf rs := by
  simp [payloadOf]

theorem length_payloadOf_le {rs : List Nat} (h : ∀ r ∈ rs, r ≤ 255) : (payloadOf rs).length ≤ 24 * rs.length := by
  induction rs with
  | nil => simp
  | cons r rs ih =>
    have h1 := codeLength_le_24 (h r List.mem_cons_self)
    have h2 := ih fun q hq => h q (List.mem_cons_of_mem _ hq)
    rw [payloadOf_cons, List.length_append, length_codeOf, List.length_cons]
    omega

/-- A cycle code begins with a 0, so it never lengthens the one run before it (R188). -/
theorem endsRun_payloadOf {rs : List Nat} {rest : List Bool} (h : endsRun rest) : endsRun (payloadOf rs ++ rest) := by
  cases rs with
  | nil => exact h
  | cons r rs =>
    obtain ⟨n, hn⟩ := Nat.exists_eq_add_of_le' (cycleOf_spec r).1
    simp [endsRun, codeOf, hn, List.replicate_succ]

/-! ### ENCODE's loop -/

/-- The loop over input bytes that all have ranks appends their cycle codes, and goes on if they fit (R200). -/
theorem encodePayload_append (ys : List Byte) : ∀ (xs : List Byte) (rs : List Nat) (s : State),
    xs.map (fun x => (Table.entry s.ranktab x).map BitVec.toNat) = rs.map some →
    encodePayload (xs ++ ys) s =
      if (appendBits (payloadOf rs) s).2 = true then encodePayload ys (appendBits (payloadOf rs) s).1
      else ⟨(appendBits (payloadOf rs) s).1, .capacity⟩ := by
  intro xs
  induction xs with
  | nil =>
    intro rs s h
    obtain rfl : rs = [] := by simpa using h.symm
    simp [appendBits]
  | cons x xs ih =>
    intro rs s h
    obtain ⟨r, rs, rfl⟩ : ∃ r rs', rs = r :: rs' := by
      cases rs with
      | nil => simp at h
      | cons r rs => exact ⟨r, rs, rfl⟩
    simp only [List.map_cons, List.cons.injEq, Option.map_eq_some_iff] at h
    obtain ⟨⟨q, hq, rfl⟩, h2⟩ := h
    rw [List.cons_append, payloadOf_cons, appendBits_append, encodePayload, hq, codeOf_eq]
    simp only [appendCycle]
    obtain ⟨hfr, -, -⟩ := appendBits_frame (cycleBits (cycleOf q.toNat).1 (cycleOf q.toNat).2) s
    generalize appendBits (cycleBits (cycleOf q.toNat).1 (cycleOf q.toNat).2) s = p at hfr ⊢
    obtain ⟨u, ok⟩ := p
    have hrt : u.ranktab = s.ranktab := by simp only at hfr; rw [hfr]
    cases ok with
    | false => simp
    | true => simpa using ih rs u (by rw [hrt]; exact h2)

/-- Whatever the input: the loop changes only OUTBUF and WBITS, and keeps OUTBUF's form and capacity; it ends in one of three
codes. -/
theorem encodePayload_frame : ∀ (xs : List Byte) (s : State),
    (encodePayload xs s).state =
      { s with outbuf := (encodePayload xs s).state.outbuf, wbits := (encodePayload xs s).state.wbits } ∧
    (encodePayload xs s).err ∈ [ErrCode.ok, .internalInvariant, .capacity] ∧
    (Memory.wf s.outbuf → Memory.wf (encodePayload xs s).state.outbuf) ∧
    (Memory.below s.outbuf s.params.outCap → Memory.below (encodePayload xs s).state.outbuf s.params.outCap) := by
  intro xs
  induction xs with
  | nil => intro s; exact ⟨rfl, by simp [encodePayload], id, id⟩
  | cons x xs ih =>
    intro s
    rw [encodePayload]
    cases Table.entry s.ranktab x with
    | none => exact ⟨rfl, by simp, id, id⟩
    | some r =>
      obtain ⟨h1, h2, h3⟩ := appendBits_frame (cycleBits (cycleOf r.toNat).1 (cycleOf r.toNat).2) s
      simp only [appendCycle]
      generalize appendBits (cycleBits (cycleOf r.toNat).1 (cycleOf r.toNat).2) s = p at h1 h2 h3 ⊢
      obtain ⟨u, ok⟩ := p
      simp only at h1 h2 h3
      cases ok with
      | false => exact ⟨h1, by simp, h2, h3⟩
      | true =>
        obtain ⟨i1, i2, i3, i4⟩ := ih u
        have hup : u.params = s.params := by rw [h1]
        rw [hup] at i4
        refine ⟨?_, i2, fun h => i3 (h2 h), fun h => i4 (h3 h)⟩
        simp only
        rw [i1, h1]

/-! ### DECODE's loop -/

/-- The counts the loop holds after the cycles of some ranks. -/
def lastCycle (rs : List Nat) (m j : Nat) : Nat × Nat :=
  match rs.getLast? with
  | none => (m, j)
  | some r => cycleOf r

theorem lastCycle_cons (r : Nat) (rs : List Nat) (m j : Nat) :
    lastCycle (r :: rs) m j = lastCycle rs (cycleOf r).1 (cycleOf r).2 := by
  cases rs with
  | nil => rfl
  | cons q rs => simp [lastCycle, List.getLast?_cons]

/-- The loop at the cycle codes of ranks below K recovers their symbols and goes on behind them (R217, R218). -/
theorem parse_payloadOf (s : State) (need : Nat) {rest : List Bool} (hrest : endsRun rest) :
    ∀ (rs : List Nat) (pos m j : Nat), (∀ r ∈ rs, r < s.k.toNat) →
      parse s.resolve (rs.length + need) (payloadOf rs ++ rest) pos m j =
        { parse s.resolve need rest (pos + (payloadOf rs).length) (lastCycle rs m j).1 (lastCycle rs m j).2 with
          out := rs.map s.symbolAt ++
            (parse s.resolve need rest (pos + (payloadOf rs).length) (lastCycle rs m j).1 (lastCycle rs m j).2).out } := by
  intro rs
  induction rs with
  | nil => intro pos m j _; simp [lastCycle]
  | cons r rs ih =>
    intro pos m j h
    have hr := h r List.mem_cons_self
    have hrs := fun q hq => h q (List.mem_cons_of_mem _ hq)
    have e : payloadOf (r :: rs) ++ rest =
        List.replicate (cycleOf r).1 false ++ (List.replicate (cycleOf r).2 true ++ (payloadOf rs ++ rest)) := by
      simp [codeOf]
    rw [e, List.length_cons, show rs.length + 1 + need = rs.length + need + 1 by omega,
      parse_cycle _ _ _ _ _ _ _ (cycleOf_spec r).2.1 (endsRun_payloadOf hrest), resolve_cycleOf hr]
    simp only
    have hl : pos + (cycleOf r).1 + (cycleOf r).2 + (payloadOf rs).length = pos + (payloadOf (r :: rs)).length := by
      have := (cycleOf_spec r).2.2.1
      rw [payloadOf_cons, List.length_append, length_codeOf]; omega
    rw [ih _ _ _ hrs, lastCycle_cons, hl]
    simp

end Sys2Proof.Machine
end

