-- ==== Sys2Proof/Laws/Commands.lean ====
section
/-! SUPPORT. One set of lemmas per command's pseudocode, for the proofs to cite instead of unfolding it: the codes it can end
with, the fields it can change (its frame), that it does not read STATUS, and what it comes to once its checks have passed. -/

namespace Sys2Proof.Machine

/-! ### The codes -/

theorem runFreq_err (s : State) : (runFreq s).err ∈ [ErrCode.ok, .range] := by
  simp only [runFreq, ifInRange, freqBody]; split <;> simp

theorem runBuildEnc_err (s : State) : (runBuildEnc s).err ∈ [ErrCode.ok, .alphabetOverflow] := by
  simp only [runBuildEnc]; split <;> simp

theorem runEncode_err (s : State) : (runEncode s).err ∈ [ErrCode.ok, .range, .internalInvariant, .capacity] := by
  simp only [runEncode, ifInRange]
  split
  · simp
  · have := (encodePayload_frame s.input (encodeStart s)).2.1
    simp only [encodeBody, encodeEnd, List.mem_cons, List.not_mem_nil, or_false] at this ⊢
    tauto

theorem runBuildDec_err (s : State) : (runBuildDec s).err ∈ [ErrCode.ok, .range, .invalidHeader] := by
  simp only [runBuildDec, ifInRange, buildDecBody]
  split_ifs <;> simp

theorem runDecode_err (s : State) :
    (runDecode s).err ∈ [ErrCode.ok, .range, .invalidHeader, .capacity, .truncatedStream, .unresolvedCycle] := by
  simp only [runDecode, ifInRange, decodeBody]
  split_ifs
  · simp
  · simp
  · simp
  · simp
  · have := parse_err (s.setCursor 0 0 0).resolve (s.setCursor 0 0 0).origLen.toNat (s.setCursor 0 0 0).payload 0 0 0
    simp only [decodeLoop, List.mem_cons, List.not_mem_nil, or_false] at this ⊢
    tauto

/-! ### The frames -/

theorem runFreq_frame (s : State) : (runFreq s).state = { s with freq := (runFreq s).state.freq } := by
  simp only [runFreq, ifInRange, freqBody]; split <;> rfl

theorem runBuildEnc_frame (s : State) : (runBuildEnc s).state =
    { s with
      k := (runBuildEnc s).state.k
      symtab := (runBuildEnc s).state.symtab
      ranktab := (runBuildEnc s).state.ranktab } := by
  simp only [runBuildEnc]; split <;> rfl

theorem runBuildDec_frame (s : State) : (runBuildDec s).state =
    { s with
      k := (runBuildDec s).state.k
      symtab := (runBuildDec s).state.symtab
      ranktab := (runBuildDec s).state.ranktab } := by
  simp only [runBuildDec, ifInRange, buildDecBody]; split_ifs <;> rfl

theorem runEncode_frame (s : State) : (runEncode s).state =
    { s with
      outbuf := (runEncode s).state.outbuf
      outLen := (runEncode s).state.outLen
      wbase := (runEncode s).state.wbase
      wbits := (runEncode s).state.wbits } := by
  simp only [runEncode, ifInRange]
  split
  · rfl
  · have h := (encodePayload_frame s.input (encodeStart s)).1
    simp only [encodeBody, encodeEnd, State.setOutLen]
    generalize encodePayload s.input (encodeStart s) = r at h ⊢
    rw [h]; rfl

theorem runDecode_frame (s : State) : (runDecode s).state =
    { s with
      outbuf := (runDecode s).state.outbuf
      outLen := (runDecode s).state.outLen
      rbits := (runDecode s).state.rbits
      cycleM := (runDecode s).state.cycleM
      cycleJ := (runDecode s).state.cycleJ } := by
  simp only [runDecode, ifInRange, decodeBody]; split_ifs <;> rfl

theorem afterAppend_frame (bits : List Bool) (s : State) : (afterAppend (appendBits bits s)).state =
    { s with
      outbuf := (afterAppend (appendBits bits s)).state.outbuf
      outLen := (afterAppend (appendBits bits s)).state.outLen
      wbits := (afterAppend (appendBits bits s)).state.wbits } := by
  have h := (appendBits_frame bits s).1
  simp only [afterAppend, State.setOutLen]
  generalize (appendBits bits s).1 = t at h ⊢
  rw [h]

/-! ### The composites (R139, R255, R256) -/

theorem runCompress_eq (s : State) : runCompress s =
    if (runFreq s).err ≠ .ok then ⟨(runFreq s).state.setOutLen 0, (runFreq s).err⟩
    else if (runBuildEnc (runFreq s).state).err ≠ .ok then
      ⟨(runBuildEnc (runFreq s).state).state.setOutLen 0, (runBuildEnc (runFreq s).state).err⟩
    else (runEncode (runBuildEnc (runFreq s).state).state).cleanUp := by
  simp only [runCompress, Run.cleanUp, Run.andThen]
  by_cases h : (runFreq s).err = .ok
  · by_cases h2 : (runBuildEnc (runFreq s).state).err = .ok
    · simp only [h, h2, if_true, ne_eq, not_true, if_false]
    · simp only [h, h2, if_true, ne_eq, not_true, if_false, not_false_eq_true]
  · simp only [h, if_false, ne_eq, not_false_eq_true, if_true]

theorem runDecompress_eq (s : State) : runDecompress s =
    if (runBuildDec s).err ≠ .ok then ⟨(runBuildDec s).state.setOutLen 0, (runBuildDec s).err⟩
    else runDecode (runBuildDec s).state := by
  simp only [runDecompress, Run.cleanUp, Run.andThen]
  by_cases h : (runBuildDec s).err = .ok
  · simp only [h, if_true, ne_eq, not_true, if_false]
  · simp only [h, if_false, ne_eq, not_false_eq_true, if_true]

theorem encodeEnd_cleanUp (r : Run) : (encodeEnd r).cleanUp = encodeEnd r := by
  obtain ⟨u, e⟩ := r
  simp only [encodeEnd, Run.cleanUp]
  by_cases h : e = .ok
  · simp only [h, if_true]
  · simp only [if_neg h]; rfl

/-- ENCODE has already cleared OUT_LEN on an error of its own, so COMPRESS's clean-up of it changes nothing. -/
theorem runEncode_cleanUp {s : State} (h : s.inLen.toNat ≤ s.params.inCap) : (runEncode s).cleanUp = runEncode s := by
  rw [runEncode, ifInRange, if_neg (by omega), encodeBody, encodeEnd_cleanUp]

theorem frame_trans_compress {s a b c : State} (h1 : a = { s with freq := a.freq })
    (h2 : b = { a with k := b.k, symtab := b.symtab, ranktab := b.ranktab })
    (h3 : c = { b with outbuf := c.outbuf, outLen := c.outLen, wbase := c.wbase, wbits := c.wbits }) :
    c = { s with
      freq := c.freq, k := c.k, symtab := c.symtab, ranktab := c.ranktab
      outbuf := c.outbuf, outLen := c.outLen, wbase := c.wbase, wbits := c.wbits } := by
  rw [h3, h2, h1]

theorem frame_trans_decompress {s a b : State} (h1 : a = { s with k := a.k, symtab := a.symtab, ranktab := a.ranktab })
    (h2 : b = { a with outbuf := b.outbuf, outLen := b.outLen, rbits := b.rbits, cycleM := b.cycleM, cycleJ := b.cycleJ }) :
    b = { s with
      k := b.k, symtab := b.symtab, ranktab := b.ranktab
      outbuf := b.outbuf, outLen := b.outLen, rbits := b.rbits, cycleM := b.cycleM, cycleJ := b.cycleJ } := by
  rw [h2, h1]

theorem runCompress_frame (s : State) : (runCompress s).state =
    { s with
      freq := (runCompress s).state.freq
      k := (runCompress s).state.k
      symtab := (runCompress s).state.symtab
      ranktab := (runCompress s).state.ranktab
      outbuf := (runCompress s).state.outbuf
      outLen := (runCompress s).state.outLen
      wbase := (runCompress s).state.wbase
      wbits := (runCompress s).state.wbits } := by
  rw [runCompress_eq]
  split_ifs
  · exact frame_trans_compress (runFreq_frame s) rfl rfl
  · exact frame_trans_compress (runFreq_frame s) (runBuildEnc_frame _) rfl
  · refine frame_trans_compress (runFreq_frame s) (runBuildEnc_frame _) ?_
    have h := runEncode_frame (runBuildEnc (runFreq s).state).state
    simp only [Run.cleanUp]
    split
    · exact h
    · simp only [State.setOutLen]
      generalize (runEncode (runBuildEnc (runFreq s).state).state).state = t at h ⊢
      rw [h]

theorem runDecompress_frame (s : State) : (runDecompress s).state =
    { s with
      k := (runDecompress s).state.k
      symtab := (runDecompress s).state.symtab
      ranktab := (runDecompress s).state.ranktab
      outbuf := (runDecompress s).state.outbuf
      outLen := (runDecompress s).state.outLen
      rbits := (runDecompress s).state.rbits
      cycleM := (runDecompress s).state.cycleM
      cycleJ := (runDecompress s).state.cycleJ } := by
  rw [runDecompress_eq]
  split_ifs
  · exact frame_trans_decompress (runBuildDec_frame s) rfl
  · exact frame_trans_decompress (runBuildDec_frame s) (runDecode_frame _)

/-! ### A command's pseudocode does not read STATUS or the engine's hidden state -/

theorem complete_complete (e e' : ErrCode) (s : State) : complete e' (complete e s) = complete e' s := rfl

theorem appendBit_complete (b : Bool) (s : State) (e : ErrCode) :
    appendBit b (complete e s) = (appendBit b s).map (complete e) := by
  simp only [appendBit]
  by_cases h : s.params.outCap ≤ s.writeOffset
  · rw [if_pos h, if_pos (show (complete e s).params.outCap ≤ (complete e s).writeOffset from h)]; rfl
  · rw [if_neg h, if_neg (show ¬(complete e s).params.outCap ≤ (complete e s).writeOffset from h)]; rfl

theorem appendBits_complete (e : ErrCode) : ∀ (bits : List Bool) (s : State),
    appendBits bits (complete e s) = (complete e (appendBits bits s).1, (appendBits bits s).2) := by
  intro bits
  induction bits with
  | nil => intro s; rfl
  | cons b bs ih =>
    intro s
    rcases hb : appendBit b s with _ | u
    · simp only [appendBits, appendBit_complete, hb, Option.map_none]
    · simp only [appendBits, appendBit_complete, hb, Option.map_some]; exact ih u

theorem encodePayload_complete (e : ErrCode) : ∀ (xs : List Byte) (s : State),
    encodePayload xs (complete e s) = ⟨complete e (encodePayload xs s).state, (encodePayload xs s).err⟩ := by
  intro xs
  induction xs with
  | nil => intro s; rfl
  | cons x xs ih =>
    intro s
    rw [encodePayload, encodePayload, complete_ranktab]
    cases Table.entry s.ranktab x with
    | none => rfl
    | some r =>
      simp only [appendCycle, appendBits_complete]
      generalize appendBits (cycleBits (cycleOf r.toNat).1 (cycleOf r.toNat).2) s = p
      obtain ⟨u, ok⟩ := p
      cases ok with
      | false => rfl
      | true => exact ih u

theorem runBuildEnc_complete (e : ErrCode) (s : State) :
    runBuildEnc (complete e s) = ⟨complete e (runBuildEnc s).state, (runBuildEnc s).err⟩ := by
  simp only [runBuildEnc]
  by_cases h : (presentSymbols s.freq).length = 256
  · rw [if_pos h, if_pos (show (presentSymbols (complete e s).freq).length = 256 from h)]
  · rw [if_neg h, if_neg (show ¬(presentSymbols (complete e s).freq).length = 256 from h)]; rfl

theorem runEncode_complete (e : ErrCode) (s : State) :
    runEncode (complete e s) = ⟨complete e (runEncode s).state, (runEncode s).err⟩ := by
  simp only [runEncode, ifInRange]
  by_cases h : s.params.inCap < s.inLen.toNat
  · rw [if_pos h, if_pos (show (complete e s).params.inCap < (complete e s).inLen.toNat from h)]
  · rw [if_neg h, if_neg (show ¬(complete e s).params.inCap < (complete e s).inLen.toNat from h)]
    have h1 : encodeStart (complete e s) = complete e (encodeStart s) := rfl
    have h2 : (complete e s).input = s.input := rfl
    simp only [encodeBody, encodeEnd]
    rw [h1, h2, encodePayload_complete]
    rfl

theorem runDecode_complete (e : ErrCode) (s : State) :
    runDecode (complete e s) = ⟨complete e (runDecode s).state, (runDecode s).err⟩ := by
  simp only [runDecode, ifInRange]
  by_cases h : s.params.inCap < s.inLen.toNat
  · rw [if_pos h, if_pos (show (complete e s).params.inCap < (complete e s).inLen.toNat from h)]
  rw [if_neg h, if_neg (show ¬(complete e s).params.inCap < (complete e s).inLen.toNat from h)]
  simp only [decodeBody]
  by_cases h1 : s.inLen.toNat < 1 + s.k.toNat
  · rw [if_pos h1, if_pos (show (complete e s).inLen.toNat < 1 + (complete e s).k.toNat from h1)]; rfl
  rw [if_neg h1, if_neg (show ¬(complete e s).inLen.toNat < 1 + (complete e s).k.toNat from h1)]
  by_cases h2 : s.k.toNat = 0 ∧ 0 < s.inLen.toNat - (1 + s.k.toNat)
  · rw [if_pos h2, if_pos (show (complete e s).k.toNat = 0 ∧
      0 < (complete e s).inLen.toNat - (1 + (complete e s).k.toNat) from h2)]; rfl
  rw [if_neg h2, if_neg (show ¬((complete e s).k.toNat = 0 ∧
    0 < (complete e s).inLen.toNat - (1 + (complete e s).k.toNat)) from h2)]
  by_cases h3 : s.params.outCap < s.origLen.toNat
  · rw [if_pos h3, if_pos (show (complete e s).params.outCap < (complete e s).origLen.toNat from h3)]; rfl
  rw [if_neg h3, if_neg (show ¬(complete e s).params.outCap < (complete e s).origLen.toNat from h3)]
  rfl

/-! ### ENCODE: the header, and the ranks of an input -/

/-- OUTBUF where ENCODE's payload loop starts: the header, and nothing else changed (R200). -/
theorem outByte_encodeStart (s : State) :
    (encodeStart s).outByte 0 = s.k ∧
    (∀ r : Byte, r.toNat < s.k.toNat → (encodeStart s).outByte (1 + r.toNat) = Table.entry s.symtab r) ∧
    (∀ i, 1 + s.k.toNat ≤ i → (encodeStart s).outByte i = s.outByte i) := by
  have e : ∀ i, (encodeStart s).outByte i = (s.putOut 0 s.header).outByte i := fun _ => rfl
  have hl : s.header.length = 1 + s.k.toNat := by simp [State.header]; omega
  simp only [e, outByte_putOut, hl]
  refine ⟨by simp [State.header], fun r hr => ?_, fun i hi => by rw [if_neg (by omega)]⟩
  rw [if_pos (by omega), show 1 + r.toNat - 0 = r.toNat + 1 by omega]
  simp [State.header, hr, State.symbolAt]

theorem toNat_wbase_encodeStart (s : State) : (encodeStart s).wbase.toNat = 1 + s.k.toNat := by
  have := s.k.isLt
  simp only [encodeStart, State.startWriter, BitVec.toNat_ofNat]
  omega

/-- An input whose every byte has a rank has a list of ranks. -/
theorem exists_ranks (rt : Table (Option Byte)) : ∀ xs : List Byte, (∀ x ∈ xs, Table.entry rt x ≠ none) →
    ∃ rs : List Nat, xs.map (fun x => (Table.entry rt x).map BitVec.toNat) = rs.map some ∧ (∀ r ∈ rs, r ≤ 255) ∧
      rs.length = xs.length := by
  intro xs
  induction xs with
  | nil => intro _; exact ⟨[], rfl, by simp, rfl⟩
  | cons x xs ih =>
    intro h
    obtain ⟨rs, h1, h2, h3⟩ := ih fun y hy => h y (List.mem_cons_of_mem _ hy)
    obtain ⟨r, hr⟩ := Option.ne_none_iff_exists'.mp (h x List.mem_cons_self)
    refine ⟨r.toNat :: rs, by simp [hr, h1], fun q hq => ?_, by simp [h3]⟩
    rcases List.mem_cons.mp hq with rfl | hq
    · have := r.isLt; omega
    · exact h2 q hq

/-- Any other input has a first byte without a rank. -/
theorem exists_first_without_rank (rt : Table (Option Byte)) : ∀ xs : List Byte, (¬∀ x ∈ xs, Table.entry rt x ≠ none) →
    ∃ ys x zs, xs = ys ++ x :: zs ∧ Table.entry rt x = none ∧ ∀ y ∈ ys, Table.entry rt y ≠ none := by
  intro xs
  induction xs with
  | nil => intro h; exact absurd (by simp) h
  | cons x xs ih =>
    intro h
    by_cases hx : Table.entry rt x = none
    · exact ⟨[], x, xs, rfl, hx, by simp⟩
    · obtain ⟨ys, y, zs, h1, h2, h3⟩ := ih fun hall => h fun y hy => by
        rcases List.mem_cons.mp hy with rfl | hy
        · exact hx
        · exact hall y hy
      refine ⟨x :: ys, y, zs, by rw [h1]; rfl, h2, fun z hz => ?_⟩
      rcases List.mem_cons.mp hz with rfl | hz
      · exact hx
      · exact h3 z hz

/-! ### DECODE after its checks -/

/-- DECODE once its checks have passed is its parsing loop (R217). -/
theorem runDecode_of_checks {s : State} (hin : s.inLen.toNat ≤ s.params.inCap) (hk : 1 + s.k.toNat ≤ s.inLen.toNat)
    (h0 : s.k.toNat = 0 → s.inLen.toNat = 1) (ho : s.origLen.toNat ≤ s.params.outCap) :
    runDecode s =
      ⟨(s.setCursor 0 0 0).storeParse (parse s.resolve s.origLen.toNat (s.inBits (1 + s.k.toNat)) 0 0 0),
        (parse s.resolve s.origLen.toNat (s.inBits (1 + s.k.toNat)) 0 0 0).err⟩ := by
  simp only [runDecode, ifInRange, if_neg (by omega : ¬s.params.inCap < s.inLen.toNat), decodeBody,
    if_neg (by omega : ¬s.inLen.toNat < 1 + s.k.toNat)]
  rw [if_neg, if_neg (by omega)]
  · rfl
  · rintro ⟨a, b⟩; have := h0 a; omega

/-- What the end of DECODE stores (R217). -/
theorem storeParse_facts (s : State) (r : Parse) (hpos : r.pos < 2 ^ 32) (hlen : r.out.length < 2 ^ 32) :
    ((s.setCursor 0 0 0).storeParse r).outLen.toNat = r.out.length ∧
    ((s.setCursor 0 0 0).storeParse r).rbits.toNat = r.pos ∧
    ((s.setCursor 0 0 0).storeParse r).cycleM.toNat = min r.m 31 ∧
    ((s.setCursor 0 0 0).storeParse r).cycleJ.toNat = min r.j 31 ∧
    (∀ i, i < r.out.length → r.out[i]? = some (((s.setCursor 0 0 0).storeParse r).outByte i)) ∧
    (∀ i, r.out.length ≤ i → ((s.setCursor 0 0 0).storeParse r).outByte i = s.outByte i) := by
  have e : ∀ i, ((s.setCursor 0 0 0).storeParse r).outByte i = (s.putOut 0 r.out).outByte i := fun _ => rfl
  refine ⟨Nat.mod_eq_of_lt hlen, Nat.mod_eq_of_lt hpos, ?_, ?_, fun i hi => ?_, fun i hi => ?_⟩
  · simp only [State.storeParse, State.setCursor, BitVec.toNat_ofNat]; omega
  · simp only [State.storeParse, State.setCursor, BitVec.toNat_ofNat]; omega
  · rw [e, outByte_putOut, if_pos (by omega), Nat.sub_zero, List.getElem?_eq_getElem hi]; rfl
  · rw [e, outByte_putOut, if_neg (by omega)]

theorem length_inBits (s : State) (b : Nat) : (s.inBits b).length = 8 * (s.inLen.toNat - b) := by simp [State.inBits]

end Sys2Proof.Machine
end

