-- ==== Sys2Proof/Laws/Decode.lean ====
section
/-! SUPPORT. The decoder as one chain of the opcode map's rows (30_encoding.md R93, R94), which the proofs about decoding cite. -/

namespace Sys2Proof

/-- The decoder, row by row: the rows are tried in the order of the map, and the fields are read with `extractLsb'`. -/
theorem decode_eq (w : Word) : decode w =
   if w = 0 then .command .nop
   else if w = 1 then .command .freq
   else if w = 2 then .command .buildEnc
   else if w = 3 then .command .encode
   else if w = 4 then .command .buildDec
   else if w = 5 then .command .decode
   else if w = 6 then .command .compress
   else if w = 7 then .command .decompress
   else if w &&& 0xFFFFFEFF = 8 then .command (.putbit (w.getLsbD 8))
   else if w &&& 0xFFE0E0FF = 9 then .command (.putcycle (w.extractLsb' 8 5).toNat (w.extractLsb' 16 5).toNat)
   else if w &&& 0x000000FF = 10 then .command (.getbit (w.extractLsb' 8 24).toNat)
   else if w &&& 0xFFFF00FF = 11 then .command (.rank2mj (w.extractLsb' 8 8).toNat)
   else if w &&& 0xFFE0E0FF = 12 then .command (.mj2rank (w.extractLsb' 8 5).toNat (w.extractLsb' 16 5).toNat)
   else if 0xD ≤ field 3 0 w then .reservedOp else .reservedBits := by
  have hand : w &&& 0xFFFFFFFF = w := BitVec.and_allOnes
  simp only [decode, rows, List.find?, Row.selects, hand]
  by_cases h0 : w = 0
  · subst h0; rfl
  by_cases h1 : w = 1
  · subst h1; rfl
  by_cases h2 : w = 2
  · subst h2; rfl
  by_cases h3 : w = 3
  · subst h3; rfl
  by_cases h4 : w = 4
  · subst h4; rfl
  by_cases h5 : w = 5
  · subst h5; rfl
  by_cases h6 : w = 6
  · subst h6; rfl
  by_cases h7 : w = 7
  · subst h7; rfl
  simp only [h0, h1, h2, h3, h4, h5, h6, h7, if_false]
  have e0 : (w == 0) = false := beq_eq_false_iff_ne.mpr h0
  have e1 : (w == 1) = false := beq_eq_false_iff_ne.mpr h1
  have e2 : (w == 2) = false := beq_eq_false_iff_ne.mpr h2
  have e3 : (w == 3) = false := beq_eq_false_iff_ne.mpr h3
  have e4 : (w == 4) = false := beq_eq_false_iff_ne.mpr h4
  have e5 : (w == 5) = false := beq_eq_false_iff_ne.mpr h5
  have e6 : (w == 6) = false := beq_eq_false_iff_ne.mpr h6
  have e7 : (w == 7) = false := beq_eq_false_iff_ne.mpr h7
  simp only [e0, e1, e2, e3, e4, e5, e6, e7]
  by_cases a8 : w &&& 0xFFFFFEFF = 8
  · simp only [a8, if_true]
    rfl
  have b8 : (w &&& 0xFFFFFEFF == 8) = false := beq_eq_false_iff_ne.mpr a8
  simp only [b8, if_neg a8]
  by_cases a9 : w &&& 0xFFE0E0FF = 9
  · simp only [a9, if_true]
    rfl
  have b9 : (w &&& 0xFFE0E0FF == 9) = false := beq_eq_false_iff_ne.mpr a9
  simp only [b9, if_neg a9]
  by_cases aA : w &&& 0xFF = 10
  · simp only [aA, if_true]
    rfl
  have bA : (w &&& 0xFF == 10) = false := beq_eq_false_iff_ne.mpr aA
  simp only [bA, if_neg aA]
  by_cases aB : w &&& 0xFFFF00FF = 11
  · simp only [aB, if_true]
    rfl
  have bB : (w &&& 0xFFFF00FF == 11) = false := beq_eq_false_iff_ne.mpr aB
  simp only [bB, if_neg aB]
  by_cases aC : w &&& 0xFFE0E0FF = 12
  · simp only [aC, if_true]
    rfl
  have bC : (w &&& 0xFFE0E0FF == 12) = false := beq_eq_false_iff_ne.mpr aC
  simp only [bC, if_neg aC]

/-! ### The five formats (R91): a word that passes a format's mask is put together from its fields -/

/-- Format B. -/
theorem word_of_b {w : Word} {op : BitVec 4} (h : w &&& 0xFFFFFEFF = 0#28 ++ op) :
    0#23 ++ BitVec.ofBool (w.getLsbD 8) ++ 0#4 ++ op = w := by
  refine BitVec.eq_of_getLsbD_eq fun i hi => ?_
  have hb : (w &&& 0xFFFFFEFF).getLsbD i = (0#28 ++ op).getLsbD i := by rw [h]
  simp only [BitVec.getLsbD_and, BitVec.getLsbD_append] at hb ⊢
  interval_cases i <;> simp at hb ⊢ <;> simp_all

/-- Format MJ. -/
theorem word_of_mj {w : Word} {op : BitVec 4} (h : w &&& 0xFFE0E0FF = 0#28 ++ op) :
    0#11 ++ w.extractLsb' 16 5 ++ 0#3 ++ w.extractLsb' 8 5 ++ 0#4 ++ op = w := by
  refine BitVec.eq_of_getLsbD_eq fun i hi => ?_
  have hb : (w &&& 0xFFE0E0FF).getLsbD i = (0#28 ++ op).getLsbD i := by rw [h]
  simp only [BitVec.getLsbD_and, BitVec.getLsbD_append, BitVec.getLsbD_extractLsb'] at hb ⊢
  interval_cases i <;> simp at hb ⊢ <;> simp_all

/-- Format X. -/
theorem word_of_x {w : Word} {op : BitVec 4} (h : w &&& 0x000000FF = 0#28 ++ op) :
    w.extractLsb' 8 24 ++ 0#4 ++ op = w := by
  refine BitVec.eq_of_getLsbD_eq fun i hi => ?_
  have hb : (w &&& 0x000000FF).getLsbD i = (0#28 ++ op).getLsbD i := by rw [h]
  simp only [BitVec.getLsbD_and, BitVec.getLsbD_append, BitVec.getLsbD_extractLsb'] at hb ⊢
  interval_cases i <;> simp at hb ⊢ <;> simp_all

/-- Format RK. -/
theorem word_of_rk {w : Word} {op : BitVec 4} (h : w &&& 0xFFFF00FF = 0#28 ++ op) :
    0#16 ++ w.extractLsb' 8 8 ++ 0#4 ++ op = w := by
  refine BitVec.eq_of_getLsbD_eq fun i hi => ?_
  have hb : (w &&& 0xFFFF00FF).getLsbD i = (0#28 ++ op).getLsbD i := by rw [h]
  simp only [BitVec.getLsbD_and, BitVec.getLsbD_append, BitVec.getLsbD_extractLsb'] at hb ⊢
  interval_cases i <;> simp at hb ⊢ <;> simp_all

/-- The fields of a word of format MJ, and the mask it passes. -/
theorem fields_mj (a b : BitVec 5) (op : BitVec 4) :
    (0#11 ++ b ++ 0#3 ++ a ++ 0#4 ++ op) &&& 0xFFE0E0FF = 0#28 ++ op ∧
    (0#11 ++ b ++ 0#3 ++ a ++ 0#4 ++ op).extractLsb' 8 5 = a ∧
    (0#11 ++ b ++ 0#3 ++ a ++ 0#4 ++ op).extractLsb' 16 5 = b := by
  refine ⟨?_, ?_, ?_⟩ <;> refine BitVec.eq_of_getLsbD_eq fun i hi => ?_ <;>
    simp only [BitVec.getLsbD_and, BitVec.getLsbD_append, BitVec.getLsbD_extractLsb'] <;> interval_cases i <;> simp

/-- Every mask of the opcode map covers OP (R94): a word that passes one has its OP field. -/
theorem op_of_and {w mask k : Word} (hm : mask.extractLsb' 0 4 = 15#4) (h : w &&& mask = k) :
    w.extractLsb' 0 4 = k.extractLsb' 0 4 := by
  rw [← h, BitVec.extractLsb'_and, hm]
  exact BitVec.and_allOnes.symm

end Sys2Proof
end

