-- ==== Sys2Proof/Laws/PerInstr.lean ====
section
/-! SUPPORT. One lemma per command, for every command: the OP field of its word is the opcode the map gives it, and bits 7 to 4
are 0 (30_encoding.md R91, R93). -/

namespace Sys2Proof.Laws

/-- The OP of each command (R93). -/
def opcode : Instr → BitVec 4
  | .nop => 0x0
  | .freq => 0x1
  | .buildEnc => 0x2
  | .encode => 0x3
  | .buildDec => 0x4
  | .decode => 0x5
  | .compress => 0x6
  | .decompress => 0x7
  | .putbit _ => 0x8
  | .putcycle _ _ => 0x9
  | .getbit _ => 0xA
  | .rank2mj _ => 0xB
  | .mj2rank _ _ => 0xC

/-- The low byte of any word that ends in four zero bits and an OP. -/
theorem low_byte {n : Nat} (x : BitVec n) (o : BitVec 4) :
    (x ++ 0#4 ++ o).extractLsb' 0 4 = o ∧ (x ++ 0#4 ++ o).extractLsb' 4 4 = 0 := by
  constructor <;>
  · ext i hi
    simp only [BitVec.getElem_extractLsb', BitVec.getLsbD_append]
    interval_cases i <;> simp

/-- The word's OP is the command's opcode, and the reserved field Z is 0. -/
def Opcode.Statement (i : Instr) : Prop := (encode i).extractLsb' 0 4 = opcode i ∧ (encode i).extractLsb' 4 4 = 0

theorem Opcode.nop : Opcode.Statement .nop := by constructor <;> rfl
theorem Opcode.freq : Opcode.Statement .freq := by constructor <;> rfl
theorem Opcode.buildEnc : Opcode.Statement .buildEnc := by constructor <;> rfl
theorem Opcode.encode : Opcode.Statement .encode := by constructor <;> rfl
theorem Opcode.buildDec : Opcode.Statement .buildDec := by constructor <;> rfl
theorem Opcode.decode : Opcode.Statement .decode := by constructor <;> rfl
theorem Opcode.compress : Opcode.Statement .compress := by constructor <;> rfl
theorem Opcode.decompress : Opcode.Statement .decompress := by constructor <;> rfl
theorem Opcode.putbit (b : Bool) : Opcode.Statement (.putbit b) := low_byte _ _
theorem Opcode.putcycle (m j : Nat) : Opcode.Statement (.putcycle m j) := low_byte _ _
theorem Opcode.getbit (idx : Nat) : Opcode.Statement (.getbit idx) := low_byte _ _
theorem Opcode.rank2mj (rank : Nat) : Opcode.Statement (.rank2mj rank) := low_byte _ _
theorem Opcode.mj2rank (m j : Nat) : Opcode.Statement (.mj2rank m j) := low_byte _ _

end Sys2Proof.Laws
end

