-- ==== Sys2Proof/Laws/Results.lean ====
section
/-! SUPPORT. The fields of the words the host reads: RESULT (41_bitstream.md R160, 43_code_builder.md R190, R192) and STATUS
(10_state.md R26). -/

namespace Sys2Proof.Machine

theorem toNat_bitResult (b : Bool) : (bitResult b).toNat = b.toNat := by cases b <;> rfl

/-- RANK2MJ's RESULT, field by field (R190). -/
theorem cycleResult_fields (c : Bool) (m j : Nat) :
    (cycleResult c m j).extractLsb' 0 8 = BitVec.ofNat 8 m ∧
    (cycleResult c m j).extractLsb' 8 8 = BitVec.ofNat 8 j ∧
    (cycleResult c m j).extractLsb' 16 8 = BitVec.ofNat 8 (m + j) ∧
    (cycleResult c m j).extractLsb' 24 7 = 0 ∧
    (cycleResult c m j).getLsbD 31 = c := by
  simp only [cycleResult]
  generalize BitVec.ofNat 8 m = a
  generalize BitVec.ofNat 8 j = b
  generalize BitVec.ofNat 8 (m + j) = d
  refine ⟨?_, ?_, ?_, ?_, by simp only [BitVec.getLsbD_append]; simp⟩ <;>
  · ext i hi
    simp only [BitVec.getElem_extractLsb', BitVec.getLsbD_append]
    interval_cases i <;> simp

/-- MJ2RANK's RESULT for a pair, field by field (R192). -/
theorem rankResult_fields (c : Bool) (x : Byte) (r : Nat) :
    (rankResult c x r).extractLsb' 0 16 = BitVec.ofNat 16 r ∧
    (rankResult c x r).extractLsb' 16 8 = x ∧
    (rankResult c x r).extractLsb' 24 6 = 0 ∧
    (rankResult c x r).getLsbD 30 = true ∧
    (rankResult c x r).getLsbD 31 = c := by
  simp only [rankResult]
  generalize BitVec.ofNat 16 r = a
  refine ⟨?_, ?_, ?_, by simp only [BitVec.getLsbD_append]; simp, by simp only [BitVec.getLsbD_append]; simp⟩ <;>
  · ext i hi
    simp only [BitVec.getElem_extractLsb', BitVec.getLsbD_append]
    interval_cases i <;> simp

theorem getLsbD_statusWord_zero (s : State) : s.statusWord.getLsbD 0 = s.busy := by
  simp only [State.statusWord, BitVec.getLsbD_append]; simp

end Sys2Proof.Machine
end

