-- ==== Sys2Proof/Tests/Slice0.lean ====
section
/-! SUPPORT. The model's own tests: the well-formedness checks, decoding words written out from the formats, one step per
command against the spec's examples (95_test_vectors.md and the rules' own), and a witness for the hypotheses of every
statement that has some. -/

namespace Sys2Proof.Tests

-- one theorem at a time: the kernel evaluations below would otherwise each hold a thread of their own
set_option Elab.async false

open Sys2Proof.Machine

/-! ### Well-formedness: an ill-formed term for each check (30_encoding.md R97) -/

theorem test_wf_putcycle_m : wellFormed (.putcycle 32 0) = false := by decide
theorem test_wf_putcycle_j : wellFormed (.putcycle 0 32) = false := by decide
theorem test_wf_getbit : wellFormed (.getbit (2 ^ 24)) = false := by decide
theorem test_wf_rank2mj : wellFormed (.rank2mj 256) = false := by decide
theorem test_wf_mj2rank_m : wellFormed (.mj2rank 32 0) = false := by decide
theorem test_wf_mj2rank_j : wellFormed (.mj2rank 0 32) = false := by decide

/-! ### Decoding (30_encoding.md R91, R93, R95); words from the rules' examples -/

theorem test_decode_nop : decode 0x00000000 = .command .nop := by decide
theorem test_decode_freq : decode 0x00000001 = .command .freq := by decide
theorem test_decode_buildEnc : decode 0x00000002 = .command .buildEnc := by decide
theorem test_decode_encode : decode 0x00000003 = .command .encode := by decide
theorem test_decode_buildDec : decode 0x00000004 = .command .buildDec := by decide
theorem test_decode_decode : decode 0x00000005 = .command .decode := by decide
theorem test_decode_compress : decode 0x00000006 = .command .compress := by decide
theorem test_decode_decompress : decode 0x00000007 = .command .decompress := by decide
theorem test_decode_putbit : decode 0b00000000000000000000000100001000 = .command (.putbit true) := by decide
theorem test_decode_putcycle : decode 0b00000000000000010000001000001001 = .command (.putcycle 2 1) := by decide
theorem test_decode_getbit : decode 0b10000000000000000000001000001010 = .command (.getbit 0x800002) := by decide
theorem test_decode_rank2mj : decode 0b00000000000000000000000100001011 = .command (.rank2mj 1) := by decide
theorem test_decode_mj2rank : decode 0b00000000000111110000000100001100 = .command (.mj2rank 1 31) := by decide
theorem test_decode_reserved_op : decode 0x0000000D = .reservedOp := by decide
theorem test_decode_reserved_z : decode 0x00000010 = .reservedBits := by decide
theorem test_decode_reserved_bit : decode 0x00002009 = .reservedBits := by decide
theorem test_table_word : decodeTableWord 32 0x00010209 = some (.putcycle 2 1) := by decide

/-! ### States the tests start from -/

/-- Consecutive bytes of a buffer from offset 0 on. -/
def cells (xs : List Byte) : Memory := (List.range xs.length).zip xs

/-- A small block right after reset. -/
def small : State := State.resetWith { inCap := 16, outCap := 260 } 0 0 []

/-- The small block with a text in INBUF. -/
def text (xs : List Byte) : State := { small with inbuf := cells xs, inLen := BitVec.ofNat 32 xs.length }

/-- The small block with a code table whose symbols are given in rank order. -/
def coded (xs : List Byte) (s : State) : State := s.loadHeader xs

/-- The block with one operation of the host pending. -/
def pending (op : HostOp) : State := { small with queue := [op] }

/-- The block one host turn before a command completes, with one operation of the host pending. -/
def running (op : HostOp) : State := { pending op with busy := true, turns := 1 }

/-! ### One step per command -/

theorem test_nop : (after .nop { small with err := .truncatedStream }).statusWord = 0x00000002 := by decide

theorem test_freq :
    let t := after .freq (text [0x61, 0x61, 0x62])
    Table.entry t.freq 0x61 = 2 ∧ Table.entry t.freq 0x62 = 1 ∧ Table.entry t.freq 0x63 = 0 := by decide +kernel

theorem test_freq_range :
    (after .freq { small with inLen := 17 }).statusWord = 0x00000082 := by decide +kernel

theorem test_buildEnc :
    let t := after .buildEnc (after .freq (text [0x62, 0x61, 0x6E, 0x61, 0x6E, 0x61]))
    t.k = 3 ∧ t.symtab.toList.take 4 = [0x61, 0x6E, 0x62, 0x00] ∧
    Table.entry t.ranktab 0x62 = some 2 ∧ Table.entry t.ranktab 0x63 = none := by decide +kernel

theorem test_buildEnc_tie :
    (after .buildEnc (after .freq (text [0x62, 0x61]))).symtab.toList.take 2 = [0x61, 0x62] := by decide +kernel

theorem test_encode :
    let t := after .encode (coded [0x61] (text [0x61, 0x61, 0x61]))
    t.outBytes 0 3 = [0x01, 0x61, 0x54] ∧ t.outLen = 3 ∧ t.wbase = 2 ∧ t.wbits = 6 ∧ t.err = .ok := by decide +kernel

theorem test_encode_absent :
    let t := after .encode (text [0x61])
    t.statusWord = 0x00000062 ∧ t.outLen = 0 ∧ t.outByte 0 = 0 ∧ t.wbase = 1 := by decide +kernel

theorem test_buildDec :
    let t := after .buildDec (text [0x02, 0x61, 0x61, 0x48])
    t.k = 2 ∧ t.symtab.toList.take 3 = [0x61, 0x61, 0x00] ∧ Table.entry t.ranktab 0x61 = some 0 := by decide +kernel

theorem test_buildDec_short : (after .buildDec (text [0x03, 0x61, 0x62])).statusWord = 0x00000032 := by decide +kernel

theorem test_decode :
    let t := after .decode (coded [0x61, 0x62] { text [0x02, 0x61, 0x62, 0x48] with origLen := 2 })
    t.output = [0x61, 0x62] ∧ t.rbits = 5 ∧ t.cycleWord = 0x00000102 ∧ t.err = .ok := by decide +kernel

theorem test_decode_truncated :
    let t := after .decode (coded [0x61] { text [0x01, 0x61, 0x54] with origLen := 4 })
    t.output = [0x61, 0x61, 0x61] ∧ t.rbits = 8 ∧ t.cycleWord = 0x00000002 ∧ t.err = .truncatedStream := by decide +kernel

theorem test_compress :
    let t := after .compress (text [0x61, 0x62])
    t.output = [0x02, 0x61, 0x62, 0x48] ∧ t.k = 2 ∧ t.wbase = 3 ∧ t.wbits = 5 ∧ t.err = .ok := by decide +kernel

theorem test_compress_empty : (after .compress (text [])).output = [0x00] := by decide +kernel

theorem test_decompress :
    let t := after .decompress { text [0x01, 0x61, 0x54] with origLen := 3 }
    t.output = [0x61, 0x61, 0x61] ∧ t.k = 1 ∧ t.rbits = 6 ∧ t.cycleWord = 0x00000101 ∧ t.err = .ok := by decide +kernel

theorem test_decompress_invalid :
    let t := after .decompress { text [0x00, 0x55] with outLen := 9, rbits := 7 }
    t.statusWord = 0x00000032 ∧ t.outLen = 0 ∧ t.rbits = 7 := by decide +kernel

theorem test_putbit :
    let t := after (.putbit true) (after (.putbit false) small)
    t.outByte 0 = 0x40 ∧ t.wbits = 2 ∧ t.outLen = 1 ∧ t.err = .ok := by decide +kernel

theorem test_putbit_keeps_the_other_bits :
    (after (.putbit false) { small with wbits := 4, outbuf := cells [0xFF] }).outByte 0 = 0xF7 := by decide +kernel

theorem test_putcycle :
    let t := after (.putcycle 2 1) (after (.putcycle 1 1) small)
    t.outByte 0 = 0x48 ∧ t.wbits = 5 ∧ t.outLen = 1 ∧ t.err = .ok := by decide +kernel

theorem test_putcycle_capacity :
    let t := after (.putcycle 2 3) { small with wbase := 259, wbits := 4, outbuf := [(259, 0x00)] }
    t.outByte 259 = 0x03 ∧ t.wbits = 8 ∧ t.outLen = 260 ∧ t.err = .capacity := by decide +kernel

theorem test_getbit : (after (.getbit 1) (text [0x48])).result = 1 := by decide +kernel
theorem test_getbit_range : (after (.getbit 8) (text [0x48])).statusWord = 0x00000082 := by decide +kernel
theorem test_rank2mj : (after (.rank2mj 1) { small with k := 2 }).result = 0x80030102 := by decide +kernel
theorem test_rank2mj_255 : (after (.rank2mj 255) { small with k := 255 }).result = 0x00180315 := by decide +kernel
theorem test_mj2rank : (after (.mj2rank 2 1) (coded [0x61, 0x62] small)).result = 0xC0620001 := by decide +kernel
theorem test_mj2rank_miss : (after (.mj2rank 31 31) (coded [0x61, 0x62] small)).result = 0x40000744 := by decide +kernel

/-- An illegal word (V-ILL): STATUS 0x12. -/
theorem test_illegal : (stateOr small (step (small.withFetchWord 32 0x0000000D))).statusWord = 0x00000012 := by decide +kernel

/-- A word written to CMD runs: RANK2MJ 2 with K = 2 (V-Q-3). -/
theorem test_step_runs_the_word :
    (stateOr small (step ({ small with k := 2 }.withFetchWord 32 0x0000020B))).result = 0x00030201 := by decide +kernel

theorem test_write_read_little_endian :
    (hostWrite 0x10000 .w32 0x00006261 small).inByte 0 = 0x61 ∧ (hostWrite 0x10000 .w32 0x00006261 small).inByte 1 = 0x62 := by
  decide +kernel

theorem test_reset_memory_wf : Memory.wf State.reset.inbuf ∧ Memory.wf State.reset.outbuf := by decide

theorem test_assemble : assemble "MJ2RANK 31,0x1F".toList = some (.mj2rank 31 31) := by decide +kernel
theorem test_assemble_out_of_range : assemble "GETBIT 0x1000000".toList = none := by decide +kernel

/-! ### Witnesses: a state and operands that meet the hypotheses of each statement, clause by clause -/

theorem witness_DecodeInvertsEncode :
    wellFormed (.putcycle 31 31) = true ∧ wellFormed (.getbit (2 ^ 24 - 1)) = true ∧ wellFormed (.rank2mj 255) = true := by decide

theorem witness_EncodeInvertsDecode : decode 0xFFFFFF0A = .command (.getbit (2 ^ 24 - 1)) := by decide

theorem witness_EveryWordSelectsOneRowOrIsReserved :
    (rows.get ⟨12, by decide⟩).selects 0x001F1F0C = true ∧ decode 0x001F1F0C = .command (.mj2rank 31 31) ∧
    decode 0x0000000F = .reservedOp ∧ decode 0x0020000C = .reservedBits := by decide

theorem witness_AssembledOperandsAreInRange :
    command "PUTCYCLE".toList [31, 31] = some (.putcycle 31 31) ∧ command "PUTCYCLE".toList [33, 1] = none ∧
    lineOf false "PUTCYCLE".toList [31, 0] = "PUTCYCLE 31, 0".toList ∧ lineOf true "NOP".toList [] = "NOP".toList ∧
    lineOf true "GETBIT".toList [0xAF0] = "GETBIT 0xaf0".toList ∧ wellFormed (.putcycle 31 31) = true ∧
    assemble "PUTCYCLE 31, 0x1F".toList = some (.putcycle 31 31) := by decide +kernel

theorem witness_StepRunsTheDecodedCommand :
    ((small.accepted 0x0000000B).busy = true ∧ (small.accepted 0x0000000B).turns = 0 ∧
      decode (small.accepted 0x0000000B).latch = .command (.rank2mj 0)) ∧
    decode (tableWord 32 0x0000000B) = .command (.rank2mj 0) ∧
    (small.busy = false ∧ small.turns = 0 ∧ small.queue = []) := by decide

theorem illegal_is_no_command : ∀ i : Instr, decode 0x0000000D ≠ .command i := by
  intro i h
  rw [test_decode_reserved_op] at h
  cases h

theorem witness_IllegalWordChangesOnlyStatus :
    (small.accepted 0x0000000D).busy = true ∧ (small.accepted 0x0000000D).turns = 0 ∧
    ∀ i : Instr, decode (small.accepted 0x0000000D).latch ≠ .command i :=
  ⟨rfl, rfl, illegal_is_no_command⟩

theorem witness_StatusFollowsTheCommand :
    (∃ t, step (small.accepted 0) = .next t ∧ (small.accepted 0).busy = true ∧ (small.accepted 0).turns = 0) ∧
    (∃ t, step (running .reset) = .next t ∧ ¬((running .reset).busy = true ∧ (running .reset).turns = 0) ∧
      (running .reset).queue = .reset :: []) ∧
    (∃ t, step (pending (.write 0x004 .w32 0)) = .next t ∧ (pending (.write 0x004 .w32 0)).busy = false ∧
      (pending (.write 0x004 .w32 0)).queue = .write 0x004 .w32 0 :: []) ∧
    (∃ t, step (running (.write 0x004 .w32 0)) = .next t ∧
      ¬((running (.write 0x004 .w32 0)).busy = true ∧ (running (.write 0x004 .w32 0)).turns = 0) ∧
      (running (.write 0x004 .w32 0)).queue.head? ≠ some .reset ∧
      ∀ w, (running (.write 0x004 .w32 0)).busy = false →
        (running (.write 0x004 .w32 0)).queue.head? ≠ some (.write 0x004 .w32 w)) :=
  ⟨⟨_, rfl, rfl, rfl⟩, ⟨_, rfl, by decide, rfl⟩, ⟨_, rfl, rfl, rfl⟩, ⟨_, rfl, by decide, by decide, fun _ h => nomatch h⟩⟩

theorem witness_RunningCommandCompletes :
    (running .poll).busy = true ∧ (running .poll).turns = 1 ∧
    HostOp.reset ∉ ((running .poll).queue.take (running .poll).turns).takeWhile (fun op => op ≠ .poll) := by decide

theorem witness_CommandsWriteOnlyTheirStorage :
    ∀ i ∈ [Instr.freq, .buildEnc, .encode, .buildDec, .decode, .compress, .decompress],
      Instr.nop ≠ i ∧ (∀ b, Instr.nop ≠ .putbit b) ∧ (∀ m j, Instr.nop ≠ .putcycle m j) ∧ (∀ n, Instr.nop ≠ .getbit n) ∧
      (∀ r, Instr.nop ≠ .rank2mj r) ∧ (∀ m j, Instr.nop ≠ .mj2rank m j) := by simp

theorem witness_CommandsRaiseOnlyTheirCodes :
    ∃ t, exec .compress (text [0x61, 0x62]) = .next t := ⟨_, rfl⟩

/-- The invariant holds of a state that is not the reset state: a code table of one symbol, a byte in each buffer, a command
running, a write pending. -/
theorem witness_EveryStepKeepsTheMachineInvariant :
    ∃ s t : State, Inv s ∧ step s = .next t ∧ s.busy = true ∧ s.k = 1 ∧ s.inbuf ≠ [] ∧ s.queue ≠ [] := by
  refine ⟨{ running (.write 0x10000 .w32 0) with
    latch := 6
    inbuf := [(15, 0x61)]
    outbuf := [(0, 0x01), (259, 0xFF)]
    k := 1
    symtab := Table.setEntry (Vector.replicate 256 0) 0 0x61
    ranktab := Table.setEntry (Vector.replicate 256 none) 0x61 (some 0) }, _, ?_, rfl, rfl, rfl, by simp, by
      simp [running, pending]⟩
  refine ⟨by decide, by decide, (fun h => nomatch h), by decide, by decide, by decide, by decide, fun x => ?_, fun r hr => ?_,
    fun x r hxr => ?_, by decide⟩
  · simp [running, pending, small, State.resetWith]
  · have h0 : (0 : Byte) ≠ r := fun h => by subst h; exact absurd hr (by decide)
    simp only [entry_setEntry, if_neg h0, entry_replicate]
  · simp only [entry_setEntry, entry_replicate] at hxr
    split at hxr
    · rename_i hx
      cases hxr
      exact ⟨by decide, by simp [hx]⟩
    · cases hxr

theorem witness_ResetEventRestoresTheResetState :
    ¬((running .reset).busy = true ∧ (running .reset).turns = 0) ∧ (running .reset).queue = .reset :: [] := by decide

theorem witness_CmdWriteIsAccepted :
    ((pending (.write 0x004 .w32 6)).busy = false ∧ (pending (.write 0x004 .w32 6)).queue = .write 0x004 .w32 6 :: []) ∧
    ((pending (.read 0x004 .w32)).busy = false ∧ (pending (.read 0x004 .w32)).queue = .read 0x004 .w32 :: []) := by decide

theorem witness_BusyBlockAcceptsOnlyIdAndStatusReads :
    (running (.read 0x000 .w32)).busy = true ∧ (running (.read 0x000 .w32)).turns = 0 + 1 ∧
    (running (.read 0x000 .w32)).queue = .read 0x000 .w32 :: [] ∧ (running (.read 0x008 .w32)).queue = .read 0x008 .w32 :: [] ∧
    (¬(Width.w32 = .w32 ∧ ((0x004 : BusAddr) = 0x000 ∨ (0x004 : BusAddr) = 0x008)) ∧
      (running (.read 0x004 .w32)).queue = .read 0x004 .w32 :: []) ∧
    (¬(Width.w8 = .w32 ∧ ((0x000 : BusAddr) = 0x000 ∨ (0x000 : BusAddr) = 0x008)) ∧
      (running (.read 0x000 .w8)).queue = .read 0x000 .w8 :: []) ∧
    (running (.write 0x00C .w32 1)).queue = .write 0x00C .w32 1 :: [] := by decide

/-- The last mapped word of INBUF and of the registers, and the first word behind each. -/
theorem witness_ExactlyTheListedTransactionsAreRejected :
    small.params.legal ∧ ¬(small.busy = true ∧ small.turns = 0) ∧
    (¬readRejected small 0x1000C .w32 ∧ readRejected small 0x10010 .w32) ∧
    (¬readRejected small 0x00034 .w32 ∧ readRejected small 0x00038 .w32 ∧ readRejected small 0x00034 .w16) ∧
    (¬writeRejected small 0x20100 .w32 ∧ writeRejected small 0x20104 .w32 ∧ writeRejected small 0x00014 .w32) ∧
    readRejected (running .poll) 0x00004 .w32 ∧ ¬readRejected (running .poll) 0x00008 .w32 := by
  refine ⟨by decide, by decide, ⟨?_, ?_⟩, ⟨?_, ?_, ?_⟩, ⟨?_, ?_, ?_⟩, ?_, ?_⟩ <;>
    simp [readRejected, writeRejected, mapped, writable, running, pending, small, State.resetWith]

theorem witness_RegistersReadAsTheMapSays :
    (0x034#18, BitVec.ofNat 32 (pending (.read 0x034 .w32)).params.outCap) ∈
      [(0x034#18, BitVec.ofNat 32 (pending (.read 0x034 .w32)).params.outCap)] ∧
    (pending (.read 0x034 .w32)).busy = false ∧ (pending (.read 0x034 .w32)).queue = .read 0x034 .w32 :: [] := by decide

theorem witness_ReadWriteRegistersStoreTheirField :
    (pending (.write 0x00C .w32 1)).busy = false ∧ (pending (.write 0x00C .w32 1)).queue = .write 0x00C .w32 1 :: [] ∧
    (pending (.write 0x010 .w32 1)).queue = .write 0x010 .w32 1 :: [] ∧
    (pending (.write 0x01C .w32 0x1FFFF)).queue = .write 0x01C .w32 0x1FFFF :: [] ∧
    (pending (.write 0x020 .w32 1)).queue = .write 0x020 .w32 1 :: [] := by decide

theorem witness_BufferWindowsHoldTheirBytes :
    small.params.legal ∧ (pending .poll).busy = false ∧ 4 * 3 < small.params.inCap ∧ 4 * 64 < small.params.outCap ∧
    (pending (.write (BitVec.ofNat 18 (0x10000 + 4 * 3)) .w32 1)).queue =
      .write (BitVec.ofNat 18 (0x10000 + 4 * 3)) .w32 1 :: [] ∧
    (pending (.read (BitVec.ofNat 18 (0x10000 + 4 * 3)) .w32)).queue = .read (BitVec.ofNat 18 (0x10000 + 4 * 3)) .w32 :: [] ∧
    (pending (.write (BitVec.ofNat 18 (0x20000 + 4 * 64)) .w32 1)).queue =
      .write (BitVec.ofNat 18 (0x20000 + 4 * 64)) .w32 1 :: [] ∧
    (pending (.read (BitVec.ofNat 18 (0x20000 + 4 * 64)) .w32)).queue =
      .read (BitVec.ofNat 18 (0x20000 + 4 * 64)) .w32 :: [] := by decide

theorem witness_TableWindowsReadTheTables :
    (pending (.read (BitVec.ofNat 18 (0x400 + 4 * (0xFF : Byte).toNat)) .w32)).busy = false ∧
    (pending (.read (BitVec.ofNat 18 (0x400 + 4 * (0xFF : Byte).toNat)) .w32)).queue = .read 0x7FC .w32 :: [] ∧
    (pending (.read (BitVec.ofNat 18 (0x800 + 4 * (0xFF : Byte).toNat)) .w32)).queue = .read 0xBFC .w32 :: [] ∧
    (Table.entry (coded [0xFF] (pending (.read 0xFFC .w32))).ranktab 0xFF = some 0 ∧
      (coded [0xFF] (pending (.read 0xFFC .w32))).queue =
        .read (BitVec.ofNat 18 (0xC00 + 4 * (0xFF : Byte).toNat)) .w32 :: []) ∧
    (Table.entry (pending (.read 0xFFC .w32)).ranktab 0xFF = none ∧
      (pending (.read 0xFFC .w32)).queue = .read (BitVec.ofNat 18 (0xC00 + 4 * (0xFF : Byte).toNat)) .w32 :: []) ∧
    (0x400 ≤ (0xFFC : BusAddr).toNat ∧ (0xFFC : BusAddr).toNat < 0x1000 ∧
      (pending (.write 0xFFC .w32 0)).queue = .write 0xFFC .w32 0 :: []) := by decide +kernel

theorem witness_PollWaitsUntilNotBusy :
    (¬((running .poll).busy = true ∧ (running .poll).turns = 0) ∧ (running .poll).queue = .poll :: []) ∧
    (¬((pending .poll).busy = true ∧ (pending .poll).turns = 0) ∧ (pending .poll).queue = .poll :: []) := by decide

theorem witness_LoadinFillsInbuf :
    let ops := loadWords 0 [0x61, 0x62, 0x63, 0x64, 0x65] ++ [.write 0x00C .w32 5]
    let s := { small with queue := ops }
    s.params.legal ∧ s.busy = false ∧ s.turns = 0 ∧ ([0x61, 0x62, 0x63, 0x64, 0x65] : List Byte).length ≤ s.params.inCap ∧
    loadInOps [0x61, 0x62, 0x63, 0x64, 0x65] = some ops ∧ s.queue = ops ++ [] := by decide

theorem witness_CycleOfRankIsTheCanonicalOne :
    2 ≤ 24 ∧ (24 - 2) * (24 - 1) / 2 ≤ 254 ∧ 254 < (24 - 1) * 24 / 2 ∧ cycleOf 254 = (22, 2) := by decide

theorem witness_RankOfCycleInvertsCycleOfRank :
    rankOfCycle 0 1 = none ∧ rankOfCycle 1 1 = some 0 ∧ rankOfCycle 1 31 = some 495 ∧
    (coded [0x61, 0x62] small).resolve 2 1 = some 0x62 := by decide +kernel

theorem witness_CodeLengthsAreMonotoneAndBounded :
    231 < 252 ∧ (cycleOf 231).1 + (cycleOf 231).2 = (cycleOf 252).1 + (cycleOf 252).2 ∧ cycleOf 253 = (23, 1) ∧
    cycleOf 252 = (1, 22) := by decide

theorem witness_SaturatedCountersResolveAlike :
    24 ≤ 40 ∧ small.resolve 40 1 = none ∧ (coded [0x61] small).resolve 1 1 = some 0x61 := by decide +kernel

theorem witness_RankToCycleResult : (255 : Nat) ≤ 255 := by decide

theorem witness_CycleToRankResult : (31 ≤ 31 ∧ 1 ≤ 31) ∧ (0 = 0 ∨ 31 = 0) := by decide

theorem witness_HitAgreesWithTheResolveStep :
    (∃ t, exec (.mj2rank 1 1) (coded [0x61] small) = .next t) ∧ (coded [0x61] small).resolve 1 1 = some 0x61 :=
  ⟨⟨_, rfl⟩, by decide +kernel⟩

/-- The last bit of the input, and the first index past it. -/
theorem witness_GetbitReadsOneBit :
    (text [0x48, 0x48]).inLen.toNat ≤ (text [0x48, 0x48]).params.inCap ∧ 15 < 8 * (text [0x48, 0x48]).inLen.toNat ∧
    8 * (text [0x48, 0x48]).inLen.toNat ≤ 16 := by decide

/-- The last byte of OUTBUF, and the first offset past it. -/
theorem witness_PutbitAppendsOneBit :
    (let s := { small with wbase := 259, wbits := 7 }
     s.params.legal ∧ s.wbase.toNat + s.wbits.toNat / 8 < s.params.outCap) ∧
    (let s := { small with wbase := 259, wbits := 8 }
     s.params.outCap ≤ s.wbase.toNat + s.wbits.toNat / 8) := by decide

theorem witness_PutcycleAppendsZerosThenOnes :
    (let s := { small with wbase := 259, wbits := 4 }
     s.params.legal ∧ s.wbase.toNat + (s.wbits.toNat + 1 + 3 - 1) / 8 < s.params.outCap) ∧
    (small.params.legal ∧ 0 + 0 = 0) := by decide

theorem witness_PutcycleStopsAtTheFirstBitThatDoesNotFit :
    let s := { small with wbase := 259, wbits := 4 }
    s.params.legal ∧ 1 ≤ 2 + 3 ∧ s.params.outCap ≤ s.wbase.toNat + (s.wbits.toNat + 2 + 3 - 1) / 8 := by decide

theorem witness_PutcycleEqualsPutbits : 1 ≤ 0 + 1 ∧ ∃ t, exec (.putcycle 0 1) small = .next t := ⟨by decide, _, rfl⟩

theorem witness_InputRangeCheckComesFirst :
    let s := { small with inLen := 17 }
    s.params.inCap < s.inLen.toNat := by decide

theorem witness_FreqCountsTheInput :
    let s := { small with inLen := 16 }
    s.inLen.toNat ≤ s.params.inCap := by decide

theorem witness_BuildersRejectWithoutWriting :
    (∀ x : Byte, Table.entry { small with freq := Vector.replicate 256 1 }.freq x ≠ 0) ∧
    (text []).inLen.toNat = 0 ∧
    ((text [2, 0x61]).inLen.toNat ≤ 16 ∧ (text [2, 0x61]).inLen.toNat < 1 + ((text [2, 0x61]).inByte 0).toNat) ∧
    ((text [0, 0x61]).inByte 0 = 0 ∧ 1 < (text [0, 0x61]).inLen.toNat) :=
  ⟨fun x => by simp, by decide +kernel, by decide +kernel, by decide +kernel⟩

theorem witness_BuildEncRanksThePresentSymbols :
    Table.entry (after .freq (text [0x61])).freq 0x62 = 0 ∧ Table.entry (after .freq (text [0x61])).freq 0x61 ≠ 0 := by
  decide +kernel

theorem witness_CodeTableIsABijectionInRankOrder :
    ∃ t, exec .buildEnc (after .freq (text [0x61, 0x62])) = .next t ∧ t.err = .ok ∧ t.k = 2 :=
  ⟨after .buildEnc (after .freq (text [0x61, 0x62])), rfl, by decide +kernel, by decide +kernel⟩

theorem witness_BuildDecLoadsTheHeader :
    ((text [1, 0x61]).inLen.toNat ≤ (text [1, 0x61]).params.inCap ∧
      1 + ((text [1, 0x61]).inByte 0).toNat ≤ (text [1, 0x61]).inLen.toNat ∧
      ((text [1, 0x61]).inByte 0 = 0 → (text [1, 0x61]).inLen.toNat = 1)) ∧
    ((text [0]).inByte 0 = 0 ∧ (text [0]).inLen.toNat = 1) ∧
    (∃ t u, exec .buildDec (text [1, 0x61]) = .next t ∧ t.err = .ok ∧ exec .decode t = .next u) :=
  ⟨by decide +kernel, by decide +kernel, after .buildDec (text [1, 0x61]), _, rfl, by decide +kernel, rfl⟩

theorem witness_EncodeWritesTheCompressedRepresentation :
    let s := coded [0x61, 0x62] (text [0x62, 0x61])
    s.params.legal ∧ s.inLen.toNat ≤ s.params.inCap ∧
    s.input.map (fun x => (Table.entry s.ranktab x).map BitVec.toNat) = [1, 0].map some ∧
    1 + s.k.toNat + ((payloadOf [1, 0]).length + 7) / 8 ≤ s.params.outCap := by decide +kernel

/-- A table in which one symbol has the longest code, and a header that leaves four bytes for the payload. -/
def crowded : State := { text [0x61, 0x61] with k := 255, ranktab := Table.setEntry (Vector.replicate 256 none) 0x61 (some 254) }

theorem witness_EncodeStopsAtItsFirstError :
    (let s := coded [0x61] (text [0x61, 0x62, 0x61])
     s.params.legal ∧ s.inLen.toNat ≤ s.params.inCap ∧ s.input = [0x61] ++ 0x62 :: [0x61] ∧
     ([0x61] : List Byte).map (fun y => (Table.entry s.ranktab y).map BitVec.toNat) = [0].map some ∧
     1 + s.k.toNat + ((payloadOf [0]).length + 7) / 8 ≤ s.params.outCap ∧ Table.entry s.ranktab 0x62 = none) ∧
    (crowded.params.legal ∧ crowded.inLen.toNat ≤ crowded.params.inCap ∧ crowded.input = [0x61] ++ 0x61 :: [] ∧
     ([0x61] : List Byte).map (fun y => (Table.entry crowded.ranktab y).map BitVec.toNat) = [254].map some ∧
     1 + crowded.k.toNat + ((payloadOf [254]).length + 7) / 8 ≤ crowded.params.outCap ∧
     Table.entry crowded.ranktab 0x61 = some 254 ∧
     crowded.params.outCap < 1 + crowded.k.toNat + ((payloadOf ([254] ++ [254])).length + 7) / 8) := by decide +kernel

theorem witness_EncodedSizeIsBounded :
    let s := coded [0x61] (text [0x61])
    s.params.legal ∧ (∃ t, exec .encode s = .next t ∧ t.err = .ok) ∧ 256 + 3 * s.inLen.toNat ≤ s.params.outCap :=
  ⟨by decide, ⟨after .encode (coded [0x61] (text [0x61])), rfl, by decide +kernel⟩, by decide +kernel⟩

theorem witness_CompressCompletes :
    (text [0x61]).params.legal ∧ (text [0x61]).inLen.toNat ≤ (text [0x61]).params.inCap ∧ (0x62 : Byte) ∉ (text [0x61]).input ∧
    256 + 3 * (text [0x61]).inLen.toNat ≤ (text [0x61]).params.outCap := by decide +kernel

theorem witness_CompressDependsOnlyOnItsInput :
    let s := text [0x61]
    let s' := { text [0x61] with outbuf := cells [0xFF, 0xFF], wbits := 3, k := 7 }
    s ≠ s' ∧ s.params = s'.params ∧ s.params.legal ∧ s.inLen = s'.inLen ∧ (∀ i, i < s.inLen.toNat → s.inByte i = s'.inByte i) ∧
    (∃ t, exec .compress s = .next t) ∧ (∃ t', exec .compress s' = .next t') := by
  refine ⟨fun h => ?_, rfl, by decide, rfl, fun i _ => rfl, ⟨_, rfl⟩, ⟨_, rfl⟩⟩
  exact absurd (congrArg State.wbits h) (by decide)

theorem witness_DecoderChecksInOrder :
    (let s := { small with inLen := 17 }
     s.params.inCap < s.inLen.toNat) ∧
    (let s := { small with inLen := 1, k := 1 }
     s.inLen.toNat ≤ s.params.inCap ∧ s.inLen.toNat < 1 + s.k.toNat) ∧
    (let s := { small with inLen := 2 }
     s.inLen.toNat ≤ s.params.inCap ∧ s.k = 0 ∧ 0 < s.inLen.toNat - (1 + s.k.toNat)) ∧
    (let s := { small with inLen := 1, origLen := 261 }
     s.inLen.toNat ≤ s.params.inCap ∧ 1 + s.k.toNat ≤ s.inLen.toNat ∧ (s.k = 0 → s.inLen.toNat = 1) ∧
     s.params.outCap < s.origLen.toNat) := by decide

theorem witness_DecodeRecoversTheEncodedSymbols :
    let s := coded [0x61, 0x62] { text [0x02, 0x61, 0x62, 0x48] with origLen := 2 }
    (s.params.legal ∧ s.inLen.toNat ≤ s.params.inCap ∧ 1 + s.k.toNat ≤ s.inLen.toNat ∧ (s.k = 0 → s.inLen.toNat = 1) ∧
      s.origLen.toNat ≤ s.params.outCap ∧ ([0, 1] : List Nat).length = s.origLen.toNat ∧ (∀ r ∈ [0, 1], r < s.k.toNat) ∧
      s.inBits (1 + s.k.toNat) = payloadOf [0, 1] ++ [false, false, false]) ∧ endsRun [false, false, false] ∧
    (let s := coded [0x61] (text [0x01, 0x61, 0x80])
     s.origLen.toNat = ([] : List Nat).length ∧
     s.inBits (1 + s.k.toNat) = payloadOf [] ++ [true, false, false, false, false, false, false, false]) :=
  ⟨by decide +kernel, by simp [endsRun], by decide +kernel⟩

theorem witness_DecodeReportsTruncation :
    let s := coded [0x61] { text [0x01, 0x61, 0x54] with origLen := 4 }
    s.params.legal ∧ s.inLen.toNat ≤ s.params.inCap ∧ 1 + s.k.toNat ≤ s.inLen.toNat ∧ (s.k = 0 → s.inLen.toNat = 1) ∧
    s.origLen.toNat ≤ s.params.outCap ∧ ([0, 0, 0] : List Nat).length < s.origLen.toNat ∧ (∀ r ∈ [0, 0, 0], r < s.k.toNat) ∧
    s.inBits (1 + s.k.toNat) = payloadOf [0, 0, 0] ++ List.replicate 2 false := by decide +kernel

/-- A payload that begins with a 1 (m = 0), and a cycle whose rank is K. -/
theorem witness_DecodeReportsAnUnresolvedCycle :
    (let s := coded [0x61] { text [0x01, 0x61, 0x80] with origLen := 1 }
     s.params.legal ∧ s.inLen.toNat ≤ s.params.inCap ∧ 1 + s.k.toNat ≤ s.inLen.toNat ∧ (s.k = 0 → s.inLen.toNat = 1) ∧
     s.origLen.toNat ≤ s.params.outCap ∧ ([] : List Nat).length < s.origLen.toNat ∧ (∀ r ∈ ([] : List Nat), r < s.k.toNat) ∧
     s.inBits (1 + s.k.toNat) =
       payloadOf [] ++ List.replicate 0 false ++ List.replicate 1 true ++ List.replicate 7 false) ∧
    (let s := coded [0x61] { text [0x01, 0x61, 0x48] with origLen := 2 }
     ([0] : List Nat).length < s.origLen.toNat ∧ (∀ r ∈ [0], r < s.k.toNat) ∧
     s.inBits (1 + s.k.toNat) =
       payloadOf [0] ++ List.replicate 2 false ++ List.replicate 1 true ++ List.replicate 3 false ∧
     s.k.toNat ≤ (2 + 1 - 2) * (2 + 1 - 1) / 2 + (1 - 1)) ∧
    endsRun (List.replicate 7 false) ∧ endsRun (List.replicate 3 false) :=
  ⟨by decide +kernel, by decide +kernel, by simp [endsRun, List.replicate], by simp [endsRun, List.replicate]⟩

theorem witness_DecodeStaysInBounds :
    small.params.legal ∧ (text [0]).inLen.toNat ≤ small.params.inCap ∧ ∃ t, exec .decode (text [0]) = .next t :=
  ⟨by decide, by decide, _, rfl⟩

theorem witness_DecodeDependsOnlyOnStreamAndTable :
    let s := coded [0x61] { text [0x01, 0x61, 0x54] with origLen := 3 }
    let s' := { coded [0x61] { text [0x01, 0x61, 0x54] with origLen := 3 } with freq := Vector.replicate 256 9, outbuf := cells [7] }
    s.params = s'.params ∧ s.params.legal ∧ s.inLen = s'.inLen ∧ s.origLen = s'.origLen ∧ s.k = s'.k ∧ s.symtab = s'.symtab ∧
    (∀ i, i < s.inLen.toNat → s.inByte i = s'.inByte i) ∧ s.inLen.toNat ≤ s.params.inCap ∧
    (∃ t, exec .decode s = .next t) ∧ (∃ t', exec .decode s' = .next t') :=
  ⟨rfl, by decide, rfl, rfl, rfl, rfl, fun _ _ => rfl, by decide, ⟨_, rfl⟩, ⟨_, rfl⟩⟩

theorem witness_DecompressRecoversTheEncodedSymbols :
    let s := { text [0x02, 0x61, 0x62, 0x48] with origLen := 2 }
    (s.params.legal ∧ s.inLen.toNat ≤ s.params.inCap ∧ 1 + (s.inByte 0).toNat ≤ s.inLen.toNat ∧
      (s.inByte 0 = 0 → s.inLen.toNat = 1) ∧ s.origLen.toNat ≤ s.params.outCap ∧
      ([0, 1] : List Nat).length = s.origLen.toNat ∧ (∀ r ∈ [0, 1], r < (s.inByte 0).toNat) ∧
      s.inBits (1 + (s.inByte 0).toNat) = payloadOf [0, 1] ++ [false, false, false]) ∧ endsRun [false, false, false] ∧
    (let s := text [0x01, 0x61, 0x80]
     s.origLen.toNat = ([] : List Nat).length ∧
     s.inBits (1 + (s.inByte 0).toNat) = payloadOf [] ++ [true, false, false, false, false, false, false, false]) :=
  ⟨by decide +kernel, by simp [endsRun], by decide +kernel⟩

/-- The compressed representation of "ab" (E2), loaded back. -/
def reloaded : State := { text [0x02, 0x61, 0x62, 0x48] with origLen := 2 }

theorem reloaded_holds_the_result :
    let t := after .compress (text [0x61, 0x62])
    (text [0x61, 0x62]).params.legal ∧ t.err = .ok ∧ reloaded.params = (text [0x61, 0x62]).params ∧ reloaded.inLen = t.outLen ∧
    t.outLen.toNat ≤ reloaded.params.inCap ∧ (∀ i, i < 4 → reloaded.inByte i = t.outByte i) ∧ t.outLen.toNat = 4 ∧
    reloaded.origLen = (text [0x61, 0x62]).inLen ∧ (text [0x61, 0x62]).inLen.toNat ≤ reloaded.params.outCap := by decide +kernel

theorem witness_HeaderCarriesTheCodeTable :
    ∃ s t u v : State, s.params.legal ∧ exec .compress s = .next t ∧ t.err = .ok ∧ u.params = s.params ∧ u.inLen = t.outLen ∧
      t.outLen.toNat ≤ u.params.inCap ∧ (∀ i, i < t.outLen.toNat → u.inByte i = t.outByte i) ∧ exec .buildDec u = .next v := by
  obtain ⟨h1, h2, h3, h4, h5, h6, h7, -⟩ := reloaded_holds_the_result
  exact ⟨text [0x61, 0x62], after .compress (text [0x61, 0x62]), reloaded, _, h1, rfl, h2, h3, h4, h5,
    fun i hi => h6 i (h7 ▸ hi), rfl⟩

theorem witness_DecompressInvertsCompress :
    ∃ s t u : State, s.params.legal ∧ exec .compress s = .next t ∧ t.err = .ok ∧ u.params = s.params ∧ u.inLen = t.outLen ∧
      t.outLen.toNat ≤ u.params.inCap ∧ (∀ i, i < t.outLen.toNat → u.inByte i = t.outByte i) ∧ u.origLen = s.inLen ∧
      s.inLen.toNat ≤ u.params.outCap := by
  obtain ⟨h1, h2, h3, h4, h5, h6, h7, h8, h9⟩ := reloaded_holds_the_result
  exact ⟨text [0x61, 0x62], after .compress (text [0x61, 0x62]), reloaded, h1, rfl, h2, h3, h4, h5,
    fun i hi => h6 i (h7 ▸ hi), h8, h9⟩

end Sys2Proof.Tests
end

section
/-! PROOFS. The state of the block (10_state.md): what a step does to STATUS, what a read and a write of each register do, and
that every step keeps the invariant. It begins with the bus, goes on with the storage, command by command, and ends
with the statements. -/

namespace Sys2Proof.Machine

/-! ### The address map, read backwards (R22, R62, R63) -/

/-- CMD stands at 0x004 only (R22). -/
theorem address_of_target_cmd {p : Config.Params} {a : BusAddr} (h : target p a = some (.reg .cmd)) : a = 0x004 := by
  have index_of_cmd : ∀ i : Fin registers.length, registers.get i = .cmd → i.val = 1 := by decide
  simp only [target] at h
  split_ifs at h <;> simp only [Option.map_eq_some_iff, Option.some.injEq, Target.reg.injEq, reduceCtorEq] at h
  obtain ⟨_, hr, rfl⟩ := h
  obtain ⟨hn, he⟩ := List.getElem?_eq_some_iff.mp hr
  have h1 : a.toNat / 4 = 1 := index_of_cmd ⟨_, hn⟩ he
  refine BitVec.eq_of_toNat_eq ?_
  change a.toNat = 4
  omega

/-- The word of INBUF an address names begins at a multiple of 4 below the capacity (R62, R63). -/
theorem offset_of_target_inbuf {p : Config.Params} {a : BusAddr} {i : Nat} (h : target p a = some (.inbuf i)) :
    i % 4 = 0 ∧ i < p.inCap := by
  simp only [target] at h
  split_ifs at h <;> simp at h
  omega

/-- The word of OUTBUF an address names begins at a multiple of 4 below the capacity (R62, R63). -/
theorem offset_of_target_outbuf {p : Config.Params} {a : BusAddr} {i : Nat} (h : target p a = some (.outbuf i)) :
    i % 4 = 0 ∧ i < p.outCap := by
  simp only [target] at h
  split_ifs at h <;> simp at h
  omega

/-! ### What a transaction changes -/

/-- A read changes nothing but the response (R71). -/
theorem hostRead_frame (a : BusAddr) (width : Width) (s : State) :
    hostRead a width s = { s with response := (hostRead a width s).response } := by
  simp only [hostRead]; split <;> rfl

/-- A write to a register other than CMD changes nothing but the four read-write registers (R23, R71). -/
theorem writeReg_cases {r : Reg} {w : Word} {s t : State} (h : s.writeReg r w = some t) :
    (r = .cmd ∧ t = accept w s) ∨
    t = { s with inLen := t.inLen, origLen := t.origLen, wbase := t.wbase, wbits := t.wbits } := by
  cases r <;> simp only [State.writeReg, Option.some.injEq, reduceCtorEq] at h <;> subst h
  case cmd => exact .inl ⟨rfl, rfl⟩
  all_goals exact .inr rfl

/-- All that an accepted write can do (R63 to R66, R130). -/
theorem busWrite_cases {a : BusAddr} {width : Width} {w : Word} {s t : State} (h : busWrite a width w s = some t) :
    (s.busy = false ∧ a = 0x004 ∧ width = .w32 ∧ t = accept w s) ∨
    t = { s with inLen := t.inLen, origLen := t.origLen, wbase := t.wbase, wbits := t.wbits } ∨
    (∃ i, i % 4 = 0 ∧ i < s.params.inCap ∧ t = { s with inbuf := Memory.putBytes s.inbuf i (bytesOfWord w) }) ∨
    (∃ i, i % 4 = 0 ∧ i < s.params.outCap ∧ t = { s with outbuf := Memory.putBytes s.outbuf i (bytesOfWord w) }) := by
  simp only [busWrite] at h
  split at h
  case isFalse => cases h
  case isTrue hw =>
    cases htg : target s.params a with
    | none => rw [htg] at h; cases h
    | some tg =>
      simp only [htg] at h
      split at h
      case isTrue => cases h
      case isFalse hb =>
        cases tg with
        | reg r =>
          rcases writeReg_cases h with ⟨rfl, ht⟩ | ht
          · exact .inl ⟨by simpa using hb, address_of_target_cmd htg, hw, ht⟩
          · exact .inr (.inl ht)
        | inbuf i =>
          obtain ⟨h4, hi⟩ := offset_of_target_inbuf htg
          exact .inr (.inr (.inl ⟨i, h4, hi, (Option.some.inj h).symm⟩))
        | outbuf i =>
          obtain ⟨h4, hi⟩ := offset_of_target_outbuf htg
          exact .inr (.inr (.inr ⟨i, h4, hi, (Option.some.inj h).symm⟩))
        | freq x => cases h
        | symtab r => cases h
        | ranktab x => cases h

/-- A write leaves the response behind, and beside it what the bus did, if it accepted the write (R66). -/
theorem hostWrite_cases (a : BusAddr) (width : Width) (w : Word) (s : State) :
    hostWrite a width w s = { s with response := some .writeError } ∨
    ∃ t, busWrite a width w s = some t ∧ hostWrite a width w s = { t with response := some .done } := by
  rw [hostWrite]
  cases h : busWrite a width w s with
  | none => exact .inl rfl
  | some t => exact .inr ⟨t, rfl, rfl⟩

/-- POLL changes nothing but the response and the queue (R98). -/
theorem perform_poll_frame (s : State) :
    perform .poll s = { s with response := (perform .poll s).response, queue := (perform .poll s).queue } := by
  simp only [perform]
  rw [hostRead_frame]
  split <;> rfl

/-! ### A transaction the idle block accepts -/

theorem busRead_idle {s : State} {a : BusAddr} {tg : Target} (hb : s.busy = false) (ht : target s.params a = some tg) :
    busRead a .w32 s = some (s.readTarget tg) := by
  simp [busRead, ht, hb]

theorem busWrite_idle {s : State} {a : BusAddr} {tg : Target} (w : Word) (hb : s.busy = false)
    (ht : target s.params a = some tg) : busWrite a .w32 w s = s.writeTarget tg w := by
  simp [busWrite, ht, hb]

/-- No target is the host's side or the engine's hidden state (R49). -/
theorem readTarget_turn (s : State) (rest : List HostOp) (n : Nat) (tg : Target) :
    State.readTarget { s with queue := rest, turns := n } tg = s.readTarget tg := by
  cases tg with
  | reg r => cases r <;> rfl
  | _ => rfl

/-- A read the idle block accepts returns the target's word and changes nothing else (R61, R71). -/
theorem step_read {s : State} {a : BusAddr} {tg : Target} {rest : List HostOp} (hb : s.busy = false)
    (hq : s.queue = .read a .w32 :: rest) (ht : target s.params a = some tg) :
    step s = .next { s with turns := s.turns - 1, queue := rest, response := some (.data (s.readTarget tg)) } := by
  have hr : busRead a .w32 { s with queue := rest, turns := s.turns - 1 } = some (s.readTarget tg) :=
    (busRead_idle hb ht).trans (congrArg some (readTarget_turn ..))
  rw [step_host (by simp [hb]), hostTurn_cons hq, perform, hostRead, hr]

/-- A write the idle block accepts does what its target says (R61, R63). -/
theorem step_write {s t : State} {a : BusAddr} {w : Word} {tg : Target} {rest : List HostOp} (hb : s.busy = false)
    (hq : s.queue = .write a .w32 w :: rest) (ht : target s.params a = some tg)
    (hw : State.writeTarget { s with queue := rest, turns := s.turns - 1 } tg w = some t) :
    step s = .next { t with response := some .done } := by
  have hr : busWrite a .w32 w { s with queue := rest, turns := s.turns - 1 } = some t := by
    rw [← hw]; exact busWrite_idle w hb ht
  rw [step_host (by simp [hb]), hostTurn_cons hq, perform, hostWrite, hr]

/-- STATUS, bit by bit: BUSY at bit 0, DONE at bit 1, ERR from bit 4 on (R26). -/
theorem statusWord_eq_or (s : State) :
    s.statusWord = (BitVec.ofBool s.busy).setWidth 32 ||| ((BitVec.ofBool s.done).setWidth 32 <<< 1) |||
      (s.err.code.setWidth 32 <<< 4) := by
  refine BitVec.eq_of_getLsbD_eq fun i hi => ?_
  simp only [State.statusWord, BitVec.getLsbD_append, BitVec.getLsbD_or, BitVec.getLsbD_setWidth, BitVec.getLsbD_shiftLeft]
  interval_cases i <;> simp

/-- CYCLE, field by field: M from bit 0 on, J from bit 8 on (R37). -/
theorem cycleWord_eq_or (s : State) : s.cycleWord = s.cycleM.setWidth 32 ||| (s.cycleJ.setWidth 32 <<< 8) := by
  refine BitVec.eq_of_getLsbD_eq fun i hi => ?_
  simp only [State.cycleWord, BitVec.getLsbD_append, BitVec.getLsbD_or, BitVec.getLsbD_setWidth, BitVec.getLsbD_shiftLeft]
  interval_cases i <;> simp

/-! ### What a turn of the host does to STATUS (R27 to R29) -/

/-- Only the reset event and an accepted command touch STATUS in a turn of the host. -/
theorem perform_status {op : HostOp} {s : State} (hr : op ≠ .reset)
    (hc : ∀ w, s.busy = false → op ≠ .write 0x004 .w32 w) :
    (perform op s).busy = s.busy ∧ (perform op s).done = s.done ∧ (perform op s).err = s.err := by
  cases op with
  | read a width => rw [perform, hostRead_frame]; exact ⟨rfl, rfl, rfl⟩
  | reset => exact absurd rfl hr
  | poll => rw [perform_poll_frame]; exact ⟨rfl, rfl, rfl⟩
  | write a width w =>
    rw [perform]
    rcases hostWrite_cases a width w s with e | ⟨t, ht, e⟩ <;> rw [e]
    · exact ⟨rfl, rfl, rfl⟩
    · rcases busWrite_cases ht with ⟨hb, rfl, rfl, -⟩ | ht | ⟨i, -, -, rfl⟩ | ⟨i, -, -, rfl⟩
      · exact absurd rfl (hc w hb)
      · rw [ht]; exact ⟨rfl, rfl, rfl⟩
      · exact ⟨rfl, rfl, rfl⟩
      · exact ⟨rfl, rfl, rfl⟩

/-! ### The invariant of the storage -/

/-- A buffer is in canonical form and within its capacity (R45, R46). -/
structure BufferOk (m : Memory) (cap : Nat) : Prop where
  wf : Memory.wf m
  below : Memory.below m cap

theorem BufferOk.putBytes {m : Memory} {cap i : Nat} {ys : List Byte} (h : BufferOk m cap) (hi : i + ys.length ≤ cap) :
    BufferOk (Memory.putBytes m i ys) cap :=
  ⟨putBytes_wf ys i h.wf, putBytes_below ys h.below hi⟩

/-- SYMTAB is 0 from K on and inverts RANKTAB, whose ranks are below K (R42, R43). -/
structure CodeTableOk (k : Byte) (sym : Table Byte) (rank : Table (Option Byte)) : Prop where
  symtab_zero : ∀ r : Byte, k.toNat ≤ r.toNat → Table.entry sym r = 0
  ranktab_lt : ∀ x r : Byte, Table.entry rank x = some r → r.toNat < k.toNat ∧ Table.entry sym r = x

/-- The invariant but for STATUS and the engine's hidden state: what holds also while a command runs. -/
structure Stored (s : State) : Prop where
  legal : s.params.legal
  inbuf : BufferOk s.inbuf s.params.inCap
  outbuf : BufferOk s.outbuf s.params.outCap
  freq : ∀ x, (Table.entry s.freq x).toNat ≤ s.params.inCap
  code : CodeTableOk s.k s.symtab s.ranktab
  rbits : s.rbits.toNat ≤ 8 * s.params.inCap

theorem Inv.stored {s : State} (h : Inv s) : Stored s where
  legal := h.legal
  inbuf := ⟨h.inbuf_wf, h.inbuf_below⟩
  outbuf := ⟨h.outbuf_wf, h.outbuf_below⟩
  freq := h.freq_le
  code := ⟨h.symtab_zero, h.ranktab_lt⟩
  rbits := h.rbits_le

theorem Stored.inv {s : State} (h : Stored s) (not_both : ¬(s.busy = true ∧ s.done = true))
    (idle : s.busy = false → s.latch = 0 ∧ s.turns = 0) : Inv s where
  legal := h.legal
  not_both := not_both
  idle := idle
  inbuf_wf := h.inbuf.wf
  inbuf_below := h.inbuf.below
  outbuf_wf := h.outbuf.wf
  outbuf_below := h.outbuf.below
  freq_le := h.freq
  symtab_zero := h.code.symtab_zero
  ranktab_lt := h.code.ranktab_lt
  rbits_le := h.rbits

/-- A completion establishes what STATUS and the engine add to the invariant (R134, R49). -/
theorem Stored.inv_complete {s : State} (h : Stored s) (e : ErrCode) : Inv (complete e s) :=
  Stored.inv { h with } (by simp) (by simp)

/-! ### The two builders' tables -/

theorem codeTableOk_empty : CodeTableOk 0 (Vector.replicate 256 0) (Vector.replicate 256 none) :=
  ⟨by simp, by simp⟩

/-- BUILD_ENC's tables (R185). -/
theorem codeTableOk_buildEnc {t : Table Word} (h : (presentSymbols t).length ≠ 256) :
    CodeTableOk (BitVec.ofNat 8 (presentSymbols t).length) (rankedSymbols t) (symbolRanks t) := by
  have hle := length_presentSymbols_le t
  have hk : (BitVec.ofNat 8 (presentSymbols t).length).toNat = (presentSymbols t).length := Nat.mod_eq_of_lt (by omega)
  refine ⟨fun r hr => entry_rankedSymbols_of_le (hk ▸ hr), fun x r hx => ?_⟩
  rw [entry_symbolRanks] at hx
  split at hx
  · next hp =>
    obtain rfl := Option.some.inj hx
    have hlt := rankOf_lt_length hp
    refine ⟨?_, entry_rankedSymbols hp⟩
    rw [hk, BitVec.toNat_ofNat, Nat.mod_eq_of_lt (by omega)]
    exact hlt
  · cases hx

/-- BUILD_DEC's tables (R241). -/
theorem codeTableOk_loadHeader {xs : List Byte} (h : xs.length ≤ 255) :
    CodeTableOk (BitVec.ofNat 8 xs.length) (loadSymbols xs 0 (Vector.replicate 256 0))
      (loadRanks xs 0 (Vector.replicate 256 none)) := by
  have hk : (BitVec.ofNat 8 xs.length).toNat = xs.length := Nat.mod_eq_of_lt (by omega)
  refine ⟨fun r hr => ?_, fun x r hx => ?_⟩
  · rw [entry_loadSymbols xs 0 _ r (by omega), if_neg (by omega), entry_replicate]
  · obtain ⟨hx, -⟩ := (entry_loadRanks_eq_some h x r).mp hx
    obtain ⟨hlt, -⟩ := List.getElem?_eq_some_iff.mp hx
    refine ⟨by omega, ?_⟩
    rw [entry_loadSymbols xs 0 _ r (by omega), if_pos (by omega), Nat.sub_zero, hx, Option.getD_some]

/-! ### The updates of the state keep the storage -/

theorem stored_setOutLen {s : State} (h : Stored s) (n : Nat) : Stored (s.setOutLen n) := { h with }

theorem stored_setResult {s : State} (h : Stored s) (w : Word) : Stored (s.setResult w) := { h with }

theorem stored_startWriter {s : State} (h : Stored s) (n : Nat) : Stored (s.startWriter n) := { h with }

theorem stored_putOut {s : State} (h : Stored s) {i : Nat} {ys : List Byte} (hi : i + ys.length ≤ s.params.outCap) :
    Stored (s.putOut i ys) := { h with outbuf := h.outbuf.putBytes hi }

theorem stored_setCursor {s : State} (h : Stored s) {pos : Nat} (m j : Nat) (hpos : pos ≤ 8 * s.params.inCap) :
    Stored (s.setCursor pos m j) :=
  { h with rbits := (BitVec.toNat_ofNat pos 32 ▸ Nat.mod_le _ _).trans hpos }

/-- OUTBUF as a loop of the bit writer leaves it (R150). -/
theorem stored_of_writer {s t : State} (h : Stored s) (hf : t = { s with outbuf := t.outbuf, wbits := t.wbits })
    (hwf : Memory.wf s.outbuf → Memory.wf t.outbuf)
    (hbelow : Memory.below s.outbuf s.params.outCap → Memory.below t.outbuf s.params.outCap) : Stored t := by
  have hbuf : BufferOk t.outbuf s.params.outCap := ⟨hwf h.outbuf.wf, hbelow h.outbuf.below⟩
  rw [hf]
  exact { h with outbuf := hbuf }

/-! ### The commands keep the storage -/

theorem stored_ifInRange {s : State} {f : State → Run} (h : Stored s)
    (hf : s.inLen.toNat ≤ s.params.inCap → Stored (f s).state) : Stored (ifInRange s f).state := by
  rw [ifInRange]
  split
  · exact h
  · exact hf (by omega)

theorem stored_andThen {r : Run} {f : State → Run} (h : Stored r.state) (hf : ∀ {u : State}, Stored u → Stored (f u).state) :
    Stored (r.andThen f).state := by
  rw [Run.andThen]
  split
  · exact hf h
  · exact h

theorem stored_cleanUp {r : Run} (h : Stored r.state) : Stored r.cleanUp.state := by
  rw [Run.cleanUp]
  split
  · exact h
  · exact stored_setOutLen h 0

/-- FREQ counts no more than the input holds (R170). -/
theorem stored_runFreq {s : State} (h : Stored s) : Stored (runFreq s).state := by
  refine stored_ifInRange h fun hin => ?_
  have hcount : ∀ x, (Table.entry (counts s.input) x).toNat ≤ s.params.inCap := fun x => by
    have hlt : s.input.length < 2 ^ 32 := length_input s ▸ s.inLen.isLt
    rw [toNat_entry_counts hlt]
    exact List.count_le_length.trans (length_input s ▸ hin)
  exact { h with freq := hcount }

theorem stored_runBuildEnc {s : State} (h : Stored s) : Stored (runBuildEnc s).state := by
  rw [runBuildEnc]
  split
  · exact h
  · next hne => exact { h with code := codeTableOk_buildEnc hne }

theorem stored_runBuildDec {s : State} (h : Stored s) : Stored (runBuildDec s).state := by
  refine stored_ifInRange h fun _ => ?_
  have hlen : (s.inBytes 1 (s.inByte 0).toNat).length ≤ 255 := by
    have := (s.inByte 0).isLt
    rw [length_inBytes]; omega
  simp only [buildDecBody]
  split_ifs
  · exact h
  · exact h
  · exact h
  · exact { h with code := codeTableOk_loadHeader hlen }

/-- PUTBIT and PUTCYCLE (R155, R157). -/
theorem stored_afterAppend {s : State} (h : Stored s) (bits : List Bool) : Stored (afterAppend (appendBits bits s)).state := by
  obtain ⟨hf, hwf, hbelow⟩ := appendBits_frame bits s
  exact stored_setOutLen (stored_of_writer h hf hwf hbelow) _

/-- The header fits every legal OUTBUF (R9, R101). -/
theorem stored_encodeStart {s : State} (h : Stored s) : Stored (encodeStart s) := by
  refine stored_startWriter (stored_putOut h ?_) _
  obtain ⟨-, -, hcap, -⟩ := h.legal
  have hk := s.k.isLt
  simp only [State.header, List.length_cons, List.length_map, List.length_range]
  omega

theorem stored_runEncode {s : State} (h : Stored s) : Stored (runEncode s).state := by
  refine stored_ifInRange h fun _ => ?_
  obtain ⟨hf, -, hwf, hbelow⟩ := encodePayload_frame s.input (encodeStart s)
  exact stored_setOutLen (stored_of_writer (stored_encodeStart h) hf hwf hbelow) _

/-- The parsing loop recovers at most ORIG_LEN symbols and stays within the payload (R217). -/
theorem stored_decodeLoop {s : State} (h : Stored s) (hin : s.inLen.toNat ≤ s.params.inCap)
    (ho : s.origLen.toNat ≤ s.params.outCap) : Stored (decodeLoop s).state := by
  obtain ⟨hout, hpos⟩ := parse_bounds s.resolve s.origLen.toNat s.payload 0 0 0
  have hlen : s.payload.length = 8 * (s.inLen.toNat - (1 + s.k.toNat)) := by simp [State.payload]
  exact stored_setCursor (stored_setOutLen (stored_putOut h (by omega)) _) _ _
    (show _ ≤ 8 * s.params.inCap by omega)

theorem stored_runDecode {s : State} (h : Stored s) : Stored (runDecode s).state := by
  refine stored_ifInRange h fun hin => ?_
  have h0 : Stored (s.setCursor 0 0 0) := stored_setCursor h 0 0 (Nat.zero_le _)
  simp only [decodeBody]
  split_ifs with h1 h2 h3
  · exact stored_setOutLen h0 0
  · exact stored_setOutLen h0 0
  · exact stored_setOutLen h0 0
  · exact stored_decodeLoop h0 hin (Nat.le_of_not_lt h3)

theorem stored_runCompress {s : State} (h : Stored s) : Stored (runCompress s).state :=
  stored_cleanUp (stored_andThen (stored_andThen (stored_runFreq h) stored_runBuildEnc) stored_runEncode)

theorem stored_runDecompress {s : State} (h : Stored s) : Stored (runDecompress s).state :=
  stored_andThen (stored_cleanUp (stored_runBuildDec h)) stored_runDecode

theorem stored_getbitBody {s : State} (h : Stored s) (idx : Nat) : Stored (getbitBody idx s).state := by
  rw [getbitBody]
  split
  · exact h
  · exact stored_setResult h _

/-- Every command is some pseudocode that keeps the storage, and its completion. -/
theorem exec_keeps_stored (i : Instr) {s : State} (h : Stored s) : ∃ r : Run, exec i s = finish r ∧ Stored r.state := by
  cases i with
  | nop => exact ⟨_, rfl, h⟩
  | freq => exact ⟨_, rfl, stored_runFreq h⟩
  | buildEnc => exact ⟨_, rfl, stored_runBuildEnc h⟩
  | encode => exact ⟨_, rfl, stored_runEncode h⟩
  | buildDec => exact ⟨_, rfl, stored_runBuildDec h⟩
  | decode => exact ⟨_, rfl, stored_runDecode h⟩
  | compress => exact ⟨_, rfl, stored_runCompress h⟩
  | decompress => exact ⟨_, rfl, stored_runDecompress h⟩
  | putbit b => exact ⟨_, rfl, stored_afterAppend h [b]⟩
  | putcycle m j => exact ⟨_, rfl, stored_afterAppend h (cycleBits m j)⟩
  | getbit idx => exact ⟨_, rfl, stored_ifInRange h fun _ => stored_getbitBody h idx⟩
  | rank2mj rank => exact ⟨_, rfl, stored_setResult h _⟩
  | mj2rank m j => exact ⟨_, rfl, stored_setResult h _⟩

/-! ### A turn of the host keeps the invariant -/

/-- Every reset state meets the invariant (R300). -/
theorem inv_resetWith {p : Config.Params} (hp : p.legal) (resets accepts : Nat) (queue : List HostOp) :
    Inv (State.resetWith p resets accepts queue) := by
  have empty (cap : Nat) : BufferOk [] cap := ⟨List.Pairwise.nil, fun _ hc => nomatch hc⟩
  refine Stored.inv ⟨hp, empty _, empty _, ?_, codeTableOk_empty, ?_⟩ ?_ ?_ <;> simp [State.resetWith]

theorem inv_accept {s : State} (h : Inv s) (w : Word) : Inv (accept w s) :=
  Stored.inv { h.stored with } (by simp) (by simp)

/-- The host's queue and response are not the block's. -/
theorem inv_hostSide {s : State} (h : Inv s) (q : List HostOp) (r : Option BusResponse) :
    Inv { s with queue := q, response := r } := { h with }

/-- A word of a buffer begins at a multiple of 4, as the capacities are, so it fits (R8, R9). -/
theorem inv_busWrite {a : BusAddr} {width : Width} {w : Word} {s t : State} (h : Inv s)
    (ht : busWrite a width w s = some t) : Inv t := by
  obtain ⟨⟨hin4, -⟩, hout4, -⟩ := h.legal
  have hlen := length_bytesOfWord w
  rcases busWrite_cases ht with ⟨-, -, -, rfl⟩ | e | ⟨i, h4, hi, rfl⟩ | ⟨i, h4, hi, rfl⟩
  · exact inv_accept h w
  · rw [e]; exact { h with }
  · have hb := h.stored.inbuf.putBytes (show i + (bytesOfWord w).length ≤ s.params.inCap by omega)
    exact { h with inbuf_wf := hb.wf, inbuf_below := hb.below }
  · have hb := h.stored.outbuf.putBytes (show i + (bytesOfWord w).length ≤ s.params.outCap by omega)
    exact { h with outbuf_wf := hb.wf, outbuf_below := hb.below }

theorem inv_perform {s : State} (h : Inv s) (op : HostOp) : Inv (perform op s) := by
  cases op with
  | read a width => rw [perform, hostRead_frame]; exact inv_hostSide h _ _
  | write a width w =>
    rw [perform]
    rcases hostWrite_cases a width w s with e | ⟨t, ht, e⟩ <;> rw [e]
    · exact inv_hostSide h _ _
    · exact inv_hostSide (inv_busWrite h ht) _ _
  | reset => exact inv_resetWith h.legal _ _ _
  | poll => rw [perform_poll_frame]; exact inv_hostSide h _ _

/-- A turn used up leaves an idle engine at 0 turns. -/
theorem inv_turn {s : State} (h : Inv s) (q : List HostOp) : Inv { s with queue := q, turns := s.turns - 1 } :=
  { h with idle := fun hb => by obtain ⟨hl, ht⟩ := h.idle hb; exact ⟨hl, by simp [ht]⟩ }

theorem inv_hostTurn {s : State} (h : Inv s) : Inv (hostTurn s) := by
  cases hq : s.queue with
  | nil => rw [hostTurn_nil hq]; exact inv_turn h s.queue
  | cons op rest => rw [hostTurn_cons hq]; exact inv_perform (inv_turn h rest) op

/-! ### The statements -/

/-- Settles O14: the storage is kept by every command, and a completion or a turn of the host restores the rest. -/
theorem everyStepKeepsTheMachineInvariant : Obligations.EveryStepKeepsTheMachineInvariant := by
  intro s t h hstep
  by_cases he : s.busy = true ∧ s.turns = 0
  · rcases step_engine he with ⟨i, -, e⟩ | ⟨-, e⟩
    · obtain ⟨r, hr, hs⟩ := exec_keeps_stored i h.stored
      obtain rfl := Host.Outcome.next.inj ((e.trans hr).symm.trans hstep)
      exact hs.inv_complete r.err
    · obtain rfl := Host.Outcome.next.inj (e.symm.trans hstep)
      exact h.stored.inv_complete _
  · obtain rfl := Host.Outcome.next.inj ((step_host he).symm.trans hstep)
    exact inv_hostTurn h

/-- Settles O9: a completion by the engine's step, everything else by the host's operation. -/
theorem statusFollowsTheCommand : Obligations.StatusFollowsTheCommand := by
  intro s t hstep
  refine ⟨fun he => ?_, fun he => ?_⟩
  · rcases step_engine he with ⟨i, -, e⟩ | ⟨-, e⟩
    · obtain ⟨r, hr⟩ := exec_next i s
      obtain rfl := Host.Outcome.next.inj ((e.trans hr).symm.trans hstep)
      exact ⟨rfl, rfl⟩
    · obtain rfl := Host.Outcome.next.inj (e.symm.trans hstep)
      exact ⟨rfl, rfl⟩
  · refine ⟨fun rest hq => ?_, fun hb w rest hq => ?_, fun hr hc => ?_⟩
    · rw [step_host he, hostTurn_cons hq] at hstep
      obtain rfl := Host.Outcome.next.inj hstep
      exact ⟨rfl, rfl, rfl⟩
    · obtain rfl := Host.Outcome.next.inj ((step_write hb hq rfl rfl).symm.trans hstep)
      exact ⟨rfl, rfl, rfl⟩
    · obtain rfl := Host.Outcome.next.inj ((step_host he).symm.trans hstep)
      cases hq : s.queue with
      | nil => rw [hostTurn_nil hq]; exact ⟨rfl, rfl, rfl⟩
      | cons op rest =>
        rw [hq, List.head?_cons] at hr hc
        rw [hostTurn_cons hq]
        exact perform_status (fun e => hr (congrArg some e)) fun w hb e => hc w hb (congrArg some e)

/-- Settles O17: CMD's target accepts the word, and reads 0. -/
theorem cmdWriteIsAccepted : Obligations.CmdWriteIsAccepted :=
  ⟨fun _ _ _ hb hq => step_write hb hq rfl rfl, fun _ _ hb hq => step_read hb hq rfl⟩

/-- Settles O20: each address names its register, whose word is the list's. -/
theorem registersReadAsTheMapSays : Obligations.RegistersReadAsTheMapSays := by
  refine ⟨⟨rfl, rfl, rfl, rfl, rfl, rfl, rfl, rfl, rfl⟩, fun s a v rest h hb hq => ?_⟩
  obtain ⟨r, ht, hv⟩ : ∃ r, target s.params a = some (.reg r) ∧ s.readReg r = v := by
    rw [← statusWord_eq_or, ← cycleWord_eq_or] at h
    simp only [List.mem_cons, List.not_mem_nil, or_false, Prod.mk.injEq] at h
    rcases h with ⟨rfl, rfl⟩ | ⟨rfl, rfl⟩ | ⟨rfl, rfl⟩ | ⟨rfl, rfl⟩ | ⟨rfl, rfl⟩ | ⟨rfl, rfl⟩ | ⟨rfl, rfl⟩ | ⟨rfl, rfl⟩ |
      ⟨rfl, rfl⟩ | ⟨rfl, rfl⟩ | ⟨rfl, rfl⟩ | ⟨rfl, rfl⟩ | ⟨rfl, rfl⟩ | ⟨rfl, rfl⟩ <;> exact ⟨_, rfl, rfl⟩
  exact hv ▸ step_read hb hq ht

/-- Settles O21: each of the four addresses names its register, which stores the word. -/
theorem readWriteRegistersStoreTheirField : Obligations.ReadWriteRegistersStoreTheirField := by
  intro s w rest hb
  refine ⟨fun hq => step_write hb hq rfl rfl, fun hq => step_write hb hq rfl rfl, fun hq => ?_,
    fun hq => step_write hb hq rfl rfl⟩
  rw [BitVec.setWidth_eq_extractLsb' (by decide)]
  exact step_write hb hq rfl rfl

end Sys2Proof.Machine
end

section
/-! PROOFS. The host's view of the block (20_memory.md): which transactions the bus rejects (R66), what the windows of the
tables and the buffers hold (R63 to R65), and the storage each command writes (R73). -/

namespace Sys2Proof.Machine

/-! ### The address map, read backwards (R62 to R65) -/

/-- The byte address of a target. -/
def Target.address : Target → Nat
  | .reg r => 4 * registers.idxOf r
  | .freq x => 0x400 + 4 * x.toNat
  | .symtab r => 0x800 + 4 * r.toNat
  | .ranktab x => 0xC00 + 4 * x.toNat
  | .inbuf i => 0x10000 + i
  | .outbuf i => 0x20000 + i

theorem idxOf_registers {r : Reg} {i : Nat} (h : registers[i]? = some r) : registers.idxOf r = i := by
  obtain ⟨hi, rfl⟩ := List.getElem?_eq_some_iff.mp h
  exact List.get_idxOf (by decide) ⟨i, hi⟩

/-- A target is named by its own address and by no other. -/
theorem toNat_eq_address {p : Config.Params} {a : BusAddr} {tg : Target} (h : target p a = some tg) :
    a.toNat = tg.address := by
  simp only [target] at h
  split_ifs at h
  · obtain ⟨r, hr, rfl⟩ := Option.map_eq_some_iff.mp h
    have := idxOf_registers hr
    simp only [Target.address]
    omega
  all_goals
    obtain rfl := Option.some.inj h
    simp only [Target.address, BitVec.toNat_ofNat]
    omega

/-- The map names nothing at a misaligned and at an unmapped address (R62, R67). -/
theorem target_eq_none_iff {p : Config.Params} (hp : p.legal) (a : BusAddr) :
    target p a = none ↔ a.toNat % 4 ≠ 0 ∨ ¬mapped p a.toNat := by
  have hlen : registers.length = 14 := rfl
  simp only [target, mapped]
  split_ifs <;> simp only [Option.map_eq_none_iff, List.getElem?_eq_none_iff, hlen, false_iff, true_iff] <;> omega

/-! ### What the bus rejects (R66) -/

/-- Of the mapped targets the writable ones are CMD, the four read-write registers and the buffers (R22, R63 to R65). -/
theorem writeTarget_eq_none_iff {s : State} {a : BusAddr} {tg : Target} (w : Word) (h : target s.params a = some tg) :
    s.writeTarget tg w = none ↔ ¬writable s.params a.toNat := by
  have ha := toNat_eq_address h
  cases tg with
  | reg r => cases r <;> simp [ha, Target.address, registers, State.writeTarget, State.writeReg, writable]
  | freq x => simp only [ha, Target.address, State.writeTarget, writable, true_iff]; omega
  | symtab r => simp only [ha, Target.address, State.writeTarget, writable, true_iff]; omega
  | ranktab x => simp only [ha, Target.address, State.writeTarget, writable, true_iff]; omega
  | inbuf i => simp [ha, Target.address, State.writeTarget, writable, (offset_of_target_inbuf h).2]
  | outbuf i => simp [ha, Target.address, State.writeTarget, writable, (offset_of_target_outbuf h).2]

/-- ID stands at 0x000 and STATUS at 0x008, and nowhere else (R22). -/
theorem target_id_or_status_iff {p : Config.Params} {a : BusAddr} {tg : Target} (h : target p a = some tg) :
    tg = .reg .id ∨ tg = .reg .status ↔ a = 0x000 ∨ a = 0x008 := by
  constructor
  · rintro (rfl | rfl)
    · exact .inl (BitVec.eq_of_toNat_eq (toNat_eq_address h))
    · exact .inr (BitVec.eq_of_toNat_eq (toNat_eq_address h))
  · rintro (rfl | rfl)
    · exact .inl (Option.some.inj h).symm
    · exact .inr (Option.some.inj h).symm

theorem busRead_eq_none_iff {s : State} (hp : s.params.legal) (a : BusAddr) (width : Width) :
    busRead a width s = none ↔ readRejected s a width := by
  have hnone := target_eq_none_iff hp a
  by_cases hw : width = .w32
  · cases ht : target s.params a with
    | none =>
      have := hnone.mp ht
      simp only [busRead, readRejected, ht, if_pos hw]
      tauto
    | some tg =>
      have hmap := mt hnone.mpr (by simp [ht])
      have hreg := target_id_or_status_iff ht
      simp only [busRead, readRejected, ht, if_pos hw, Bool.and_eq_true, Bool.not_eq_true', Bool.or_eq_false_iff,
        beq_eq_false_iff_ne, ite_eq_left_iff, reduceCtorEq, imp_false, not_not]
      tauto
  · simp [busRead, readRejected, hw]

/-- A write is refused for its width, for its address, while a command runs, or for what the address names. -/
theorem busWrite_eq_none_iff {s : State} (a : BusAddr) (width : Width) (w : Word) :
    busWrite a width w s = none ↔
      width ≠ .w32 ∨ target s.params a = none ∨ ¬writable s.params a.toNat ∨ s.busy = true := by
  by_cases hw : width = .w32
  · cases ht : target s.params a with
    | none => simp [busWrite, ht]
    | some tg =>
      have htg := writeTarget_eq_none_iff w ht
      cases hb : s.busy <;> simp [busWrite, ht, hw, hb, htg]
  · simp [busWrite, hw]

theorem mapped_of_writable {p : Config.Params} {n : Nat} (h : writable p n) : mapped p n := by
  simp only [writable, mapped] at h ⊢
  omega

theorem busWrite_eq_none_iff_writeRejected {s : State} (hp : s.params.legal) (a : BusAddr) (width : Width) (w : Word) :
    busWrite a width w s = none ↔ writeRejected s a width := by
  have hmap := mt (mapped_of_writable (p := s.params) (n := a.toNat))
  rw [busWrite_eq_none_iff, target_eq_none_iff hp, writeRejected]
  tauto

/-- An accepted write leaves the host's pending operations alone. -/
theorem busWrite_queue {a : BusAddr} {width : Width} {w : Word} {s t : State} (h : busWrite a width w s = some t) :
    t.queue = s.queue := by
  rcases busWrite_cases h with ⟨-, -, -, rfl⟩ | ht | ⟨i, -, -, rfl⟩ | ⟨i, -, -, rfl⟩
  · rfl
  · rw [ht]
  · rfl
  · rfl

/-! ### A turn of the host that is a read or a write (R61) -/

/-- The state in which the host performs the operation it has just taken from its queue. -/
def State.hostReady (s : State) (rest : List HostOp) : State := { s with queue := rest, turns := s.turns - 1 }

section
variable {s : State} {a : BusAddr} {width : Width} {w : Word} {rest : List HostOp}
  (he : ¬(s.busy = true ∧ s.turns = 0))
include he

theorem step_hostRead (hq : s.queue = .read a width :: rest) : step s = .next (hostRead a width (s.hostReady rest)) := by
  rw [step_host he, hostTurn_cons hq]; rfl

theorem step_hostWrite (hq : s.queue = .write a width w :: rest) :
    step s = .next (hostWrite a width w (s.hostReady rest)) := by
  rw [step_host he, hostTurn_cons hq]; rfl

/-- A read the bus rejects returns the data word 0 and changes nothing (R66). -/
theorem step_read_rejected (hq : s.queue = .read a width :: rest) (h : busRead a width (s.hostReady rest) = none) :
    step s = .next { s with turns := s.turns - 1, queue := rest, response := some (.readError 0) } := by
  rw [step_hostRead he hq, hostRead, h]; rfl

/-- A write the bus rejects changes nothing (R66). -/
theorem step_write_rejected (hq : s.queue = .write a width w :: rest)
    (h : busWrite a width w (s.hostReady rest) = none) :
    step s = .next { s with turns := s.turns - 1, queue := rest, response := some .writeError } := by
  rw [step_hostWrite he hq, hostWrite, h]; rfl

end

/-! ### The storage each command writes (R73) -/

/-- The storage a command can write, grouped as R73 lists it. -/
inductive Storage where
  | freq
  | codeTable
  | wbase
  | wbits
  | output
  | cursor
  | result

/-- The table of R73: who writes what. -/
def writes : Storage → Instr → Bool
  | .freq, .freq => true
  | .freq, .compress => true
  | .codeTable, .buildEnc => true
  | .codeTable, .buildDec => true
  | .codeTable, .compress => true
  | .codeTable, .decompress => true
  | .wbase, .encode => true
  | .wbase, .compress => true
  | .wbits, .encode => true
  | .wbits, .compress => true
  | .wbits, .putbit _ => true
  | .wbits, .putcycle _ _ => true
  | .output, .encode => true
  | .output, .decode => true
  | .output, .compress => true
  | .output, .decompress => true
  | .output, .putbit _ => true
  | .output, .putcycle _ _ => true
  | .cursor, .decode => true
  | .cursor, .decompress => true
  | .result, .getbit _ => true
  | .result, .rank2mj _ => true
  | .result, .mj2rank _ _ => true
  | _, _ => false

/-- The state s with the storage that the command writes as t holds it. -/
def State.writtenBy (i : Instr) (s t : State) : State :=
  { s with
    freq := bif writes .freq i then t.freq else s.freq
    k := bif writes .codeTable i then t.k else s.k
    symtab := bif writes .codeTable i then t.symtab else s.symtab
    ranktab := bif writes .codeTable i then t.ranktab else s.ranktab
    wbase := bif writes .wbase i then t.wbase else s.wbase
    wbits := bif writes .wbits i then t.wbits else s.wbits
    outLen := bif writes .output i then t.outLen else s.outLen
    outbuf := bif writes .output i then t.outbuf else s.outbuf
    rbits := bif writes .cursor i then t.rbits else s.rbits
    cycleM := bif writes .cursor i then t.cycleM else s.cycleM
    cycleJ := bif writes .cursor i then t.cycleJ else s.cycleJ
    result := bif writes .result i then t.result else s.result }

theorem getbit_frame (idx : Nat) (s : State) : (ifInRange s (getbitBody idx)).state =
    { s with result := (ifInRange s (getbitBody idx)).state.result } := by
  simp only [ifInRange, getbitBody]; split_ifs <;> rfl

/-- Every command is some pseudocode that changes only the storage the table lists for it, and its completion. -/
theorem exec_frame (i : Instr) (s : State) : ∃ r : Run, exec i s = finish r ∧ r.state = s.writtenBy i r.state := by
  cases i with
  | nop => exact ⟨_, rfl, rfl⟩
  | freq => exact ⟨_, rfl, runFreq_frame s⟩
  | buildEnc => exact ⟨_, rfl, runBuildEnc_frame s⟩
  | encode => exact ⟨_, rfl, runEncode_frame s⟩
  | buildDec => exact ⟨_, rfl, runBuildDec_frame s⟩
  | decode => exact ⟨_, rfl, runDecode_frame s⟩
  | compress => exact ⟨_, rfl, runCompress_frame s⟩
  | decompress => exact ⟨_, rfl, runDecompress_frame s⟩
  | putbit b => exact ⟨_, rfl, afterAppend_frame [b] s⟩
  | putcycle m j => exact ⟨_, rfl, afterAppend_frame (cycleBits m j) s⟩
  | getbit idx => exact ⟨_, rfl, getbit_frame idx s⟩
  | rank2mj rank => exact ⟨_, rfl, rfl⟩
  | mj2rank m j => exact ⟨_, rfl, rfl⟩

/-! ### The statements -/

/-- Settles O19: a transaction is rejected exactly when the bus answers none. -/
theorem exactlyTheListedTransactionsAreRejected : Obligations.ExactlyTheListedTransactionsAreRejected := by
  intro s rest hp he
  refine ⟨fun a width hq => ?_, fun a width w hq => ?_⟩
  · have hiff : busRead a width (s.hostReady rest) = none ↔ readRejected s a width := busRead_eq_none_iff hp a width
    refine ⟨fun hr => step_read_rejected he hq (hiff.mpr hr), fun hr => ?_⟩
    obtain ⟨w, hw⟩ := Option.ne_none_iff_exists'.mp (mt hiff.mp hr)
    exact ⟨w, by rw [step_hostRead he hq, hostRead, hw]; rfl⟩
  · have hiff : busWrite a width w (s.hostReady rest) = none ↔ writeRejected s a width :=
      busWrite_eq_none_iff_writeRejected (s := s.hostReady rest) hp a width w
    refine ⟨fun hr => step_write_rejected he hq (hiff.mpr hr), fun hr => ?_⟩
    obtain ⟨t, ht⟩ := Option.ne_none_iff_exists'.mp (mt hiff.mp hr)
    exact ⟨{ t with response := some .done }, by rw [step_hostWrite he hq, hostWrite, ht], rfl, busWrite_queue ht⟩

/-- Settles O22: a word of a window is the four bytes from its offset on. -/
theorem bufferWindowsHoldTheirBytes : Obligations.BufferWindowsHoldTheirBytes := by
  refine ⟨fun s n w rest hp hb hn => ?_, fun s n w rest hp hb hn => ?_⟩
  · have ht := target_inbuf hp (by omega) hn
    have hbyte (i : Nat) := inByte_putWord s (4 * n) i w
    refine ⟨fun hq => ⟨_, step_write hb hq ht rfl, fun d hd => ?_, fun i hi => ?_, rfl⟩, fun hq => step_read hb hq ht⟩
    · refine (hbyte (4 * n + d)).trans ?_
      rw [if_pos (by omega), Nat.add_sub_cancel_left]
    · exact (hbyte i).trans (if_neg (by omega))
  · have ht := target_outbuf hp (by omega) hn
    have hbyte (i : Nat) := outByte_putWord s (4 * n) i w
    refine ⟨fun hq => ⟨_, step_write hb hq ht rfl, fun d hd => ?_, fun i hi => ?_, rfl⟩, fun hq => step_read hb hq ht⟩
    · refine (hbyte (4 * n + d)).trans ?_
      rw [if_pos (by omega), Nat.add_sub_cancel_left]
    · exact (hbyte i).trans (if_neg (by omega))

/-- Settles O23: each window's address names its entry, and no address of a table is writable. -/
theorem tableWindowsReadTheTables : Obligations.TableWindowsReadTheTables := by
  intro s x rest hb
  refine ⟨fun hq => step_read hb hq (target_freq _ x), fun hq => step_read hb hq (target_symtab _ x), fun r hr hq => ?_,
    fun hr hq => ?_, fun a w hlo hhi hq => ?_⟩
  · have h := step_read hb hq (target_ranktab _ x)
    rwa [State.readTarget, hr] at h
  · have h := step_read hb hq (target_ranktab _ x)
    rwa [State.readTarget, hr] at h
  · have hro : ¬writable s.params a.toNat := by simp only [writable]; omega
    exact step_write_rejected (by simp [hb]) hq ((busWrite_eq_none_iff ..).mpr (.inr (.inr (.inl hro))))

/-- Settles O11: a command that the table of R73 does not list for some storage keeps it. -/
theorem commandsWriteOnlyTheirStorage : Obligations.CommandsWriteOnlyTheirStorage := by
  intro i s
  obtain ⟨r, hr, hf⟩ := exec_frame i s
  have kept {α : Type} (f : State → α) : f r.state = f (s.writtenBy i r.state) := congrArg f hf
  refine ⟨complete r.err r.state, hr, kept State.inLen, kept State.origLen,
    inByte_congr (kept State.inbuf) (kept State.resets), kept State.params, kept State.queue, kept State.response,
    kept State.resets, kept State.accepts, fun h₁ h₂ => ?_, fun h₁ h₂ h₃ h₄ => ?_, fun h₁ h₂ => ?_, fun h₁ h₂ h₃ h₄ => ?_,
    fun h₁ h₂ h₃ h₄ h₅ h₆ => ?_, fun h₁ h₂ => ?_, fun h₁ h₂ h₃ => ?_⟩
  · have hw : writes .freq i = false := by simp [writes, *]
    exact (kept State.freq).trans (Bool.cond_neg hw)
  · have hw : writes .codeTable i = false := by simp [writes, *]
    exact ⟨(kept State.k).trans (Bool.cond_neg hw), (kept State.symtab).trans (Bool.cond_neg hw),
      (kept State.ranktab).trans (Bool.cond_neg hw)⟩
  · have hw : writes .wbase i = false := by simp [writes, *]
    exact (kept State.wbase).trans (Bool.cond_neg hw)
  · have hw : writes .wbits i = false := by simp [writes, *]
    exact (kept State.wbits).trans (Bool.cond_neg hw)
  · have hw : writes .output i = false := by simp [writes, *]
    have hbuf : r.state.outbuf = s.outbuf := (kept State.outbuf).trans (Bool.cond_neg hw)
    exact ⟨(kept State.outLen).trans (Bool.cond_neg hw), outByte_congr hbuf (kept State.resets)⟩
  · have hw : writes .cursor i = false := by simp [writes, *]
    exact ⟨(kept State.rbits).trans (Bool.cond_neg hw), (kept State.cycleM).trans (Bool.cond_neg hw),
      (kept State.cycleJ).trans (Bool.cond_neg hw)⟩
  · have hw : writes .result i = false := by simp [writes, *]
    exact (kept State.result).trans (Bool.cond_neg hw)

end Sys2Proof.Machine
end

section
/-! PROOFS. The command words (30_encoding.md R90 to R95): a row of the opcode map is selected by its OP and by the fields its
format marks 0, no word selects two rows, so the decoder answers the row that is selected; and the statements about decoding
and encoding. -/

namespace Sys2Proof

/-! ### A masked comparison, field by field -/

/-- A field is 0 when each of its bits is. -/
theorem extractLsb'_eq_zero_iff {w : Word} {lo n : Nat} :
    w.extractLsb' lo n = 0 ↔ ∀ i < 32, lo ≤ i → i < lo + n → w.getLsbD i = false := by
  constructor
  · intro h i _ hlo hhi
    have hbit := congrArg (fun v => v.getLsbD (i - lo)) h
    have hlt : i - lo < n := by omega
    simpa [hlt, Nat.add_sub_cancel' hlo] using hbit
  · intro h
    refine BitVec.eq_of_getLsbD_eq fun i hi => ?_
    by_cases h32 : lo + i < 32
    · simp [h (lo + i) h32 (by omega) (by omega)]
    · simp [BitVec.getLsbD_of_ge w (lo + i) (by omega)]

/-- One of the listed fields (low bit, width) holds bit i of a word. -/
def covers (fs : List (Nat × Nat)) (i : Nat) : Bool := fs.any fun f => decide (f.1 ≤ i) && decide (i < f.1 + f.2)

theorem covers_iff {fs : List (Nat × Nat)} {i : Nat} : covers fs i = true ↔ ∃ f ∈ fs, f.1 ≤ i ∧ i < f.1 + f.2 := by
  simp only [covers, List.any_eq_true, Bool.and_eq_true, decide_eq_true_eq]

/-- A mask that covers OP and the listed fields compares OP, and asks the listed fields to be 0. -/
theorem and_eq_op_iff {w mask : Word} {op : BitVec 4} {zs : List (Nat × Nat)} (hz : ∀ f ∈ zs, 4 ≤ f.1)
    (hm : ∀ i < 32, mask.getLsbD i = (decide (i < 4) || covers zs i)) :
    w &&& mask = 0#28 ++ op ↔ w.extractLsb' 0 4 = op ∧ ∀ f ∈ zs, w.extractLsb' f.1 f.2 = 0 := by
  have hop (i : Nat) : (0#28 ++ op : Word).getLsbD i = (decide (i < 4) && op.getLsbD i) := by
    rw [BitVec.getLsbD_append]; by_cases h : i < 4 <;> simp [h]
  constructor
  · intro h
    have hbit (i : Nat) : (w.getLsbD i && mask.getLsbD i) = (decide (i < 4) && op.getLsbD i) := by
      rw [← hop, ← h, BitVec.getLsbD_and]
    refine ⟨BitVec.eq_of_getLsbD_eq fun i hi => ?_, fun f hf => extractLsb'_eq_zero_iff.mpr fun i hi hlo hhi => ?_⟩
    · simpa [hm i (by omega), hi] using hbit i
    · have hcov : mask.getLsbD i = true := by
        rw [hm i hi, Bool.or_eq_true, covers_iff]
        exact .inr ⟨f, hf, hlo, hhi⟩
      have h4 : ¬i < 4 := by have := hz f hf; omega
      simpa [hcov, h4] using hbit i
  · rintro ⟨rfl, hzero⟩
    refine BitVec.eq_of_getLsbD_eq fun i hi => ?_
    rw [BitVec.getLsbD_and, hop, hm i hi]
    by_cases h4 : i < 4
    · simp [h4]
    · cases hin : covers zs i with
      | false => simp [h4]
      | true =>
        obtain ⟨f, hf, hlo, hhi⟩ := covers_iff.mp hin
        simp [h4, extractLsb'_eq_zero_iff.mp (hzero f hf) i hi hlo hhi]

/-! ### Which words select which row (R91, R93) -/

/-- The fields (low bit, width) that the format of row `op` marks 0 (R91). -/
def reservedFields : Nat → List (Nat × Nat)
  | 0x8 => [(4, 4), (9, 23)]
  | 0x9 => [(4, 4), (13, 3), (21, 11)]
  | 0xA => [(4, 4)]
  | 0xB => [(4, 4), (16, 16)]
  | 0xC => [(4, 4), (13, 3), (21, 11)]
  | _ => [(4, 4), (8, 24)]

theorem mtch_get_rows : ∀ a : Fin rows.length, (rows.get a).mtch = 0#28 ++ BitVec.ofNat 4 a := by decide

theorem mask_get_rows : ∀ a : Fin rows.length, ∀ i < 32, (rows.get a).mask.getLsbD i =
    (decide (i < 4) || covers (reservedFields a) i) := by decide

theorem reservedFields_above_op : ∀ a : Fin rows.length, ∀ f ∈ reservedFields a, 4 ≤ f.1 := by decide

/-- A row is selected by the words that hold its OP, which is its place in the map, and 0 in the fields its format marks 0. -/
theorem selects_iff (a : Fin rows.length) (w : Word) : (rows.get a).selects w = true ↔
    w.extractLsb' 0 4 = BitVec.ofNat 4 a ∧ ∀ f ∈ reservedFields a, w.extractLsb' f.1 f.2 = 0 := by
  rw [Row.selects, beq_iff_eq, mtch_get_rows, and_eq_op_iff (reservedFields_above_op a) (mask_get_rows a)]

theorem op_of_selects {a : Fin rows.length} {w : Word} (h : (rows.get a).selects w = true) :
    (w.extractLsb' 0 4).toNat = a := by
  have ha : a.val < 13 := a.isLt
  rw [((selects_iff a w).mp h).1, BitVec.toNat_ofNat, Nat.mod_eq_of_lt (by omega)]

/-- No word selects two rows (R94). -/
theorem selects_unique {w : Word} {a b : Fin rows.length} (ha : (rows.get a).selects w = true)
    (hb : (rows.get b).selects w = true) : a = b :=
  Fin.ext ((op_of_selects ha).symm.trans (op_of_selects hb))

/-- What the decoder finds is a row of the map that the word selects. -/
theorem selects_of_find {w : Word} {r : Row} (h : rows.find? (fun r => Row.selects r w) = some r) :
    ∃ a : Fin rows.length, rows.get a = r ∧ (rows.get a).selects w = true := by
  obtain ⟨a, ha⟩ := List.mem_iff_get.mp (List.mem_of_find?_eq_some h)
  exact ⟨a, ha, by rw [ha]; exact List.find?_some (p := fun r => Row.selects r w) h⟩

/-- The decoder answers with the command of the row a word selects (R94). -/
theorem decode_of_selects {w : Word} {a : Fin rows.length} (h : (rows.get a).selects w = true) :
    decode w = .command ((rows.get a).build w) := by
  have hsome : (rows.find? fun r => Row.selects r w).isSome := List.find?_isSome.mpr ⟨rows.get a, List.get_mem rows a, h⟩
  obtain ⟨r, hr⟩ := Option.isSome_iff_exists.mp hsome
  obtain ⟨b, rfl, hb⟩ := selects_of_find hr
  rw [selects_unique h hb, decode, hr]

/-- A word decodes to a command only by selecting a row (R94). -/
theorem selects_of_decode {w : Word} {i : Instr} (h : decode w = .command i) :
    ∃ a : Fin rows.length, (rows.get a).selects w = true ∧ (rows.get a).build w = i := by
  rw [decode] at h
  split at h
  next r hr =>
    obtain ⟨a, rfl, ha⟩ := selects_of_find hr
    exact ⟨a, ha, Decoded.command.inj h⟩
  next => split at h <;> cases h

/-- A word that passes the mask of a row whose fields make the command i decodes to i. -/
theorem decode_eq_of_row {w : Word} {i : Instr} (a : Fin rows.length) (h : w &&& (rows.get a).mask = (rows.get a).mtch)
    (hi : (rows.get a).build w = i) : decode w = .command i := by
  rw [decode_of_selects (beq_iff_eq.mpr h), hi]

/-- The illegal words (R95): OP is above the map's, or a field that OP's format marks 0 is not. -/
theorem illegal_iff (w : Word) : (∀ i, decode w ≠ .command i) ↔
    13 ≤ (w.extractLsb' 0 4).toNat ∨ ∃ f ∈ reservedFields (w.extractLsb' 0 4).toNat, w.extractLsb' f.1 f.2 ≠ 0 := by
  constructor
  · intro hill
    by_contra hlegal
    push Not at hlegal
    obtain ⟨hop, hzero⟩ := hlegal
    have hrow : w.extractLsb' 0 4 = BitVec.ofNat 4 (w.extractLsb' 0 4).toNat := by
      rw [BitVec.ofNat_toNat, BitVec.setWidth_eq]
    have hsel : (rows.get ⟨_, hop⟩).selects w = true := (selects_iff _ w).mpr ⟨hrow, hzero⟩
    exact hill _ (decode_of_selects hsel)
  · intro hres i hi
    obtain ⟨a, ha, -⟩ := selects_of_decode hi
    have ha13 : a.val < 13 := a.isLt
    rw [op_of_selects ha] at hres
    rcases hres with h | ⟨f, hf, hne⟩
    · omega
    · exact hne (((selects_iff a w).mp ha).2 f hf)

/-! ### Words and operands, format by format (R91, R92) -/

theorem field_lt (hi lo : Nat) (w : Word) : field hi lo w < 2 ^ (hi - lo + 1) := (w.extractLsb hi lo).isLt

theorem ofNat_field (hi lo : Nat) (w : Word) : BitVec.ofNat (hi - lo + 1) (field hi lo w) = w.extractLsb' lo (hi - lo + 1) :=
  (BitVec.ofNat_toNat ..).trans (BitVec.setWidth_eq _)

/-- An operand a field can hold is kept. -/
theorem toNat_ofNat_of_lt {n k : Nat} (h : n < 2 ^ k) : (BitVec.ofNat k n).toNat = n := by
  rw [BitVec.toNat_ofNat, Nat.mod_eq_of_lt h]

/-- A word of format MJ passes its mask, and its fields are the operands it was made of. -/
theorem fields_of_mj {m j : Nat} (hm : m ≤ 31) (hj : j ≤ 31) (op : BitVec 4) :
    let w : Word := 0#11 ++ BitVec.ofNat 5 j ++ 0#3 ++ BitVec.ofNat 5 m ++ 0#4 ++ op
    w &&& 0xFFE0E0FF = 0#28 ++ op ∧ field 12 8 w = m ∧ field 20 16 w = j := by
  obtain ⟨hmask, hfm, hfj⟩ := fields_mj (BitVec.ofNat 5 m) (BitVec.ofNat 5 j) op
  exact ⟨hmask, (congrArg BitVec.toNat hfm).trans (toNat_ofNat_of_lt (by omega)),
    (congrArg BitVec.toNat hfj).trans (toNat_ofNat_of_lt (by omega))⟩

/-- A word that passes the mask of format MJ is the word of its operands. -/
theorem word_of_fields_mj {w : Word} {op : BitVec 4} (h : w &&& 0xFFE0E0FF = 0#28 ++ op) :
    0#11 ++ BitVec.ofNat 5 (field 20 16 w) ++ 0#3 ++ BitVec.ofNat 5 (field 12 8 w) ++ 0#4 ++ op = w := by
  have hj : BitVec.ofNat 5 (field 20 16 w) = w.extractLsb' 16 5 := ofNat_field 20 16 w
  have hm : BitVec.ofNat 5 (field 12 8 w) = w.extractLsb' 8 5 := ofNat_field 12 8 w
  rw [hj, hm, word_of_mj h]

/-- Every operand that the fields M and J can hold is in range (R97). -/
theorem fields_mj_le (w : Word) : (decide (field 12 8 w ≤ 31) && decide (field 20 16 w ≤ 31)) = true := by
  have hm := field_lt 12 8 w
  have hj := field_lt 20 16 w
  simp only [Bool.and_eq_true, decide_eq_true_eq]
  omega

/-- A word of format X passes its mask, and its field is the operand it was made of. -/
theorem fields_of_x {idx : Nat} (hidx : idx < 2 ^ 24) (op : BitVec 4) :
    let w : Word := BitVec.ofNat 24 idx ++ 0#4 ++ op
    w &&& 0x000000FF = 0#28 ++ op ∧ field 31 8 w = idx := by
  have fields (x : BitVec 24) : (x ++ 0#4 ++ op) &&& 0x000000FF = 0#28 ++ op ∧ (x ++ 0#4 ++ op).extractLsb' 8 24 = x := by
    refine ⟨?_, ?_⟩ <;> refine BitVec.eq_of_getLsbD_eq fun i hi => ?_ <;>
      simp only [BitVec.getLsbD_and, BitVec.getLsbD_append, BitVec.getLsbD_extractLsb'] <;> interval_cases i <;> simp
  obtain ⟨hmask, hx⟩ := fields (BitVec.ofNat 24 idx)
  exact ⟨hmask, (congrArg BitVec.toNat hx).trans (toNat_ofNat_of_lt hidx)⟩

/-- A word that passes the mask of format X is the word of its operand. -/
theorem word_of_field_x {w : Word} {op : BitVec 4} (h : w &&& 0x000000FF = 0#28 ++ op) :
    BitVec.ofNat 24 (field 31 8 w) ++ 0#4 ++ op = w := by
  have hidx : BitVec.ofNat 24 (field 31 8 w) = w.extractLsb' 8 24 := ofNat_field 31 8 w
  rw [hidx, word_of_x h]

/-- A word of format RK passes its mask, and its field is the operand it was made of. -/
theorem fields_of_rk {rank : Nat} (hrank : rank ≤ 255) (op : BitVec 4) :
    let w : Word := 0#16 ++ BitVec.ofNat 8 rank ++ 0#4 ++ op
    w &&& 0xFFFF00FF = 0#28 ++ op ∧ field 15 8 w = rank := by
  have fields (r : BitVec 8) :
      (0#16 ++ r ++ 0#4 ++ op) &&& 0xFFFF00FF = 0#28 ++ op ∧ (0#16 ++ r ++ 0#4 ++ op).extractLsb' 8 8 = r := by
    refine ⟨?_, ?_⟩ <;> refine BitVec.eq_of_getLsbD_eq fun i hi => ?_ <;>
      simp only [BitVec.getLsbD_and, BitVec.getLsbD_append, BitVec.getLsbD_extractLsb'] <;> interval_cases i <;> simp
  obtain ⟨hmask, hr⟩ := fields (BitVec.ofNat 8 rank)
  exact ⟨hmask, (congrArg BitVec.toNat hr).trans (toNat_ofNat_of_lt (by omega))⟩

/-- A word that passes the mask of format RK is the word of its operand. -/
theorem word_of_field_rk {w : Word} {op : BitVec 4} (h : w &&& 0xFFFF00FF = 0#28 ++ op) :
    0#16 ++ BitVec.ofNat 8 (field 15 8 w) ++ 0#4 ++ op = w := by
  have hrank : BitVec.ofNat 8 (field 15 8 w) = w.extractLsb' 8 8 := ofNat_field 15 8 w
  rw [hrank, word_of_rk h]

/-- The mask of format N covers every bit: the word is the row's own. -/
theorem word_of_n {w k : Word} (h : w &&& 0xFFFFFFFF = k) : k = w := h.symm.trans BitVec.and_allOnes

/-! ### The statements -/

/-- Settles O1: the word of a command selects the row of its OP, and the fields hold operands in range undiminished. -/
theorem decodeInvertsEncode : Obligations.DecodeInvertsEncode := by
  intro i hwf
  cases i with
  | putbit b => cases b <;> rfl
  | putcycle m j =>
    simp only [wellFormed, Bool.and_eq_true, decide_eq_true_eq] at hwf
    obtain ⟨hmask, hm, hj⟩ := fields_of_mj hwf.1 hwf.2 0x9
    exact decode_eq_of_row ⟨0x9, by decide⟩ hmask (congrArg₂ Instr.putcycle hm hj)
  | getbit idx =>
    obtain ⟨hmask, hidx⟩ := fields_of_x (of_decide_eq_true hwf) 0xA
    exact decode_eq_of_row ⟨0xA, by decide⟩ hmask (congrArg Instr.getbit hidx)
  | rank2mj rank =>
    obtain ⟨hmask, hrank⟩ := fields_of_rk (of_decide_eq_true hwf) 0xB
    exact decode_eq_of_row ⟨0xB, by decide⟩ hmask (congrArg Instr.rank2mj hrank)
  | mj2rank m j =>
    simp only [wellFormed, Bool.and_eq_true, decide_eq_true_eq] at hwf
    obtain ⟨hmask, hm, hj⟩ := fields_of_mj hwf.1 hwf.2 0xC
    exact decode_eq_of_row ⟨0xC, by decide⟩ hmask (congrArg₂ Instr.mj2rank hm hj)
  | _ => rfl

/-- Settles O2: the fields of the selected row put the word together again. -/
theorem encodeInvertsDecode : Obligations.EncodeInvertsDecode := by
  intro w i hi
  obtain ⟨a, hsel, rfl⟩ := selects_of_decode hi
  have hmask := beq_iff_eq.mp hsel
  fin_cases a
  iterate 8 exact ⟨rfl, word_of_n hmask⟩
  · exact ⟨rfl, word_of_b hmask⟩
  · exact ⟨fields_mj_le w, word_of_fields_mj hmask⟩
  · exact ⟨decide_eq_true (field_lt 31 8 w), word_of_field_x hmask⟩
  · exact ⟨decide_eq_true (Nat.le_of_lt_succ (field_lt 15 8 w)), word_of_field_rk hmask⟩
  · exact ⟨fields_mj_le w, word_of_fields_mj hmask⟩

/-- Settles O3: rows differ in OP (R94), and the words that select none are those of R95. -/
theorem everyWordSelectsOneRowOrIsReserved : Obligations.EveryWordSelectsOneRowOrIsReserved := by
  refine ⟨fun w a b => selects_unique, fun w => (illegal_iff w).trans ?_⟩
  generalize hop : w.extractLsb' 0 4 = op
  have hlt : op.toNat < 16 := op.isLt
  simp only [BitVec.toNat_eq (x := op)]
  generalize op.toNat = n at *
  interval_cases n <;> simp [reservedFields]

/-- Settles O4: each word is the command's own, so O1 decodes it. -/
theorem writtenOutWordsDecode : Obligations.WrittenOutWordsDecode :=
  ⟨decodeInvertsEncode .compress rfl, decodeInvertsEncode (.putbit true) rfl, decodeInvertsEncode (.putcycle 3 4) rfl,
    decodeInvertsEncode (.getbit 2047) rfl, decodeInvertsEncode (.rank2mj 254) rfl, decodeInvertsEncode (.mj2rank 1 31) rfl⟩

end Sys2Proof
end

section
/-! PROOFS. The assembler (30_encoding.md R97): a numeral reads back as its number, a line falls apart into its mnemonic and its
numerals, and a mnemonic with its operands makes one command or none. -/

namespace Sys2Proof.Machine

/-! ### Numerals -/

/-- What a digit's character is: a digit again when read, and none of the characters that give a line its shape. -/
theorem digitChar_spec : ∀ d < 16,
    digitValue (digitChar d) = some d ∧ digitChar d ≠ ' ' ∧ digitChar d ≠ ',' ∧ digitChar d ≠ 'x' := by decide

/-- Digits are read one text after the other. -/
theorem digits_append (radix : Nat) (cs ds : List Char) : ∀ n,
    digits radix n (cs ++ ds) = (digits radix n cs).bind fun v => digits radix v ds := by
  induction cs with
  | nil => intro n; rfl
  | cons c cs ih =>
    intro n
    rw [List.cons_append, digits, digits]
    cases digitValue c with
    | none => rfl
    | some d => by_cases hd : d < radix <;> simp [hd, ih]

theorem digits_digitChar {radix d : Nat} (hr : radix ≤ 16) (hd : d < radix) (n : Nat) :
    digits radix n [digitChar d] = some (radix * n + d) := by
  simp [digits, (digitChar_spec d (by omega)).1, hd]

/-- The digits of a number read back as that number. -/
theorem digits_digitsOf {radix : Nat} (h2 : 2 ≤ radix) (h16 : radix ≤ 16) : ∀ {fuel n : Nat}, n ≤ fuel →
    digits radix 0 (digitsOf radix fuel n) = some n := by
  intro fuel
  induction fuel with
  | zero =>
    intro n hn
    obtain rfl : n = 0 := by omega
    simp [digitsOf, digits_digitChar h16 (show 0 < radix by omega)]
  | succ fuel ih =>
    intro n hn
    rw [digitsOf]
    split
    next hlt => rw [digits_digitChar h16 hlt, Nat.mul_zero, Nat.zero_add]
    next hge =>
      have hdiv : n / radix < n := Nat.div_lt_self (by omega) h2
      rw [digits_append, ih (by omega), Option.bind_some, digits_digitChar h16 (Nat.mod_lt _ (by omega)), Nat.div_add_mod]

theorem digitsOf_ne_nil (radix fuel n : Nat) : digitsOf radix fuel n ≠ [] := by
  cases fuel with
  | zero => simp [digitsOf]
  | succ fuel => rw [digitsOf]; split <;> simp

theorem mem_digitsOf {radix : Nat} (hr : 0 < radix) {c : Char} : ∀ {fuel n : Nat}, c ∈ digitsOf radix fuel n →
    ∃ d < radix, c = digitChar d := by
  intro fuel
  induction fuel with
  | zero => intro n h; exact ⟨_, Nat.mod_lt n hr, List.mem_singleton.mp h⟩
  | succ fuel ih =>
    intro n h
    rw [digitsOf] at h
    split at h
    next hlt => exact ⟨n, hlt, List.mem_singleton.mp h⟩
    next =>
      rcases List.mem_append.mp h with h | h
      · exact ih h
      · exact ⟨_, Nat.mod_lt n hr, List.mem_singleton.mp h⟩

/-- A text of digits is read as decimal: it does not begin with 0x. -/
theorem number_of_no_x {cs : List Char} (hne : cs ≠ []) (hx : 'x' ∉ cs) : number cs = digits 10 0 cs := by
  rw [number]
  · exact hne
  · rintro rfl; exact hx (by decide)
  · rintro ds rfl; simp at hx

/-- A numeral, decimal or hexadecimal, reads back as its number. -/
theorem number_numeral (hex : Bool) (n : Nat) : number (numeral hex n) = some n := by
  cases hex with
  | false =>
    have hx : 'x' ∉ digitsOf 10 n n := fun h => by
      obtain ⟨d, hd, hc⟩ := mem_digitsOf (by decide) h
      obtain ⟨-, -, -, hne⟩ := digitChar_spec d (by omega)
      exact hne hc.symm
    exact (number_of_no_x (digitsOf_ne_nil _ _ _) hx).trans (digits_digitsOf (by decide) (by decide) le_rfl)
  | true =>
    have hne := digitsOf_ne_nil 16 n n
    show number ('0' :: 'x' :: digitsOf 16 n n) = some n
    rw [number]
    · exact digits_digitsOf (by decide) (by decide) le_rfl
    · exact hne

theorem numeral_ne_nil (hex : Bool) (n : Nat) : numeral hex n ≠ [] := by
  cases hex with
  | false => exact digitsOf_ne_nil _ _ _
  | true => exact List.cons_ne_nil _ _

/-- A numeral holds none of the characters that separate operands. -/
theorem not_mem_numeral (hex : Bool) (n : Nat) : ' ' ∉ numeral hex n ∧ ',' ∉ numeral hex n := by
  have not_mem (radix : Nat) (h0 : 0 < radix) (h16 : radix ≤ 16) :
      ' ' ∉ digitsOf radix n n ∧ ',' ∉ digitsOf radix n n := by
    constructor <;> intro h <;> obtain ⟨d, hd, hc⟩ := mem_digitsOf h0 h <;>
      obtain ⟨-, hspace, hcomma, -⟩ := digitChar_spec d (by omega)
    · exact hspace hc.symm
    · exact hcomma hc.symm
  cases hex with
  | false => exact not_mem 10 (by decide) (by decide)
  | true => simpa [numeral] using not_mem 16 (by decide) (by decide)

/-! ### Trimming -/

/-- A text that neither begins nor ends with a space is trimmed already. -/
theorem trim_eq_self {cs : List Char} (hh : cs.head? ≠ some ' ') (hl : cs.getLast? ≠ some ' ') : trim cs = cs := by
  have hdrop : cs.dropWhile (· == ' ') = cs := by
    cases cs with
    | nil => rfl
    | cons c cs => rw [List.dropWhile_cons_of_neg]; simpa using hh
  have hrev : cs.reverse.dropWhile (· == ' ') = cs.reverse := by
    cases hr : cs.reverse with
    | nil => rfl
    | cons c ds =>
      rw [List.dropWhile_cons_of_neg]
      rw [← List.head?_reverse, hr] at hl
      simpa using hl
  rw [trim, hdrop, hrev, List.reverse_reverse]

theorem trim_cons_space (cs : List Char) : trim (' ' :: cs) = trim cs := rfl

theorem head?_ne_space {cs : List Char} (h : ' ' ∉ cs) : cs.head? ≠ some ' ' := fun hs => h (List.mem_of_head? hs)

theorem getLast?_ne_space {cs : List Char} (h : ' ' ∉ cs) : cs.getLast? ≠ some ' ' := fun hs => h (List.mem_of_getLast? hs)

theorem trim_of_no_space {cs : List Char} (h : ' ' ∉ cs) : trim cs = cs :=
  trim_eq_self (head?_ne_space h) (getLast?_ne_space h)

/-! ### The operands of a line -/

theorem splitCommas_of_no_comma {cs : List Char} (h : ',' ∉ cs) : splitCommas cs = [cs] := by
  induction cs with
  | nil => rfl
  | cons c cs ih =>
    obtain ⟨hc, hcs⟩ := not_or.mp (mt List.mem_cons.mpr h)
    simp [splitCommas, ih hcs, Ne.symm hc]

theorem splitCommas_ne_nil (cs : List Char) : splitCommas cs ≠ [] := by
  cases cs with
  | nil => exact List.cons_ne_nil _ _
  | cons c cs => rw [splitCommas]; split <;> [exact List.cons_ne_nil _ _; (split <;> exact List.cons_ne_nil _ _)]

/-- The piece before the first comma is the first piece. -/
theorem splitCommas_append {cs : List Char} (h : ',' ∉ cs) (ds : List Char) :
    splitCommas (cs ++ ',' :: ds) = cs :: splitCommas ds := by
  induction cs with
  | nil =>
    obtain ⟨p, ps, hp⟩ := List.exists_cons_of_ne_nil (splitCommas_ne_nil ds)
    simp [splitCommas, hp]
  | cons c cs ih =>
    obtain ⟨hc, hcs⟩ := not_or.mp (mt List.mem_cons.mpr h)
    simp [splitCommas, ih hcs, Ne.symm hc]

/-- The pieces of a list of numerals are the numerals, a space before each. -/
theorem splitCommas_commaList (hex : Bool) (ns : List Nat) : ∀ n, splitCommas (' ' :: commaList hex (n :: ns)) =
    (n :: ns).map fun k => ' ' :: numeral hex k := by
  have no_comma (k : Nat) : ',' ∉ ' ' :: numeral hex k := by simp [(not_mem_numeral hex k).2]
  induction ns with
  | nil => intro n; exact splitCommas_of_no_comma (no_comma n)
  | cons m ns ih =>
    intro n
    calc splitCommas (' ' :: commaList hex (n :: m :: ns))
      _ = splitCommas ((' ' :: numeral hex n) ++ ',' :: ' ' :: commaList hex (m :: ns)) := rfl
      _ = (' ' :: numeral hex n) :: (m :: ns).map fun k => ' ' :: numeral hex k := by
        rw [splitCommas_append (no_comma n), ih]

/-- Numerals are read as their numbers. -/
theorem numbers_map_numeral (hex : Bool) (ns : List Nat) : numbers (ns.map fun k => ' ' :: numeral hex k) = some ns := by
  induction ns with
  | nil => rfl
  | cons n ns ih =>
    rw [List.map_cons, numbers, trim_cons_space, trim_of_no_space (not_mem_numeral hex n).1, number_numeral, ih]

/-- A list of numerals begins with a numeral and ends with one. -/
theorem commaList_ends (hex : Bool) (ns : List Nat) : ∀ n,
    (∃ cs, commaList hex (n :: ns) = numeral hex n ++ cs) ∧ (∃ cs k, commaList hex (n :: ns) = cs ++ numeral hex k) := by
  induction ns with
  | nil => intro n; exact ⟨⟨[], (List.append_nil _).symm⟩, [], n, rfl⟩
  | cons m ns ih =>
    intro n
    obtain ⟨-, cs, k, hk⟩ := ih m
    exact ⟨⟨_, rfl⟩, numeral hex n ++ ',' :: ' ' :: cs, k, by simp [commaList, hk]⟩

/-- A text that ends in a numeral does not end in a space. -/
theorem getLast?_append_numeral (hex : Bool) (cs : List Char) (k : Nat) : (cs ++ numeral hex k).getLast? ≠ some ' ' := by
  rw [List.getLast?_append_of_ne_nil _ (numeral_ne_nil hex k)]
  exact getLast?_ne_space (not_mem_numeral hex k).1

theorem trim_commaList (hex : Bool) (n : Nat) (ns : List Nat) :
    trim (commaList hex (n :: ns)) = commaList hex (n :: ns) ∧ commaList hex (n :: ns) ≠ [] := by
  obtain ⟨⟨cs, hcs⟩, ds, k, hk⟩ := commaList_ends hex ns n
  refine ⟨trim_eq_self ?_ (hk ▸ getLast?_append_numeral hex ds k), by simp [hcs, numeral_ne_nil]⟩
  rw [hcs, List.head?_append_of_ne_nil _ (numeral_ne_nil hex n)]
  exact head?_ne_space (not_mem_numeral hex n).1

/-- The operands behind a mnemonic are the numbers of their numerals. -/
theorem operands_commaList (hex : Bool) (n : Nat) (ns : List Nat) :
    operands (' ' :: commaList hex (n :: ns)) = some (n :: ns) := by
  obtain ⟨htrim, hne⟩ := trim_commaList hex n ns
  rw [operands, trim_cons_space, htrim, if_neg hne, splitCommas_commaList, numbers_map_numeral]

/-! ### A whole line -/

/-- A trimmed line that is a word without spaces, and then nothing or a space, falls apart there. -/
theorem splitWord_append {name cs : List Char} (hs : ' ' ∉ name) (htrim : trim (name ++ cs) = name ++ cs)
    (hcs : ∀ c ∈ cs.head?, c = ' ') : splitWord (name ++ cs) = (name, cs) := by
  have hname : ∀ c ∈ name, (c != ' ') = true := fun c hc => by
    simpa using fun h : c = ' ' => hs (h ▸ hc)
  have hstop : cs.takeWhile (· != ' ') = [] ∧ cs.dropWhile (· != ' ') = cs := by
    cases cs with
    | nil => exact ⟨rfl, rfl⟩
    | cons c cs => obtain rfl := hcs c rfl; exact ⟨rfl, rfl⟩
  rw [splitWord, htrim, List.takeWhile_append_of_pos hname, List.dropWhile_append_of_pos hname, hstop.1, hstop.2,
    List.append_nil]

/-- A line makes what its mnemonic and its numbers make (R97). -/
theorem assemble_lineOf (hex : Bool) {name : List Char} (ns : List Nat) (hne : name ≠ []) (hs : ' ' ∉ name) :
    assemble (lineOf hex name ns) = command name ns := by
  cases ns with
  | nil =>
    have hsplit : splitWord name = (name, []) := by
      have := splitWord_append (cs := []) hs (by rw [List.append_nil, trim_of_no_space hs]) (by simp)
      rwa [List.append_nil] at this
    rw [lineOf, assemble, hsplit]
    rfl
  | cons n ns =>
    obtain ⟨-, cs, k, hk⟩ := commaList_ends hex ns n
    have htrim : trim (name ++ ' ' :: commaList hex (n :: ns)) = name ++ ' ' :: commaList hex (n :: ns) := by
      refine trim_eq_self ?_ ?_
      · rw [List.head?_append_of_ne_nil _ hne]; exact head?_ne_space hs
      · rw [hk, ← List.cons_append, ← List.append_assoc]; exact getLast?_append_numeral hex _ k
    rw [lineOf, assemble, splitWord_append hs htrim (by simp), operands_commaList]

/-! ### Mnemonics -/

/-- A mnemonic and its numbers make a command exactly when they are its own and in range (R93, R97). -/
theorem command_eq_some_iff (name : List Char) (ns : List Nat) (i : Instr) :
    command name ns = some i ↔ name = (mnemonic i).toList ∧ ns = operandValues i ∧ wellFormed i = true := by
  constructor
  · have toList_eq {t : String} (h : String.ofList name = t) : name = t.toList := by rw [← h, String.toList_ofList]
    intro h
    unfold command at h
    split at h
    iterate 8 next hname => cases h; exact ⟨toList_eq hname, rfl, rfl⟩
    next b hname =>
      obtain ⟨hb, hi⟩ := Option.ite_none_right_eq_some.mp h
      cases hi
      refine ⟨toList_eq hname, ?_, rfl⟩
      interval_cases b <;> rfl
    iterate 4 next hname =>
      obtain ⟨hwf, hi⟩ := Option.ite_none_right_eq_some.mp h
      cases hi
      exact ⟨toList_eq hname, rfl, hwf⟩
    next => cases h
  · rintro ⟨rfl, rfl, hwf⟩
    unfold command
    rw [String.ofList_toList]
    cases i with
    | putbit b => cases b <;> rfl
    | putcycle m j => exact if_pos hwf
    | getbit idx => exact if_pos hwf
    | rank2mj rank => exact if_pos hwf
    | mj2rank m j => exact if_pos hwf
    | _ => rfl

/-- A mnemonic is a word without spaces. -/
theorem mnemonic_is_word (i : Instr) : (mnemonic i).toList ≠ [] ∧ ' ' ∉ (mnemonic i).toList := by
  cases i <;> simp [mnemonic]

/-- Settles O5: the line's parts are read back, and a command is made of its own parts only. -/
theorem assembledOperandsAreInRange : Obligations.AssembledOperandsAreInRange := by
  have lines (hex : Bool) (name : List Char) (ns : List Nat) (hne : name ≠ []) (hs : ' ' ∉ name) :
      assemble (lineOf hex name ns) = command name ns := assemble_lineOf hex ns hne hs
  refine ⟨command_eq_some_iff, lines, fun hex i hwf => ?_, fun line i h => ?_⟩
  · obtain ⟨hne, hs⟩ := mnemonic_is_word i
    exact (lines hex _ _ hne hs).trans ((command_eq_some_iff ..).mpr ⟨rfl, rfl, hwf⟩)
  · rw [assemble] at h
    split at h
    next => cases h
    next ns _ =>
      obtain ⟨-, -, hwf⟩ := (command_eq_some_iff ..).mp h
      exact hwf

end Sys2Proof.Machine
end

section
/-! PROOFS. The host's pseudo-operations (30_encoding.md R98): POLL repeats its read of STATUS while a command runs, and the
words of LOADIN fill INBUF one after the other. -/

namespace Sys2Proof.Machine

/-! ### POLL -/

/-- STATUS can be read whether a command runs or not (R132). -/
theorem hostRead_status (s : State) : hostRead 0x008 .w32 s = { s with response := some (.data s.statusWord) } := by
  have ht : target s.params 0x008 = some (.reg .status) := rfl
  have hr : busRead 0x008 .w32 s = some s.statusWord := by
    rw [busRead, if_pos rfl, ht]
    cases s.busy <;> rfl
  rw [hostRead, hr]

/-- One turn of POLL: a read of STATUS, whose bit 0 is BUSY, keeps it pending. -/
theorem perform_poll (s : State) : perform .poll s = { s with
    queue := if s.busy = true then .poll :: s.queue else s.queue, response := some (.data s.statusWord) } := by
  simp only [perform, hostRead_status, getLsbD_statusWord_zero]
  by_cases hb : s.busy = true
  · rw [if_pos hb, if_pos hb]
  · rw [if_neg hb, if_neg hb]

/-- Settles O24: the host's turn is one turn of POLL. -/
theorem pollWaitsUntilNotBusy : Obligations.PollWaitsUntilNotBusy := by
  intro s rest he hq
  rw [step_host he, hostTurn_cons hq, perform_poll]
  rfl

/-! ### LOADIN -/

/-- The bytes LOADIN writes: its own, then zeros to the end of the last word (R98). -/
def wholeWords (bytes : List Byte) : List Byte :=
  bytes ++ List.replicate (4 * ((bytes.length + 3) / 4) - bytes.length) 0

theorem length_wholeWords (bytes : List Byte) : (wholeWords bytes).length = 4 * ((bytes.length + 3) / 4) := by
  simp only [wholeWords, List.length_append, List.length_replicate]
  omega

theorem wholeWords_cons_word (b0 b1 b2 b3 : Byte) (bs : List Byte) :
    wholeWords (b0 :: b1 :: b2 :: b3 :: bs) = [b0, b1, b2, b3] ++ wholeWords bs := by
  have hlen : 4 * ((bs.length + 1 + 1 + 1 + 1 + 3) / 4) - (bs.length + 1 + 1 + 1 + 1) =
      4 * ((bs.length + 3) / 4) - bs.length := by omega
  simp [wholeWords, hlen]

theorem getElem?_wholeWords {bytes : List Byte} {i : Nat} (h : i < (wholeWords bytes).length) :
    (wholeWords bytes)[i]? = some (bytes[i]?.getD 0) := by
  rw [length_wholeWords] at h
  by_cases hi : i < bytes.length
  · simp [wholeWords, List.getElem?_append_left hi, hi]
  · simp only [wholeWords, List.getElem?_append_right (Nat.le_of_not_lt hi), List.getElem?_replicate,
      List.getElem?_eq_none (Nat.le_of_not_lt hi)]
    rw [if_pos (by omega)]; rfl

theorem putBytes_append (xs ys : List Byte) : ∀ (m : Memory) (i : Nat),
    Memory.putBytes m i (xs ++ ys) = Memory.putBytes (Memory.putBytes m i xs) (i + xs.length) ys := by
  induction xs with
  | nil => intro m i; rfl
  | cons x xs ih => intro m i; simp [Memory.putBytes, ih, Nat.add_assoc, Nat.add_comm 1]

theorem bytesOfWord_wordOfBytes (b0 b1 b2 b3 : Byte) : bytesOfWord (wordOfBytes b0 b1 b2 b3) = [b0, b1, b2, b3] := by
  obtain ⟨h0, h1, h2, h3⟩ := extractLsb'_wordOfBytes b0 b1 b2 b3
  rw [bytesOfWord, h0, h1, h2, h3]

/-- The state after LOADIN has written bytes from an offset of INBUF on. -/
def State.loaded (s : State) (i : Nat) (ys : List Byte) (rest : List HostOp) (r : Option BusResponse) : State :=
  { s with inbuf := Memory.putBytes s.inbuf i ys, queue := rest, response := r }

/-- One word of LOADIN. -/
theorem step_loadWord {s : State} {i : Nat} {b0 b1 b2 b3 : Byte} (rest : List HostOp)
    (hs : s.params.legal ∧ s.busy = false ∧ s.turns = 0) (hi : i % 4 = 0 ∧ i < s.params.inCap)
    (hq : s.queue = .write (BitVec.ofNat 18 (0x10000 + i)) .w32 (wordOfBytes b0 b1 b2 b3) :: rest) :
    step s = .next (s.loaded i [b0, b1, b2, b3] rest (some .done)) := by
  obtain ⟨hp, hb, ht⟩ := hs
  have ht' : s.turns - 1 = s.turns := by omega
  rw [step_write hb hq (target_inbuf hp hi.1 hi.2) rfl, bytesOfWord_wordOfBytes, ht']
  rfl

/-- The last word of LOADIN, of one to four bytes. -/
theorem run_lastWord {s : State} {i : Nat} {bytes : List Byte} {b0 b1 b2 b3 : Byte} {rest : List HostOp}
    (hw : wholeWords bytes = [b0, b1, b2, b3])
    (hs : s.params.legal ∧ s.busy = false ∧ s.turns = 0) (hi : i % 4 = 0 ∧ i < s.params.inCap)
    (hq : s.queue = .write (BitVec.ofNat 18 (0x10000 + i)) .w32 (wordOfBytes b0 b1 b2 b3) :: rest) :
    ∃ r, ∀ n, core.run (1 + n) s = core.run n (s.loaded i (wholeWords bytes) rest r) := by
  refine ⟨some .done, fun n => ?_⟩
  rw [hw, Nat.add_comm]
  exact run_succ n (step_loadWord rest hs hi hq)

/-- The words of LOADIN leave its bytes, in whole words, in INBUF. -/
theorem run_loadWords (i : Nat) (bytes : List Byte) : ∀ {s : State} {rest : List HostOp},
    s.params.legal ∧ s.busy = false ∧ s.turns = 0 → i % 4 = 0 → i + bytes.length ≤ s.params.inCap →
    s.queue = loadWords i bytes ++ rest →
    ∃ r, ∀ n, core.run ((loadWords i bytes).length + n) s = core.run n (s.loaded i (wholeWords bytes) rest r) := by
  induction i, bytes using loadWords.induct with
  | case1 i =>
    intro s rest _ _ _ hq
    obtain rfl : s.queue = rest := hq
    exact ⟨s.response, fun n => congrArg (core.run · s) (Nat.zero_add n)⟩
  | case2 i b0 =>
    intro s rest hs h4 hcap hq
    exact run_lastWord (by simp [wholeWords]) hs ⟨h4, hcap⟩ hq
  | case3 i b0 b1 =>
    intro s rest hs h4 hcap hq
    exact run_lastWord (by simp [wholeWords]) hs ⟨h4, by simp only [List.length_cons] at hcap; omega⟩ hq
  | case4 i b0 b1 b2 =>
    intro s rest hs h4 hcap hq
    exact run_lastWord (by simp [wholeWords]) hs ⟨h4, by simp only [List.length_cons] at hcap; omega⟩ hq
  | case5 i b0 b1 b2 b3 bs ih =>
    intro s rest hs h4 hcap hq
    simp only [List.length_cons] at hcap
    have hstep := step_loadWord (loadWords (i + 4) bs ++ rest) hs ⟨h4, by omega⟩ hq
    obtain ⟨r, hr⟩ := ih (s := s.loaded i [b0, b1, b2, b3] (loadWords (i + 4) bs ++ rest) (some .done)) hs (by omega)
      (show i + 4 + bs.length ≤ s.params.inCap by omega) rfl
    refine ⟨r, fun n => ?_⟩
    have hlen : (loadWords i (b0 :: b1 :: b2 :: b3 :: bs)).length + n = (loadWords (i + 4) bs).length + n + 1 := by
      rw [loadWords, List.length_cons, Nat.add_right_comm]
    rw [hlen, wholeWords_cons_word]
    refine (run_succ _ hstep).trans ((hr n).trans (congrArg (core.run n) ?_))
    simp only [State.loaded, putBytes_append]
    rfl

/-- What INBUF holds after LOADIN: its bytes, zeros to the end of the last word, and what was there before. -/
theorem inByte_loaded (s : State) (bytes : List Byte) (rest : List HostOp) (r : Option BusResponse) (j : Nat) :
    (s.loaded 0 (wholeWords bytes) rest r).inByte j =
      if j < 4 * ((bytes.length + 3) / 4) then bytes[j]?.getD 0 else s.inByte j := by
  rw [← length_wholeWords, State.inByte, State.loaded, cell_putBytes]
  by_cases hj : j < (wholeWords bytes).length
  · rw [if_pos ⟨j.zero_le, by omega⟩, if_pos hj, Nat.sub_zero, getElem?_wholeWords hj]
    rfl
  · rw [if_neg (by omega), if_neg hj]
    rfl

/-- The write of IN_LEN that ends LOADIN. -/
theorem step_loadLength {s : State} {w : Word} {rest : List HostOp} (hb : s.busy = false) (ht : s.turns = 0)
    (hq : s.queue = .write 0x00C .w32 w :: rest) :
    step s = .next { s with inLen := w, queue := rest, response := some .done } := by
  have ht' : s.turns - 1 = s.turns := by omega
  rw [(readWriteRegistersStoreTheirField s w rest hb).1 hq, ht']

/-- Settles O25: the words of LOADIN fill INBUF, and one more write sets IN_LEN. -/
theorem loadinFillsInbuf : Obligations.LoadinFillsInbuf := by
  intro s bytes rest hp hb ht hlen
  have hfit : 0x10000 + bytes.length ≤ 2 ^ 18 := by have := hp.1; omega
  refine ⟨_, if_pos hfit, fun hq => ?_⟩
  rw [List.append_assoc] at hq
  obtain ⟨r, hr⟩ := run_loadWords 0 bytes ⟨hp, hb, ht⟩ rfl (by omega) hq
  have hbyte := inByte_loaded s bytes (.write 0x00C .w32 (BitVec.ofNat 32 bytes.length) :: rest) r
  have hstep := step_loadLength (w := BitVec.ofNat 32 bytes.length) (rest := rest)
    (s := s.loaded 0 (wholeWords bytes) (.write 0x00C .w32 (BitVec.ofNat 32 bytes.length) :: rest) r) hb ht rfl
  rw [List.length_append]
  refine ⟨_, (hr 1).trans (run_succ 0 hstep), fun i hi => ?_, fun i hlo hhi => ?_, fun i hi => ?_, rfl, rfl⟩
  · refine (congrArg some (hbyte i)).trans ?_
    rw [if_pos (by omega), List.getElem?_eq_getElem hi]
    rfl
  · refine (hbyte i).trans ?_
    rw [if_pos hhi, List.getElem?_eq_none hlo]
    rfl
  · exact (hbyte i).trans (if_neg (by omega))

end Sys2Proof.Machine
end

section
/-! PROOFS. The command model (40_command_model.md): the engine's step executes and completes the latched command or rejects
the word (R133, R136, R138); while a command runs the host can read ID and STATUS only, so that the command completes when the
turns are used up (R131, R132, R135); and the input range check comes before anything else (R137). -/

namespace Sys2Proof.Machine

/-! ### The engine's step -/

/-- The engine's step completes the command or rejects the word (R133, R136). -/
theorem step_completes {s : State} (he : s.busy = true ∧ s.turns = 0) : ∃ e u, step s = .next (complete e u) := by
  rcases step_engine he with ⟨i, -, e⟩ | ⟨-, e⟩
  · obtain ⟨r, hr⟩ := exec_next i s
    exact ⟨_, _, e.trans hr⟩
  · exact ⟨_, _, e⟩

theorem step_of_decode {s : State} {i : Instr} (he : s.busy = true ∧ s.turns = 0) (hd : decode s.latch = .command i) :
    step s = exec i s := by
  rw [step, if_pos (engineTurn_iff.mpr he), hd]

/-! ### The bus while a command runs (R131, R132) -/

theorem busWrite_busy {s : State} (hb : s.busy = true) (a : BusAddr) (width : Width) (w : Word) :
    busWrite a width w s = none :=
  (busWrite_eq_none_iff a width w).mpr (.inr (.inr (.inr hb)))

theorem busRead_busy {s : State} {a : BusAddr} {width : Width} (hb : s.busy = true)
    (h : ¬(width = .w32 ∧ (a = 0x000 ∨ a = 0x008))) : busRead a width s = none := by
  by_cases hw : width = .w32
  · cases ht : target s.params a with
    | none => simp [busRead, ht]
    | some tg =>
      have hother : ¬(tg = .reg .id ∨ tg = .reg .status) := fun ho => h ⟨hw, (target_id_or_status_iff ht).mp ho⟩
      have hreg : (tg == .reg .id || tg == .reg .status) = false := by simpa using hother
      simp only [busRead, ht, hb, hreg, Bool.not_false, Bool.and_self, if_true, ite_self]
  · simp [busRead, hw]

/-- ID can be read whether a command runs or not (R132). -/
theorem hostRead_id (s : State) : hostRead 0x000 .w32 s = { s with response := some (.data 0x52424345) } := by
  have ht : target s.params 0x000 = some (.reg .id) := rfl
  have hr : busRead 0x000 .w32 s = some 0x52424345 := by
    rw [busRead, if_pos rfl, ht]
    cases s.busy <;> rfl
  rw [hostRead, hr]

/-! ### A turn of the host while a command runs (R132, R135) -/

/-- The host's pending operations after a turn of the host while a command runs: POLL stays at the front (R98). -/
def queueAfterTurn : List HostOp → List HostOp
  | [] => []
  | op :: rest => if op = .poll then .poll :: rest else rest

/-- The state after such a turn, unless it is a reset event: the turn is used up, the operation answered. -/
def State.afterBusyTurn (s : State) : State :=
  { s.hostReady (queueAfterTurn s.queue) with response := (hostTurn s).response }

/-- The operations the host performs in n turns while a command runs: none behind a POLL. -/
def performedWhileBusy (n : Nat) (q : List HostOp) : List HostOp := (q.take n).takeWhile fun op => op ≠ .poll

/-- Of what the host does while a command runs only the reset event touches the block: any other operation gets a response,
and POLL stays pending. -/
theorem perform_busy {s : State} {op : HostOp} (hb : s.busy = true) (hr : op ≠ .reset) :
    perform op s = { s with
      queue := if op = .poll then .poll :: s.queue else s.queue, response := (perform op s).response } := by
  cases op with
  | read a width => rw [perform, hostRead_frame]; rfl
  | write a width w => rw [perform, hostWrite, busWrite_busy hb]; rfl
  | reset => exact absurd rfl hr
  | poll => rw [perform_poll, if_pos hb]; rfl

theorem step_while_busy {s : State} (hb : s.busy = true) (ht : s.turns ≠ 0) (hr : s.queue.head? ≠ some .reset) :
    step s = .next s.afterBusyTurn := by
  rw [step_host fun he => ht he.2]
  refine congrArg _ ?_
  cases hq : s.queue with
  | nil => rw [hostTurn_nil hq]; simp only [State.hostReady, State.afterBusyTurn, queueAfterTurn, hostTurn, hq]
  | cons op rest =>
    rw [State.afterBusyTurn, hostTurn_cons hq, hq]
    exact perform_busy (s := s.hostReady rest) hb fun h => hr (by rw [hq, h]; rfl)

theorem step_reset {s : State} {rest : List HostOp} (he : ¬(s.busy = true ∧ s.turns = 0)) (hq : s.queue = .reset :: rest) :
    step s = .next (resetEvent (s.hostReady rest)) := by
  rw [step_host he, hostTurn_cons hq]; rfl

/-- A reset event that the host does not perform in n + 1 turns is not its next operation, nor performed in the n turns after
the next one. -/
theorem reset_not_mem_performed_succ {n : Nat} {q : List HostOp} (h : HostOp.reset ∉ performedWhileBusy (n + 1) q) :
    q.head? ≠ some .reset ∧ HostOp.reset ∉ performedWhileBusy n (queueAfterTurn q) := by
  cases q with
  | nil => simp [performedWhileBusy, queueAfterTurn]
  | cons op rest =>
    by_cases hp : op = .poll
    · cases n <;> simp [performedWhileBusy, queueAfterTurn, hp]
    · simpa [performedWhileBusy, queueAfterTurn, hp, eq_comm] using h

/-! ### A running command completes (R134, R135) -/

theorem run_reaches_idle (n : Nat) : ∀ {s : State}, s.busy = true → s.turns = n →
    ∃ k t, k ≤ n + 1 ∧ core.run k s = .next t ∧ t.busy = false := by
  induction n with
  | zero =>
    intro s hb ht
    obtain ⟨e, u, hstep⟩ := step_completes ⟨hb, ht⟩
    exact ⟨1, _, le_rfl, run_succ 0 hstep, rfl⟩
  | succ n ih =>
    intro s hb ht
    by_cases hr : s.queue.head? = some .reset
    · obtain ⟨rest, hq⟩ := List.head?_eq_some_iff.mp hr
      exact ⟨1, _, by omega, run_succ 0 (step_reset (by omega) hq), rfl⟩
    · obtain ⟨k, t, hk, hrun, hidle⟩ := ih (s := s.afterBusyTurn) hb (Nat.sub_eq_of_eq_add ht)
      exact ⟨k + 1, t, by omega, (run_succ k (step_while_busy hb (by omega) hr)).trans hrun, hidle⟩

theorem run_completes (n : Nat) : ∀ {s : State}, s.busy = true → s.turns = n →
    HostOp.reset ∉ performedWhileBusy n s.queue →
    ∃ t, core.run (n + 1) s = .next t ∧ t.busy = false ∧ t.done = true := by
  induction n with
  | zero =>
    intro s hb ht _
    obtain ⟨e, u, hstep⟩ := step_completes ⟨hb, ht⟩
    exact ⟨_, run_succ 0 hstep, rfl, rfl⟩
  | succ n ih =>
    intro s hb ht hr
    obtain ⟨hhead, hrest⟩ := reset_not_mem_performed_succ hr
    obtain ⟨t, hrun, hdone⟩ := ih (s := s.afterBusyTurn) hb (Nat.sub_eq_of_eq_add ht) hrest
    exact ⟨t, (run_succ (n + 1) (step_while_busy hb (by omega) hhead)).trans hrun, hdone⟩

/-! ### The input range check (R137) -/

theorem ifInRange_of_lt {s : State} (h : s.params.inCap < s.inLen.toNat) (f : State → Run) :
    ifInRange s f = ⟨s, .range⟩ := if_pos h

theorem ifInRange_of_le {s : State} (h : s.inLen.toNat ≤ s.params.inCap) (f : State → Run) :
    ifInRange s f = f s := if_neg (Nat.not_lt.mpr h)

/-- A composite stops at its first sub-command, and its clean-up clears OUT_LEN (R139). -/
theorem runCompress_of_lt {s : State} (h : s.params.inCap < s.inLen.toNat) : runCompress s = ⟨s.setOutLen 0, .range⟩ := by
  rw [runCompress_eq, runFreq, ifInRange_of_lt h]; rfl

theorem runDecompress_of_lt {s : State} (h : s.params.inCap < s.inLen.toNat) : runDecompress s = ⟨s.setOutLen 0, .range⟩ := by
  rw [runDecompress_eq, runBuildDec, ifInRange_of_lt h]; rfl

/-! ### The statements -/

/-- Settles O10: every turn of the host uses up one of the scheduler's, and no operation but the reset event stops that. -/
theorem runningCommandCompletes : Obligations.RunningCommandCompletes :=
  fun s hb => ⟨run_reaches_idle s.turns hb rfl, run_completes s.turns hb rfl⟩

/-- Settles O6: the engine's turn is the execution, and an idle host changes nothing. -/
theorem stepRunsTheDecodedCommand : Obligations.StepRunsTheDecodedCommand := by
  refine ⟨fun s i hb ht hd => step_of_decode ⟨hb, ht⟩ hd, fun s i nbits w hd => step_of_decode ⟨rfl, rfl⟩ hd,
    fun s hb ht hq => ?_⟩
  rw [step_host (by simp [hb]), hostTurn_nil hq, ht, Nat.zero_sub, ← ht]

/-- Settles O7: the engine completes a word that is no command at once. -/
theorem illegalWordChangesOnlyStatus : Obligations.IllegalWordChangesOnlyStatus := by
  intro s hb ht hd
  rcases step_engine ⟨hb, ht⟩ with ⟨i, hi, -⟩ | ⟨-, e⟩
  · exact absurd hi (hd i)
  · exact e

/-- Settles O8: a completion leaves the block idle, and the idle block accepts a word. -/
theorem noCommandIsFatal : Obligations.NoCommandIsFatal := by
  intro i s
  obtain ⟨r, hr⟩ := exec_next i s
  exact ⟨_, hr, rfl, fun w => ⟨accept w (complete r.err r.state), (busWrite_idle (tg := .reg .cmd) w rfl rfl).trans rfl, rfl, rfl⟩⟩

/-- Settles O18: the two reads the bus answers, and the rest, which it rejects. -/
theorem busyBlockAcceptsOnlyIdAndStatusReads : Obligations.BusyBlockAcceptsOnlyIdAndStatusReads := by
  intro s n rest hb ht
  have he : ¬(s.busy = true ∧ s.turns = 0) := by omega
  obtain rfl : n = s.turns - 1 := by omega
  refine ⟨fun hq => ?_, fun hq => ?_, fun a width h hq => step_read_rejected he hq (busRead_busy (s := s.hostReady rest) hb h),
    fun a width w hq => step_write_rejected he hq (busWrite_busy (s := s.hostReady rest) hb ..)⟩
  · rw [step_hostRead he hq, hostRead_id]; rfl
  · rw [step_hostRead he hq, hostRead_status, statusWord_eq_or]
    simp only [State.hostReady, hb]
    rfl

/-- Settles O39: the range check stops each command before it writes. -/
theorem inputRangeCheckComesFirst : Obligations.InputRangeCheckComesFirst := by
  intro s idx h
  have stops (f : State → Run) : finish (ifInRange s f) = .next (onlyStatus .range s) :=
    congrArg finish (ifInRange_of_lt h f)
  exact ⟨stops _, stops _, stops _, stops _, stops _, congrArg finish (runCompress_of_lt h),
    congrArg finish (runDecompress_of_lt h)⟩

end Sys2Proof.Machine
end

section
/-! PROOFS. COMPRESS depends on its input alone (40_command_model.md R140): the tables are counted and ranked from the input,
the header is written from the tables, and the bit writer reads no byte that it has not begun. -/

namespace Sys2Proof.Machine

/-! ### Two writers in step -/

/-- Two states whose writers stand at the same place of the same stream, with the same ranks to append: OUTBUF agrees up to
the end of the stream. -/
structure SameStream (s s' : State) : Prop where
  params : s.params = s'.params
  ranktab : s.ranktab = s'.ranktab
  wbase : s.wbase = s'.wbase
  wbits : s.wbits = s'.wbits
  bytes : ∀ i, i < s.wlen → s.outByte i = s'.outByte i

/-- Two runs with the same code whose OUTBUF agrees up to OUT_LEN, which is the same. -/
structure SameOutput (r r' : Run) : Prop where
  err : r.err = r'.err
  outLen : r.state.outLen = r'.state.outLen
  bytes : ∀ i, i < r.state.outLen.toNat → r.state.outByte i = r'.state.outByte i

theorem sameOutput_of_outLen_zero {r r' : Run} (he : r.err = r'.err) (h : r.state.outLen = 0) (h' : r'.state.outLen = 0) :
    SameOutput r r' :=
  ⟨he, h.trans h'.symm, fun i hi => by rw [h] at hi; exact absurd hi i.not_lt_zero⟩

theorem wlen_le_of_frame {s t : State} (h : t = { s with outbuf := t.outbuf, wbits := s.wbits + 1 }) :
    t.wlen ≤ s.writeOffset + 1 := by
  have hbase : t.wbase = s.wbase := by rw [h]
  have hbits : t.wbits.toNat = (s.wbits.toNat + 1) % 2 ^ 32 := by rw [h]; exact BitVec.toNat_add ..
  have := Nat.mod_le (s.wbits.toNat + 1) (2 ^ 32)
  simp only [State.wlen, State.writeOffset, ceil8, hbase]
  omega

theorem lt_wlen_of_begun {s : State} {i : Nat} (h : i < s.writeOffset ∨ i = s.writeOffset ∧ s.wbits.toNat % 8 ≠ 0) :
    i < s.wlen := by
  simp only [State.writeOffset, State.wlen, ceil8] at *
  omega

section
variable {s s' : State} (h : SameStream s s')
include h

theorem SameStream.writeOffset : s'.writeOffset = s.writeOffset := by simp only [State.writeOffset, h.wbase, h.wbits]

theorem SameStream.writePos : s'.writePos = s.writePos := by simp only [State.writePos, h.wbits]

theorem SameStream.wlen : s'.wlen = s.wlen := by simp only [State.wlen, h.wbase, h.wbits]

end

/-- A bit is appended to both or to neither: a byte is read only once it has been begun. -/
theorem sameStream_appendBit {s s' : State} (h : SameStream s s') (b : Bool) :
    Option.Rel SameStream (appendBit b s) (appendBit b s') := by
  by_cases hcap : s.params.outCap ≤ s.writeOffset
  · rw [appendBit_eq_none.mpr hcap, appendBit_eq_none.mpr (by rwa [← h.params, h.writeOffset])]
    exact .none
  · obtain ⟨t, ht, hframe, hother, hbit, -, -⟩ := appendBit_fits (b := b) (Nat.lt_of_not_le hcap)
    obtain ⟨t', ht', hframe', hother', hbit', -, -⟩ :=
      appendBit_fits (b := b) (s := s') (by rw [← h.params, h.writeOffset]; omega)
    rw [h.writeOffset] at hother' hbit'
    rw [h.writePos, ← h.wbits] at hbit'
    rw [ht, ht']
    refine .some ⟨?_, ?_, ?_, ?_, fun i hi => ?_⟩
    · rw [hframe, hframe']; exact h.params
    · rw [hframe, hframe']; exact h.ranktab
    · rw [hframe, hframe']; exact h.wbase
    · rw [hframe, hframe']; exact congrArg (· + 1) h.wbits
    · have hlen := wlen_le_of_frame hframe
      by_cases hi' : i = s.writeOffset
      · subst hi'
        refine BitVec.eq_of_getLsbD_eq fun q _ => ?_
        rw [hbit, hbit']
        by_cases hfirst : s.wbits.toNat % 8 = 0
        · simp only [hfirst, if_true]
        · rw [h.bytes _ (lt_wlen_of_begun (.inr ⟨rfl, hfirst⟩))]
      · rw [hother i hi', hother' i hi']
        exact h.bytes i (lt_wlen_of_begun (.inl (by omega)))

theorem sameStream_appendBits (bits : List Bool) : ∀ {s s' : State}, SameStream s s' →
    SameStream (appendBits bits s).1 (appendBits bits s').1 ∧ (appendBits bits s).2 = (appendBits bits s').2 := by
  induction bits with
  | nil => exact fun h => ⟨h, rfl⟩
  | cons b bits ih =>
    intro s s' h
    have hb := sameStream_appendBit h b
    simp only [appendBits]
    generalize appendBit b s = t at hb ⊢
    generalize appendBit b s' = t' at hb ⊢
    cases hb with
    | none => exact ⟨h, rfl⟩
    | some ht => exact ih ht

theorem sameStream_encodePayload (xs : List Byte) : ∀ {s s' : State}, SameStream s s' →
    SameStream (encodePayload xs s).state (encodePayload xs s').state ∧
    (encodePayload xs s).err = (encodePayload xs s').err := by
  induction xs with
  | nil => exact fun h => ⟨h, rfl⟩
  | cons x xs ih =>
    intro s s' h
    rw [encodePayload, encodePayload, ← h.ranktab]
    cases Table.entry s.ranktab x with
    | none => exact ⟨h, rfl⟩
    | some r =>
      obtain ⟨hstream, hok⟩ := sameStream_appendBits (cycleBits (cycleOf r.toNat).1 (cycleOf r.toNat).2) h
      simp only [appendCycle]
      generalize appendBits _ s = p at hstream hok ⊢
      generalize appendBits _ s' = p' at hstream hok ⊢
      obtain ⟨u, ok⟩ := p
      obtain ⟨u', ok'⟩ := p'
      obtain rfl : ok = ok' := hok
      cases ok with
      | false => exact ⟨hstream, rfl⟩
      | true => exact ih hstream

/-! ### ENCODE from the same tables and the same input -/

/-- The header is written whole, so the writers begin in step whatever OUTBUF held before (R200). -/
theorem sameStream_encodeStart {s s' : State} (hp : s.params = s'.params) (hk : s.k = s'.k) (hsym : s.symtab = s'.symtab)
    (hrank : s.ranktab = s'.ranktab) : SameStream (encodeStart s) (encodeStart s') := by
  have hheader : s.header = s'.header := by
    have hat : s.symbolAt = s'.symbolAt := by funext r; simp only [State.symbolAt, hsym]
    simp only [State.header, hk, hat]
  refine ⟨hp, hrank, congrArg (fun k : Byte => BitVec.ofNat 16 (1 + k.toNat)) hk, rfl, fun i hi => ?_⟩
  have hlen : s.header.length = (encodeStart s).wlen := by
    rw [State.wlen, toNat_wbase_encodeStart]; simp [State.header, encodeStart, ceil8, Nat.add_comm]
  change (s.putOut 0 s.header).outByte i = (s'.putOut 0 s'.header).outByte i
  rw [outByte_putOut, outByte_putOut, ← hheader, if_pos (by omega), if_pos (by omega)]

/-- OUT_LEN is the length of the stream or 0, so it bounds bytes on which the streams agree. -/
theorem sameOutput_encodeEnd {r r' : Run} (h : SameStream r.state r'.state) (he : r.err = r'.err) :
    SameOutput (encodeEnd r) (encodeEnd r') := by
  by_cases hok : r.err = .ok
  · simp only [encodeEnd, ← he, hok, if_true]
    refine ⟨rfl, congrArg (BitVec.ofNat 32) h.wlen.symm, fun i hi => h.bytes i (lt_of_lt_of_le hi ?_)⟩
    exact (BitVec.toNat_ofNat ..).trans_le (Nat.mod_le ..)
  · have hok' : ¬r'.err = .ok := he ▸ hok
    exact sameOutput_of_outLen_zero he (by simp [encodeEnd, hok]) (by simp [encodeEnd, hok'])

theorem sameOutput_encodeBody {s s' : State} (hinput : s.input = s'.input) (h : SameStream (encodeStart s) (encodeStart s')) :
    SameOutput (encodeBody s) (encodeBody s') := by
  obtain ⟨hstream, herr⟩ := sameStream_encodePayload s.input h
  rw [encodeBody, encodeBody, ← hinput]
  exact sameOutput_encodeEnd hstream herr

/-! ### COMPRESS -/

/-- The state with the tables that FREQ and BUILD_ENC make of an input (R170, R185). -/
def State.tablesOf (xs : List Byte) (s : State) : State :=
  (s.setFreq (counts xs)).setCodeTable (presentSymbols (counts xs)).length (rankedSymbols (counts xs)) (symbolRanks (counts xs))

/-- COMPRESS of an input that fits: it overflows, or ENCODE runs from the tables of the input (R255). -/
theorem runCompress_of_le {s : State} (h : s.inLen.toNat ≤ s.params.inCap) : runCompress s =
    if (presentSymbols (counts s.input)).length = 256 then ⟨(s.setFreq (counts s.input)).setOutLen 0, .alphabetOverflow⟩
    else encodeBody (s.tablesOf s.input) := by
  rw [runCompress_eq, runFreq, ifInRange_of_le h, freqBody, runBuildEnc, setFreq_freq]
  by_cases hover : (presentSymbols (counts s.input)).length = 256
  · rw [if_neg (by simp), if_pos hover, if_pos (by simp), if_pos hover]
  · rw [if_neg (by simp), if_neg hover, if_neg (by simp), if_neg hover]
    change (runEncode (s.tablesOf s.input)).cleanUp = _
    rw [runEncode_cleanUp (s := s.tablesOf s.input) h, runEncode, ifInRange_of_le (s := s.tablesOf s.input) h]

theorem sameOutput_runCompress {s s' : State} (hp : s.params = s'.params) (hlen : s.inLen = s'.inLen)
    (hbytes : ∀ i, i < s.inLen.toNat → s.inByte i = s'.inByte i) : SameOutput (runCompress s) (runCompress s') := by
  have hinput : s.input = s'.input := by
    rw [State.input, State.input, ← hlen]
    exact inBytes_congr fun d hd => by rw [Nat.zero_add]; exact hbytes d hd
  by_cases h : s.params.inCap < s.inLen.toNat
  · rw [runCompress_of_lt h, runCompress_of_lt (by rwa [← hp, ← hlen])]
    exact sameOutput_of_outLen_zero rfl rfl rfl
  · rw [runCompress_of_le (Nat.le_of_not_lt h), runCompress_of_le (by rw [← hp, ← hlen]; omega), ← hinput]
    by_cases hover : (presentSymbols (counts s.input)).length = 256
    · rw [if_pos hover, if_pos hover]
      exact sameOutput_of_outLen_zero rfl rfl rfl
    · rw [if_neg hover, if_neg hover]
      exact sameOutput_encodeBody hinput (sameStream_encodeStart hp rfl rfl rfl)

/-- Settles O49: the two runs of COMPRESS have the same code and the same output, which completing keeps. -/
theorem compressDependsOnlyOnItsInput : Obligations.CompressDependsOnlyOnItsInput := by
  intro s s' t t' hp _ hlen hbytes ht ht'
  obtain rfl : complete _ (runCompress s).state = t := Host.Outcome.next.inj ht
  obtain rfl : complete _ (runCompress s').state = t' := Host.Outcome.next.inj ht'
  obtain ⟨herr, houtLen, hout⟩ := sameOutput_runCompress hp hlen hbytes
  exact ⟨herr, houtLen, hout⟩

end Sys2Proof.Machine
end

section
/-! PROOFS. The bitstream commands (41_bitstream.md R150 to R160): what GETBIT answers, what PUTBIT and PUTCYCLE leave, in terms
of what the bit writer appended, and that a PUTCYCLE is a sequence of PUTBIT commands. -/

namespace Sys2Proof.Machine

/-! ### The stream after an append, bit by bit -/

section
variable {old : Nat → Bool} {w i : Nat} {bits : List Bool}

theorem appendedBit_of_lt (h : i < w) : appendedBit old w bits i = old i := if_pos h

theorem appendedBit_add {b : Bool} (h : bits[i]? = some b) : appendedBit old w bits (w + i) = b := by
  have hi : i < bits.length := (List.getElem?_eq_some_iff.mp h).1
  rw [appendedBit, if_neg (by omega), if_pos (by omega), Nat.add_sub_cancel_left, h, Option.getD_some]

/-- Behind the last bit, in a byte that the stream had begun before (R150). -/
theorem appendedBit_of_begun (hi : w + bits.length ≤ i) (hb : 8 * (i / 8) < w) : appendedBit old w bits i = old i := by
  rw [appendedBit, if_neg (by omega), if_neg (by omega), if_pos hb]

/-- Behind the last bit, in a byte that the append began (R150). -/
theorem appendedBit_of_not_begun (hi : w + bits.length ≤ i) (hend : i < 8 * ((w + bits.length + 7) / 8))
    (hb : w ≤ 8 * (i / 8)) : appendedBit old w bits i = false := by
  rw [appendedBit, if_neg (by omega), if_neg (by omega), if_neg (by omega), if_pos hend]

end

theorem getElem?_cycleBits {m j i : Nat} (h : i < m + j) : (cycleBits m j)[i]? = some (decide (m ≤ i)) := by
  rw [cycleBits]
  by_cases hi : i < m
  · rw [List.getElem?_append_left (by simpa), List.getElem?_replicate_of_lt hi, decide_eq_false (by omega)]
  · rw [List.getElem?_append_right (by simpa using hi), List.length_replicate, List.getElem?_replicate_of_lt (by omega),
      decide_eq_true (by omega)]

/-! ### What PUTBIT and PUTCYCLE leave (R155, R157) -/

/-- The state that PUTBIT and PUTCYCLE leave when their append ended in r. -/
def written (r : State × Bool) : State := complete (afterAppend r).err (afterAppend r).state

theorem exec_putbit (b : Bool) (s : State) : exec (.putbit b) s = .next (written (appendBits [b] s)) := rfl

theorem exec_putcycle (m j : Nat) (s : State) : exec (.putcycle m j) s = .next (written (appendBits (cycleBits m j) s)) := rfl

/-- OUT_LEN is the whole length of the stream, which no 32-bit WBITS makes too long for it (R154); beside it only what the
append wrote, and STATUS, differ. -/
theorem written_of_appendBits {bits : List Bool} {s u : State} {ok : Bool} (h : appendBits bits s = (u, ok)) :
    (written (u, ok)).outLen.toNat = s.wbase.toNat + (u.wbits.toNat + 7) / 8 ∧
    written (u, ok) =
      { onlyStatus (if ok then .ok else .capacity) s with
        outbuf := (written (u, ok)).outbuf
        wbits := (written (u, ok)).wbits
        outLen := (written (u, ok)).outLen } := by
  have hall := congrArg (complete (afterAppend (appendBits bits s)).err) (afterAppend_frame bits s)
  rw [h] at hall
  refine ⟨?_, hall⟩
  have hwbase : u.wbase = s.wbase := (congrArg State.wbase hall :)
  have hbase := s.wbase.isLt
  have hbits := u.wbits.isLt
  change (BitVec.ofNat 32 (u.wbase.toNat + (u.wbits.toNat + 7) / 8)).toNat = _
  rw [hwbase, BitVec.toNat_ofNat, Nat.mod_eq_of_lt (by omega)]

/-! ### One PUTBIT after another (R158) -/

theorem appendBits_cons_of_none {b : Bool} {s : State} (h : appendBit b s = none) (bits : List Bool) :
    appendBits (b :: bits) s = (s, false) := by simp only [appendBits, h]

theorem appendBits_cons_of_some {b : Bool} {s u : State} (h : appendBit b s = some u) (bits : List Bool) :
    appendBits (b :: bits) s = appendBits bits u := by simp only [appendBits, h]

theorem putbits_cons_of_none {b : Bool} {s : State} (h : appendBit b s = none) (bits : List Bool) :
    putbits (b :: bits) s = written (s, false) := by
  rw [putbits, after, exec_putbit, appendBits_cons_of_none h]; rfl

theorem putbits_cons_of_some {b : Bool} {s u : State} (h : appendBit b s = some u) (bits : List Bool) :
    putbits (b :: bits) s = putbits bits (written (u, true)) := by
  rw [putbits, after, exec_putbit, appendBits_cons_of_some h]; rfl

/-- A bit's append neither reads nor writes what completing a PUTBIT writes: OUT_LEN, STATUS, the engine's hidden state. -/
theorem appendBit_written (b : Bool) (u : State) :
    appendBit b (written (u, true)) = (appendBit b u).map fun v => complete .ok (v.setOutLen u.wlen) := by
  have hsetOutLen : appendBit b (u.setOutLen u.wlen) = (appendBit b u).map (State.setOutLen u.wlen) := by
    by_cases hcap : u.params.outCap ≤ u.writeOffset
    · rw [appendBit_eq_none.mpr hcap]; exact appendBit_eq_none.mpr hcap
    · simp only [appendBit]
      rw [if_neg hcap, if_neg (show ¬(u.setOutLen u.wlen).params.outCap ≤ (u.setOutLen u.wlen).writeOffset from hcap)]; rfl
  change appendBit b (complete .ok (u.setOutLen u.wlen)) = _
  rw [appendBit_complete, hsetOutLen, Option.map_map]; rfl

/-- The commands go on as one append would: each writes OUT_LEN and STATUS anew. -/
theorem putbits_written (bits : List Bool) : ∀ u : State, putbits bits (written (u, true)) = written (appendBits bits u) := by
  induction bits with
  | nil => exact fun _ => rfl
  | cons b bits ih =>
    intro u
    have hb := appendBit_written b u
    cases hu : appendBit b u with
    | none =>
      rw [hu] at hb
      rw [putbits_cons_of_none hb, appendBits_cons_of_none hu]; rfl
    | some v =>
      rw [hu] at hb
      rw [putbits_cons_of_some hb, appendBits_cons_of_some hu]
      exact ih v

/-- One append and a sequence of PUTBIT commands with the same bits leave the same state (R158). -/
theorem written_appendBits {bits : List Bool} (h : bits ≠ []) (s : State) : written (appendBits bits s) = putbits bits s := by
  cases bits with
  | nil => exact absurd rfl h
  | cons b bits =>
    cases hb : appendBit b s with
    | none => rw [appendBits_cons_of_none hb, putbits_cons_of_none hb]
    | some u => rw [appendBits_cons_of_some hb, putbits_cons_of_some hb, putbits_written]

/-! ### The statements -/

/-- Settles O34: the two branches of GETBIT's body, behind the range check that passes. -/
theorem getbitReadsOneBit : Obligations.GetbitReadsOneBit := by
  intro s idx hin
  have hexec : exec (.getbit idx) s = finish (getbitBody idx s) := congrArg finish (ifInRange_of_le hin _)
  refine ⟨fun hidx => ?_, fun hidx => ?_⟩
  · rw [hexec, getbitBody, if_neg (by omega)]
    refine ⟨_, rfl, (toNat_bitResult _).trans ?_, rfl⟩
    rw [State.bitAt, Nat.zero_add, Bool.toNat, Bool.cond_eq_ite]
  · rw [hexec, getbitBody, if_pos hidx]; rfl

/-- Settles O35: the one bit is appended or not, and completing the command keeps what the append left. -/
theorem putbitAppendsOneBit : Obligations.PutbitAppendsOneBit := by
  refine ⟨fun s b hp hcap => ?_, fun s b hcap => ?_⟩
  · obtain ⟨-, -, -, hmax⟩ := hp
    obtain ⟨u, hu, hframe, hother, hbit, -, -⟩ := appendBit_fits (b := b) hcap
    have happend : appendBits [b] s = (u, true) := appendBits_cons_of_some hu []
    have hbits : u.wbits.toNat = s.wbits.toNat + 1 := by
      have hw : u.wbits = s.wbits + 1 := congrArg State.wbits hframe
      rw [hw, BitVec.toNat_add]
      exact Nat.mod_eq_of_lt (by change s.wbits.toNat + 1 < 2 ^ 32; omega)
    obtain ⟨hlen, hall⟩ := written_of_appendBits happend
    rw [exec_putbit, happend]
    refine ⟨_, rfl, hbits, by rw [hlen, hbits], (hbit _).trans (if_pos rfl), fun p _ hne => (hbit p).trans (if_neg hne),
      hother, hall⟩
  · have happend : appendBits [b] s = (s, false) := appendBits_cons_of_none (appendBit_eq_none.mpr hcap) []
    rw [exec_putbit, happend]
    exact ⟨_, rfl, (written_of_appendBits happend).1, rfl⟩

/-- Settles O36: the cycle's bits fit, and the stream's bits are read off `appendedBit`. -/
theorem putcycleAppendsZerosThenOnes : Obligations.PutcycleAppendsZerosThenOnes := by
  intro s m j hp hcap
  obtain ⟨-, -, -, hmax⟩ := hp
  have hfits : fits s (cycleBits m j).length := by rw [length_cycleBits, fits]; omega
  obtain ⟨u, hu, -, hw, hstream, hbytes, hnil, -⟩ := appendBits_fits hmax hfits
  obtain ⟨hlen, hall⟩ := written_of_appendBits hu
  rw [exec_putcycle, hu]
  have hl : (cycleBits m j).length = m + j := length_cycleBits m j
  rw [hl, ← Nat.add_assoc] at hw hbytes
  refine ⟨_, rfl, hw, by rw [hlen, hw], fun i hi => ?_, fun i hi => ?_, fun i hi hend hb => ?_, fun i hi hb => ?_, hbytes,
    fun h0 i => ?_, hall⟩
  · exact (hstream _).trans (appendedBit_add (getElem?_cycleBits hi))
  · exact (hstream i).trans (appendedBit_of_lt hi)
  · exact (hstream i).trans (appendedBit_of_not_begun (by omega) (by rw [hl, ← Nat.add_assoc]; exact hend) hb)
  · exact (hstream i).trans (appendedBit_of_begun (by omega) hb)
  · rw [hnil (List.eq_nil_of_length_eq_zero (hl.trans h0))]; rfl

/-- Settles O37: the bits up to OUT_CAP are appended as they would be alone. -/
theorem putcycleStopsAtTheFirstBitThatDoesNotFit : Obligations.PutcycleStopsAtTheFirstBitThatDoesNotFit := by
  intro s m j hp hpos hcap
  obtain ⟨-, -, -, hmax⟩ := hp
  have hnot : ¬fits s (cycleBits m j).length := by rw [length_cycleBits, fits]; omega
  obtain ⟨n, hn, hfits, hend, hfull⟩ := appendBits_full hnot
  rw [length_cycleBits] at hn
  have hl : ((cycleBits m j).take n).length = n := by rw [List.length_take, length_cycleBits]; omega
  obtain ⟨u, hu, -, hw, hstream, hbytes, hnil, -⟩ := appendBits_fits hmax (hl.symm ▸ hfits)
  have happend : appendBits (cycleBits m j) s = (u, false) := by rw [hfull hmax, hu]
  obtain ⟨hlen, hall⟩ := written_of_appendBits happend
  rw [exec_putcycle, happend]
  rw [hl] at hw hbytes
  refine ⟨_, rfl, hw.trans hend, hlen, fun i hi => ?_, fun i hi => ?_, fun i hi => ?_, hall⟩
  · have hin : i < n := Nat.lt_of_add_lt_add_left (hi.trans_eq hw)
    refine (hstream _).trans (appendedBit_add ?_)
    rw [List.getElem?_take_of_lt hin, getElem?_cycleBits (hin.trans hn)]
  · exact (hstream i).trans (appendedBit_of_lt hi)
  · rcases Nat.eq_zero_or_pos n with rfl | hn0
    · rw [hnil rfl]; rfl
    · exact hbytes i (hi.imp_right fun h => by rw [fits] at hfits; omega)

/-- Settles O38: the two sequences leave one state. -/
theorem putcycleEqualsPutbits : Obligations.PutcycleEqualsPutbits := by
  intro s t m j hpos ht
  obtain rfl : written (appendBits (cycleBits m j) s) = t := Host.Outcome.next.inj ht
  have hne : cycleBits m j ≠ [] := List.ne_nil_of_length_pos (by rw [length_cycleBits]; omega)
  have heq := written_appendBits hne s
  exact ⟨congrArg State.outbuf heq, congrArg State.wbits heq, congrArg State.outLen heq, congrArg State.err heq⟩

end Sys2Proof.Machine
end

section
/-! PROOFS. Frequency counting (42_frequency.md R170, R171): FREQ's table holds the counts of the input, which sum to its
length. -/

namespace Sys2Proof.Machine

/-- IN_LEN is a word, so no count of the input wraps (R170). -/
theorem toNat_entry_counts_input (s : State) (x : Byte) : (Table.entry (counts s.input) x).toNat = s.input.count x :=
  toNat_entry_counts (length_input s ▸ s.inLen.isLt) x

/-- Behind the range check that passes, FREQ stores the counts and completes OK (R170). -/
theorem exec_freq_of_le {s : State} (h : s.inLen.toNat ≤ s.params.inCap) :
    exec .freq s = .next (complete .ok (s.setFreq (counts s.input))) :=
  congrArg finish (ifInRange_of_le h freqBody)

/-- Settles O40: the table holds the counts of the input, so its sum is the input's length. -/
theorem freqCountsTheInput : Obligations.FreqCountsTheInput := by
  intro s h
  have hcount := toNat_entry_counts_input s
  have hsum : (symbols.map fun x => (Table.entry (counts s.input) x).toNat).sum = s.inLen.toNat := by
    simp only [hcount, sum_count_symbols, length_input]
  exact ⟨_, exec_freq_of_le h, hcount, hsum, rfl⟩

end Sys2Proof.Machine
end

section
/-! PROOFS. The canonical enumeration (43_code_builder.md R181, R182, R186): the rank order of the cycles, its inverse, and the
decoder's lookup through it (45_decoder.md R218); RANK2MJ and MJ2RANK, whose RESULT is read back field by field (R190 to R193). -/

namespace Sys2Proof.Machine

/-! ### The enumeration and its inverse -/

/-- g answers r exactly for the cycle that f gives r (R182). -/
theorem rankOfCycle_eq_some_iff {m j r : Nat} : rankOfCycle m j = some r ↔ cycleOf r = (m, j) := by
  refine ⟨cycleOf_of_rankOfCycle, fun h => ?_⟩
  have hg := rankOfCycle_cycleOf r
  rwa [h] at hg

/-- A cycle MJ2RANK can name has a rank that its 16-bit field holds (R192). -/
theorem rankOfCycle_lt_of_le {m j r : Nat} (hm : m ≤ 31) (hj : j ≤ 31) (h : rankOfCycle m j = some r) : r < 2 ^ 16 := by
  have hpos : ¬(m < 1 ∨ j < 1) := fun hn => by rw [rankOfCycle_eq_none.mpr hn] at h; cases h
  rw [rankOfCycle_pos (by omega) (by omega), Option.some.injEq] at h
  have hbase : base (m + j) ≤ 1830 := base_mono (L := 62) (by omega) (by omega)
  omega

/-! ### The resolve step (R218) -/

theorem resolve_of_rank {m j r : Nat} (h : rankOfCycle m j = some r) (s : State) :
    s.resolve m j = if r < s.k.toNat then some (s.symbolAt r) else none := by rw [State.resolve, h]

theorem resolve_of_no_rank {m j : Nat} (h : rankOfCycle m j = none) (s : State) : s.resolve m j = none := by
  rw [State.resolve, h]

theorem resolve_eq_some_iff {s : State} {m j : Nat} {x : Byte} : s.resolve m j = some x ↔
    ∃ r, rankOfCycle m j = some r ∧ r < s.k.toNat ∧ s.symbolAt r = x := by
  cases h : rankOfCycle m j with
  | none => simp [resolve_of_no_rank h]
  | some r => simp [resolve_of_rank h]

/-! ### The queries -/

theorem exec_rank2mj (r : Nat) (s : State) : exec (.rank2mj r) s =
    .next (complete .ok (s.setResult (cycleResult (decide (r < s.k.toNat)) (cycleOf r).1 (cycleOf r).2))) := rfl

theorem exec_mj2rank (m j : Nat) (s : State) :
    exec (.mj2rank m j) s = .next (complete .ok (s.setResult (mj2rankResult m j s))) := rfl

theorem mj2rankResult_of_no_rank {m j : Nat} (h : rankOfCycle m j = none) (s : State) : mj2rankResult m j s = 0 := by
  rw [mj2rankResult, h]

/-- MJ2RANK's RESULT for a pair, field by field (R192). -/
theorem mj2rankResult_fields {m j r : Nat} (h : rankOfCycle m j = some r) (s : State) :
    (mj2rankResult m j s).extractLsb' 0 16 = BitVec.ofNat 16 r ∧
    (mj2rankResult m j s).extractLsb' 16 8 = (if r < s.k.toNat then s.symbolAt r else 0) ∧
    (mj2rankResult m j s).extractLsb' 24 6 = 0 ∧
    (mj2rankResult m j s).getLsbD 30 = true ∧
    ((mj2rankResult m j s).getLsbD 31 = true ↔ r < s.k.toNat) := by
  have hres : mj2rankResult m j s =
      rankResult (decide (r < s.k.toNat)) (if r < s.k.toNat then s.symbolAt r else 0) r := by
    simp only [mj2rankResult, h, decide_eq_true_eq]
  obtain ⟨hrank, hsym, hzero, hpair, hhit⟩ :=
    rankResult_fields (decide (r < s.k.toNat)) (if r < s.k.toNat then s.symbolAt r else 0) r
  rw [hres]
  exact ⟨hrank, hsym, hzero, hpair, (Bool.eq_iff_iff.mp hhit).trans decide_eq_true_iff⟩

/-! ### The statements -/

/-- Settles O26: the length is `codeLength`, and the cycle is defined from it. -/
theorem cycleOfRankIsTheCanonicalOne : Obligations.CycleOfRankIsTheCanonicalOne := by
  intro r
  obtain ⟨h2, hle, hlt⟩ := codeLength_spec r
  obtain ⟨hm, hj, hsum, -⟩ := cycleOf_spec r
  exact ⟨codeLength r, h2, hle, hlt, fun L' h2' hle' hlt' => codeLength_unique h2' hle' hlt', rfl, hm, hj, hsum⟩

/-- Settles O27: f and g are inverse to each other, so the lookup through g is the search through f. -/
theorem rankOfCycleInvertsCycleOfRank : Obligations.RankOfCycleInvertsCycleOfRank := by
  refine ⟨fun m j => rankOfCycle_eq_none, fun m j hm hj => rankOfCycle_pos hm hj, rankOfCycle_cycleOf,
    fun m j r => cycleOf_of_rankOfCycle, fun s m j x => resolve_eq_some_iff, fun s m j x => resolve_eq_some_iff.trans ?_⟩
  simp only [rankOfCycle_eq_some_iff]
  exact exists_congr fun r => and_left_comm

/-- Settles O28: lengths follow `codeLength`, and within a length the rank is the offset of the second count. -/
theorem codeLengthsAreMonotoneAndBounded : Obligations.CodeLengthsAreMonotoneAndBounded := by
  refine ⟨fun q r h => ?_, fun q r h hlen => ?_, fun r h => ?_⟩
  · obtain ⟨-, -, hq, -⟩ := cycleOf_spec q
    obtain ⟨-, -, hr, -⟩ := cycleOf_spec r
    rw [hq, hr]
    exact codeLength_mono h
  · obtain ⟨-, -, hq, hqbase⟩ := cycleOf_spec q
    obtain ⟨-, -, hr, hrbase⟩ := cycleOf_spec r
    rw [hq, hr] at hlen
    rw [hlen] at hqbase
    omega
  · obtain ⟨hm, hj, hsum, hbase⟩ := cycleOf_spec r
    have h24 := codeLength_le_24 (r := r) (by omega)
    have hfirst : codeLength r = 24 → base (codeLength r) = 253 := fun e => by rw [e]; rfl
    omega

/-- Settles O31: the counts of a rank of one byte fit their fields. -/
theorem rankToCycleResult : Obligations.RankToCycleResult := by
  intro s r hr
  obtain ⟨-, -, hsum, -⟩ := cycleOf_spec r
  have h24 := codeLength_le_24 hr
  obtain ⟨hm, hj, hlen, hzero, hin⟩ := cycleResult_fields (decide (r < s.k.toNat)) (cycleOf r).1 (cycleOf r).2
  refine ⟨_, exec_rank2mj r s, (congrArg BitVec.toNat hm).trans (toNat_ofNat_of_lt (by omega)),
    (congrArg BitVec.toNat hj).trans (toNat_ofNat_of_lt (by omega)),
    (congrArg BitVec.toNat hlen).trans (toNat_ofNat_of_lt (by omega)), hzero, ?_, rfl⟩
  exact (Bool.eq_iff_iff.mp hin).trans decide_eq_true_iff

/-- Settles O32: a count of 0 has no rank, and the rank of a pair fits its field. -/
theorem cycleToRankResult : Obligations.CycleToRankResult := by
  intro s m j hm hj
  refine ⟨_, exec_mj2rank m j s, fun h0 => ?_, fun hm1 hj1 => ?_, rfl⟩
  · exact mj2rankResult_of_no_rank (rankOfCycle_eq_none.mpr (by omega)) s
  · have hg := rankOfCycle_pos hm1 hj1
    obtain ⟨hrank, hsym, hzero, hpair, hhit⟩ := mj2rankResult_fields hg s
    exact ⟨(congrArg BitVec.toNat hrank).trans (toNat_ofNat_of_lt (rankOfCycle_lt_of_le hm hj hg)), hpair, hzero, hhit, hsym⟩

/-- Settles O33: HIT and the resolve step both test the rank against K. -/
theorem hitAgreesWithTheResolveStep : Obligations.HitAgreesWithTheResolveStep := by
  intro s t m j _ _ ht
  obtain rfl : complete .ok (s.setResult (mj2rankResult m j s)) = t := Host.Outcome.next.inj ht
  simp only [complete_result, setResult_result]
  cases h : rankOfCycle m j with
  | none => simp [mj2rankResult_of_no_rank h, resolve_of_no_rank h]
  | some r =>
    obtain ⟨-, hsym, -, -, hhit⟩ := mj2rankResult_fields h s
    rw [hhit, hsym, resolve_of_rank h]
    by_cases hr : r < s.k.toNat <;> simp [hr]

end Sys2Proof.Machine
end

section
/-! PROOFS. The two builders (43_code_builder.md R184, R185, R187, 46_header.md R241): BUILD_ENC writes a table whose rank r
holds the present symbol of rank r, and an input that either builder rejects changes nothing but STATUS. -/

namespace Sys2Proof.Machine

/-! ### BUILD_ENC (R185) -/

theorem exec_buildEnc_of_all_present {s : State} (h : (presentSymbols s.freq).length = 256) :
    exec .buildEnc s = .next (onlyStatus .alphabetOverflow s) := congrArg finish (if_pos h)

theorem exec_buildEnc_of_absent {s : State} (h : (presentSymbols s.freq).length ≠ 256) :
    exec .buildEnc s = .next (complete .ok
      (s.setCodeTable (presentSymbols s.freq).length (rankedSymbols s.freq) (symbolRanks s.freq))) := congrArg finish (if_neg h)

/-- With a symbol absent, K holds the number of the present ones undiminished. -/
theorem toNat_ofNat_length_presentSymbols {t : Table Word} (h : (presentSymbols t).length ≠ 256) :
    (BitVec.ofNat 8 (presentSymbols t).length).toNat = (presentSymbols t).length :=
  toNat_ofNat_of_lt (Nat.lt_of_le_of_ne (length_presentSymbols_le t) h)

theorem countP_present (t : Table Word) :
    symbols.countP (fun x => decide (Table.entry t x ≠ 0)) = (presentSymbols t).length := by
  rw [presentSymbols, ← List.countP_eq_length_filter]
  exact List.countP_congr fun x _ => by rw [decide_eq_true_iff, present_iff]

/-- R184's count of the present symbols before x is its rank. -/
theorem countP_before (t : Table Word) (x : Byte) :
    symbols.countP (fun y => decide (Table.entry t y ≠ 0 ∧
      (Table.entry t x < Table.entry t y ∨ (Table.entry t y = Table.entry t x ∧ y < x)))) = rankOf t x :=
  List.countP_congr fun y _ => by rw [decide_eq_true_iff, Bool.and_eq_true, present_iff, before_iff]

/-- The symbol at a rank below K is present, and the rank is its own (R187). -/
theorem rankOf_entry_rankedSymbols {t : Table Word} {r : Byte} (h : r.toNat < (presentSymbols t).length) :
    present t (Table.entry (rankedSymbols t) r) = true ∧ rankOf t (Table.entry (rankedSymbols t) r) = r.toNat := by
  obtain ⟨x, hx, hr⟩ := exists_rankOf h
  have hentry := entry_rankedSymbols hx
  rw [hr, BitVec.ofNat_toNat, BitVec.setWidth_eq] at hentry
  rw [hentry]
  exact ⟨hx, hr⟩

/-- Ranks rise in the rank order (R184). -/
theorem before_of_rankOf_lt {t : Table Word} {x y : Byte} (hy : present t y = true) (h : rankOf t x < rankOf t y) :
    before t x y = true := by
  have hne : x ≠ y := fun e => by rw [e] at h; omega
  rcases before_total t hne with hb | hb
  · exact hb
  · have := rankOf_lt hy hb; omega

/-! ### The statements -/

/-- Settles O41: each cause is the test of a branch that writes nothing. -/
theorem buildersRejectWithoutWriting : Obligations.BuildersRejectWithoutWriting := by
  refine ⟨fun s h => exec_buildEnc_of_all_present (length_presentSymbols_eq.mpr h), fun s hin h => ?_⟩
  have hrun : runBuildDec s = ⟨s, .invalidHeader⟩ := by
    rw [runBuildDec, ifInRange_of_le hin]
    simp only [buildDecBody]
    rcases h with h | h | ⟨h0, h1⟩
    · rw [if_pos h]
    · rw [if_pos h, ite_self]
    · rw [if_pos (⟨by rw [h0]; rfl, h1⟩ : (s.inByte 0).toNat = 0 ∧ 1 < s.inLen.toNat), ite_self, ite_self]
  exact congrArg finish hrun

/-- Settles O42: K and the ranks are R184's counts, and the two passes of writes store the ranks both ways. -/
theorem buildEncRanksThePresentSymbols : Obligations.BuildEncRanksThePresentSymbols := by
  intro s absent habsent
  have hne : (presentSymbols s.freq).length ≠ 256 := fun h => length_presentSymbols_eq.mp h absent habsent
  have hk := toNat_ofNat_length_presentSymbols hne
  refine ⟨_, exec_buildEnc_of_absent hne, ?_, fun x r hx hr => ?_, fun x hx => ?_, fun r hr => ?_, rfl⟩
  · exact hk.trans (countP_present s.freq).symm
  · rw [countP_before] at hr
    subst hr
    have hp := present_iff.mpr hx
    refine ⟨(rankOf_lt_length hp).trans_eq hk.symm, ?_, entry_rankedSymbols hp⟩
    exact (entry_symbolRanks s.freq x).trans (if_pos hp)
  · refine (entry_symbolRanks s.freq x).trans (if_neg ?_)
    rw [present_iff]
    exact not_not_intro hx
  · exact entry_rankedSymbols_of_le (hk.ge.trans hr)

/-- Settles O43: the symbol at rank r is the present one of rank r, so the table inherits the rank order. -/
theorem codeTableIsABijectionInRankOrder : Obligations.CodeTableIsABijectionInRankOrder := by
  intro s t ht hok
  have hne : (presentSymbols s.freq).length ≠ 256 := by
    intro h
    rw [exec_buildEnc_of_all_present h] at ht
    rw [← Host.Outcome.next.inj ht] at hok
    cases hok
  have hk := toNat_ofNat_length_presentSymbols hne
  rw [exec_buildEnc_of_absent hne] at ht
  obtain rfl := Host.Outcome.next.inj ht
  simp only [complete_k, complete_symtab, complete_ranktab, setCodeTable_k, setCodeTable_symtab, setCodeTable_ranktab, hk]
  refine ⟨fun r hr => ?_, fun q r hq hr hqr => ⟨fun h => hqr ?_, fun h => hqr (BitVec.eq_of_toNat_eq (cycleOf_injective h))⟩,
    fun x => ⟨fun hx => ?_, ?_⟩, fun q r hqr hr => ?_⟩
  · obtain ⟨hp, hrank⟩ := rankOf_entry_rankedSymbols hr
    rw [entry_symbolRanks, if_pos hp, hrank, BitVec.ofNat_toNat, BitVec.setWidth_eq]
  · obtain ⟨-, hqrank⟩ := rankOf_entry_rankedSymbols hq
    obtain ⟨-, hrrank⟩ := rankOf_entry_rankedSymbols hr
    exact BitVec.eq_of_toNat_eq (by rw [← hqrank, h, hrrank])
  · have hp := present_iff.mpr hx
    have hlt := rankOf_lt_length hp
    refine ⟨BitVec.ofNat 8 (rankOf s.freq x), ?_, entry_rankedSymbols hp⟩
    rw [toNat_ofNat_of_lt (hlt.trans_le (length_presentSymbols_le s.freq))]
    exact hlt
  · rintro ⟨r, hr, rfl⟩
    exact present_iff.mp (rankOf_entry_rankedSymbols hr).1
  · obtain ⟨-, hqrank⟩ := rankOf_entry_rankedSymbols (hqr.trans hr)
    obtain ⟨hp, hrrank⟩ := rankOf_entry_rankedSymbols hr
    have hbefore := before_iff.mp (before_of_rankOf_lt hp (by rwa [hqrank, hrrank]))
    rwa [eq_comm (a := Table.entry s.freq _)] at hbefore

end Sys2Proof.Machine
end

section
/-! PROOFS. The encoder (44_encoder.md R200 to R203): the header and a bit string behind it in OUTBUF, which is what the payload
loop leaves whichever way it ends; what the end of ENCODE adds to it; and the bound on its size. -/

namespace Sys2Proof.Machine

/-! ### The header and the bits behind it (R101, R102, R150, R153) -/

/-- u holds the header of s in OUTBUF and, behind it, a stream of just these bits, zero-padded; it has the other bytes of OUTBUF
and the ranks that s has. -/
structure HoldsStream (s u : State) (bits : List Bool) : Prop where
  ranktab : u.ranktab = s.ranktab
  wbase : u.wbase.toNat = 1 + s.k.toNat
  wbits : u.wbits.toNat = bits.length
  count : u.outByte 0 = s.k
  symbol : ∀ r : Byte, r.toNat < s.k.toNat → u.outByte (1 + r.toNat) = Table.entry s.symtab r
  bit : ∀ i, i < bits.length → bits[i]? = some (u.outBitAt (1 + s.k.toNat) i)
  padding : ∀ i, bits.length ≤ i → i < 8 * ((bits.length + 7) / 8) → u.outBitAt (1 + s.k.toNat) i = false
  rest : ∀ i, 1 + s.k.toNat + (bits.length + 7) / 8 ≤ i → u.outByte i = s.outByte i

/-- The header always fits (R200). -/
theorem header_fits {s : State} (hp : s.params.legal) : 1 + s.k.toNat ≤ s.params.outCap := by
  obtain ⟨-, -, hmin, -⟩ := hp
  have hk := s.k.isLt
  omega

theorem fits_encodeStart (s : State) (n : Nat) :
    fits (encodeStart s) n ↔ n = 0 ∨ n ≤ 8 * (s.params.outCap - (1 + s.k.toNat)) := by
  rw [fits, toNat_wbase_encodeStart]
  change n = 0 ∨ 0 + n ≤ _ ↔ _
  rw [Nat.zero_add]; rfl

/-- The stream begins empty, so every bit is an appended one or the padding of a byte that the append began. -/
theorem appendBits_encodeStart {s : State} {bits : List Bool} (hp : s.params.legal)
    (h : 1 + s.k.toNat + (bits.length + 7) / 8 ≤ s.params.outCap) :
    ∃ u, appendBits bits (encodeStart s) = (u, true) ∧ HoldsStream s u bits := by
  obtain ⟨-, -, -, hmax⟩ := hp
  obtain ⟨u, hu, hframe, hw, hstream, hbytes, -⟩ :=
    appendBits_fits (s := encodeStart s) (bits := bits) hmax ((fits_encodeStart s _).mpr (by omega))
  obtain ⟨hcount, hsymbol, hrest⟩ := outByte_encodeStart s
  have hw0 : (encodeStart s).wbits.toNat = 0 := rfl
  rw [toNat_wbase_encodeStart, hw0] at hstream hbytes
  rw [hw0, Nat.zero_add] at hw
  simp only [Nat.zero_add] at hbytes
  refine ⟨u, hu, (congrArg State.ranktab hframe :), ?_, hw, ?_, fun r hr => ?_, fun i hi => ?_, fun i hi hend => ?_,
    fun i hi => ?_⟩
  · exact (congrArg (fun t : State => t.wbase.toNat) hframe).trans (toNat_wbase_encodeStart s)
  · exact (hbytes 0 (by omega)).trans hcount
  · exact (hbytes _ (by omega)).trans (hsymbol r hr)
  · have hbit := appendedBit_add (old := (encodeStart s).outBitAt (1 + s.k.toNat)) (w := 0) (List.getElem?_eq_getElem hi)
    rw [Nat.zero_add] at hbit
    rw [hstream, hbit, List.getElem?_eq_getElem hi]
  · rw [hstream, appendedBit_of_not_begun (by omega) (by rwa [Nat.zero_add]) (Nat.zero_le _)]
  · exact (hbytes i (Or.inr hi)).trans (hrest i (by omega))

/-! ### The payload loop (R200) -/

section
variable {s : State} {xs : List Byte} {rs : List Nat}

/-- Bytes whose cycle codes fit leave the header and their codes, and the loop goes on from there. -/
theorem encodePayload_of_fits (hp : s.params.legal)
    (hranks : xs.map (fun x => (Table.entry s.ranktab x).map BitVec.toNat) = rs.map some)
    (h : 1 + s.k.toNat + ((payloadOf rs).length + 7) / 8 ≤ s.params.outCap) :
    ∃ u, HoldsStream s u (payloadOf rs) ∧ ∀ ys, encodePayload (xs ++ ys) (encodeStart s) = encodePayload ys u := by
  obtain ⟨u, hu, hholds⟩ := appendBits_encodeStart hp h
  exact ⟨u, hholds, fun ys => by rw [encodePayload_append ys xs rs (encodeStart s) hranks, hu, if_pos rfl]⟩

/-- Bytes whose cycle codes do not fit leave the header and the bits up to the end of OUTBUF. -/
theorem encodePayload_of_not_fits (hp : s.params.legal)
    (hranks : xs.map (fun x => (Table.entry s.ranktab x).map BitVec.toNat) = rs.map some)
    (h : s.params.outCap < 1 + s.k.toNat + ((payloadOf rs).length + 7) / 8) :
    ∃ u, HoldsStream s u ((payloadOf rs).take (8 * (s.params.outCap - (1 + s.k.toNat)))) ∧
      ∀ ys, encodePayload (xs ++ ys) (encodeStart s) = ⟨u, .capacity⟩ := by
  have hheader := header_fits hp
  have ⟨_, _, _, hmax⟩ := hp
  have hnot : ¬fits (encodeStart s) (payloadOf rs).length := by rw [fits_encodeStart]; omega
  obtain ⟨n, -, -, hend, hfull⟩ := appendBits_full hnot
  obtain rfl : n = 8 * (s.params.outCap - (1 + s.k.toNat)) := by
    rw [toNat_wbase_encodeStart] at hend
    change 0 + n = max 0 (8 * (s.params.outCap - (1 + s.k.toNat))) at hend
    omega
  obtain ⟨u, hu, hholds⟩ := appendBits_encodeStart (bits := (payloadOf rs).take (8 * (s.params.outCap - (1 + s.k.toNat)))) hp
    (by rw [List.length_take]; omega)
  refine ⟨u, hholds, fun ys => ?_⟩
  rw [encodePayload_append ys xs rs (encodeStart s) hranks, hfull hmax, hu]
  rfl

end

theorem encodePayload_cons_of_none {u : State} {x : Byte} (h : Table.entry u.ranktab x = none) (ys : List Byte) :
    encodePayload (x :: ys) u = ⟨u, .internalInvariant⟩ := by rw [encodePayload, h]

/-- Every input is a part whose bytes have ranks, and behind it nothing or a byte without one. -/
theorem exists_ranked_part (rt : Table (Option Byte)) (xs : List Byte) :
    ∃ (ys zs : List Byte) (rs : List Nat), xs = ys ++ zs ∧
      ys.map (fun x => (Table.entry rt x).map BitVec.toNat) = rs.map some ∧ (∀ r ∈ rs, r ≤ 255) ∧ rs.length = ys.length ∧
      ∀ z ∈ zs.head?, Table.entry rt z = none := by
  by_cases h : ∀ x ∈ xs, Table.entry rt x ≠ none
  · obtain ⟨rs, hranks, hle, hlen⟩ := exists_ranks rt xs h
    exact ⟨xs, [], rs, (List.append_nil xs).symm, hranks, hle, hlen, by simp⟩
  · obtain ⟨ys, z, zs, rfl, hz, hys⟩ := exists_first_without_rank rt xs h
    obtain ⟨rs, hranks, hle, hlen⟩ := exists_ranks rt ys hys
    exact ⟨ys, z :: zs, rs, rfl, hranks, hle, hlen, by simpa using hz⟩

/-! ### The end of ENCODE (R200) -/

/-- The state that ENCODE leaves when its payload loop ended in r. -/
def encoded (r : Run) : State := complete r.err (encodeEnd r).state

theorem exec_encode_of_le {s : State} (hin : s.inLen.toNat ≤ s.params.inCap) :
    exec .encode s = .next (encoded (encodePayload s.input (encodeStart s))) := congrArg finish (ifInRange_of_le hin encodeBody)

/-- Beside what the header and the payload loop wrote, and OUT_LEN, only STATUS differs. -/
theorem encoded_frame {s u : State} {e : ErrCode} (hin : s.inLen.toNat ≤ s.params.inCap)
    (h : encodePayload s.input (encodeStart s) = ⟨u, e⟩) :
    encoded ⟨u, e⟩ =
      { onlyStatus e s with
        outbuf := (encoded ⟨u, e⟩).outbuf
        outLen := (encoded ⟨u, e⟩).outLen
        wbase := (encoded ⟨u, e⟩).wbase
        wbits := (encoded ⟨u, e⟩).wbits } := by
  have hrun : runEncode s = encodeEnd ⟨u, e⟩ := by rw [runEncode, ifInRange_of_le hin, encodeBody, h]
  have hall := congrArg (complete e) (runEncode_frame s)
  rwa [hrun] at hall

theorem encoded_outLen_of_error {u : State} {e : ErrCode} (he : e ≠ .ok) : (encoded ⟨u, e⟩).outLen = 0 := by
  change BitVec.ofNat 32 (if e = .ok then u.wlen else 0) = 0
  rw [if_neg he]; rfl

/-- OUT_LEN counts the header and the bytes of the stream; it is 32 bits wide, and WBASE and WBITS cannot exceed that. -/
theorem encoded_outLen_of_ok {s u : State} {bits : List Bool} (h : HoldsStream s u bits) :
    (encoded ⟨u, .ok⟩).outLen.toNat = 1 + s.k.toNat + (bits.length + 7) / 8 := by
  have hk := s.k.isLt
  have hbits := u.wbits.isLt
  have hwlen : u.wlen = 1 + s.k.toNat + (bits.length + 7) / 8 := by rw [State.wlen, h.wbase, h.wbits, ceil8]
  rw [h.wbits] at hbits
  exact (congrArg (fun n => (BitVec.ofNat 32 n).toNat) hwlen).trans (toNat_ofNat_of_lt (by omega))

/-! ### The statements -/

/-- Settles O45: the whole input is ranked and its codes fit, so the loop ends behind them. -/
theorem encodeWritesTheCompressedRepresentation : Obligations.EncodeWritesTheCompressedRepresentation := by
  intro s rs hp hin hranks hcap
  obtain ⟨u, hu, hloop⟩ := encodePayload_of_fits hp hranks hcap
  have hpayload : encodePayload s.input (encodeStart s) = ⟨u, .ok⟩ := by rw [← List.append_nil s.input, hloop]; rfl
  have hlen := encoded_outLen_of_ok hu
  rw [exec_encode_of_le hin, hpayload]
  exact ⟨_, rfl, hlen, hu.wbase, hu.wbits, hu.count, hu.symbol, hu.bit, hu.padding, fun i hi => hu.rest i (hlen ▸ hi),
    encoded_frame hin hpayload⟩

/-- Settles O46: the codes before the byte without a rank fit; of those up to the byte that does not fit, the bits up to the end
of OUTBUF do. -/
theorem encodeStopsAtItsFirstError : Obligations.EncodeStopsAtItsFirstError := by
  refine ⟨fun s xs ys x rs hp hin hinput hranks hcap hx => ?_, fun s xs ys x r rs hp hin hinput hranks _ hx hcap => ?_⟩
  · obtain ⟨u, hu, hloop⟩ := encodePayload_of_fits hp hranks hcap
    have hpayload : encodePayload s.input (encodeStart s) = ⟨u, .internalInvariant⟩ := by
      rw [hinput, hloop, encodePayload_cons_of_none (by rw [hu.ranktab, hx])]
    rw [exec_encode_of_le hin, hpayload]
    exact ⟨_, rfl, encoded_outLen_of_error (by decide), hu.wbase, hu.wbits, hu.count, hu.symbol, hu.bit, hu.padding, hu.rest,
      encoded_frame hin hpayload⟩
  · have hranks' : (xs ++ [x]).map (fun y => (Table.entry s.ranktab y).map BitVec.toNat) = (rs ++ [r.toNat]).map some := by
      rw [List.map_append, List.map_append, hranks, List.map_singleton, hx]; rfl
    obtain ⟨u, hu, hloop⟩ := encodePayload_of_not_fits hp hranks' hcap
    have hpayload : encodePayload s.input (encodeStart s) = ⟨u, .capacity⟩ := by
      rw [hinput, List.append_cons, hloop]
    have hlen : ((payloadOf (rs ++ [r.toNat])).take (8 * (s.params.outCap - (1 + s.k.toNat)))).length =
        8 * (s.params.outCap - (1 + s.k.toNat)) := by rw [List.length_take]; omega
    have hheader := header_fits hp
    rw [exec_encode_of_le hin, hpayload]
    refine ⟨_, rfl, encoded_outLen_of_error (by decide), hu.wbase, hu.wbits.trans hlen, hu.count, hu.symbol, fun i hi => ?_,
      fun i hi => hu.rest i (by omega), encoded_frame hin hpayload⟩
    have hi' := hi.trans_eq hu.wbits
    rw [← List.getElem?_take_of_lt (hi'.trans_eq hlen)]
    exact hu.bit i hi'

/-- Settles O47: the ranked part of the input has codes of at most 24 bits each, so they fit three bytes each. -/
theorem encodedSizeIsBounded : Obligations.EncodedSizeIsBounded := by
  intro s t hp ht
  by_cases hrange : s.params.inCap < s.inLen.toNat
  · have hexec : exec .encode s = .next (onlyStatus .range s) := congrArg finish (ifInRange_of_lt hrange encodeBody)
    rw [hexec] at ht
    obtain rfl := Host.Outcome.next.inj ht
    exact ⟨nofun, fun _ => nofun⟩
  rw [exec_encode_of_le (Nat.le_of_not_lt hrange)] at ht
  obtain rfl := Host.Outcome.next.inj ht
  obtain ⟨ys, zs, rs, hinput, hranks, hle, hlen, hzs⟩ := exists_ranked_part s.ranktab s.input
  have hsize := length_payloadOf_le hle
  have hpart : rs.length ≤ s.inLen.toNat := by rw [hlen, ← length_input, hinput, List.length_append]; omega
  rw [hinput]
  by_cases hcap : 1 + s.k.toNat + ((payloadOf rs).length + 7) / 8 ≤ s.params.outCap
  · obtain ⟨u, hu, hloop⟩ := encodePayload_of_fits hp hranks hcap
    rw [hloop]
    cases zs with
    | nil => exact ⟨fun _ => (encoded_outLen_of_ok hu).trans_le (by omega), fun _ => nofun⟩
    | cons z zs =>
      rw [encodePayload_cons_of_none (by rw [hu.ranktab, hzs z rfl])]
      exact ⟨nofun, fun _ => nofun⟩
  · obtain ⟨u, -, hloop⟩ := encodePayload_of_not_fits hp hranks (Nat.lt_of_not_le hcap)
    have hk := s.k.isLt
    rw [hloop]
    exact ⟨nofun, fun hbig => by omega⟩

end Sys2Proof.Machine
end

section
/-! PROOFS. The decoder (45_decoder.md R215 to R225): what DECODE does in range, in three cases; what its parsing loop leaves,
from which the three outcomes of a payload, the bounds and the independence of the rest of the state follow. -/

namespace Sys2Proof.Machine

/-! ### Counts too large for a table (R219) -/

/-- A cycle with a table entry has a code of at most 24 bits, at least one of each kind, so neither of its counts reaches 24. -/
theorem resolve_of_long {m j : Nat} (h : 24 ≤ m ∨ 24 ≤ j) (s : State) : s.resolve m j = none := by
  rw [Option.eq_none_iff_forall_ne_some]
  intro x hx
  obtain ⟨r, hr, -, hcycle, -⟩ := resolve_eq_some hx
  obtain ⟨hm, hj, hsum, -⟩ := cycleOf_spec r
  have hk := s.k.isLt
  have h24 := codeLength_le_24 (r := r) (by omega)
  rw [hcycle] at hm hj hsum
  simp only at hm hj hsum
  omega

/-- Settles O29: the saturated counts are the counts themselves, or long ones like them. -/
theorem saturatedCountersResolveAlike : Obligations.SaturatedCountersResolveAlike := by
  refine fun s m j => ⟨?_, fun h => resolve_of_long h s⟩
  by_cases h : m ≤ 31 ∧ j ≤ 31
  · rw [min_eq_left h.1, min_eq_left h.2]
  · rw [resolve_of_long (by omega), resolve_of_long (by omega)]

/-! ### DECODE in range: a header error, CAPACITY, or the parsing loop (R216, R217) -/

/-- The cause of DECODE's checks (2) and (3): fewer bytes than the header, or payload bytes without a table. -/
def badHeader (s : State) : Prop :=
  s.inLen.toNat < 1 + s.k.toNat ∨ (s.k = 0 ∧ 0 < s.inLen.toNat - (1 + s.k.toNat))

/-- All of DECODE's checks pass. -/
structure ChecksPass (s : State) : Prop where
  input : s.inLen.toNat ≤ s.params.inCap
  header : 1 + s.k.toNat ≤ s.inLen.toNat
  empty : s.k = 0 → s.inLen.toNat = 1
  output : s.origLen.toNat ≤ s.params.outCap

theorem not_badHeader_iff {s : State} : ¬badHeader s ↔ 1 + s.k.toNat ≤ s.inLen.toNat ∧ (s.k = 0 → s.inLen.toNat = 1) := by
  rw [badHeader, not_or, Nat.not_lt]
  refine and_congr_right fun hle => ?_
  rw [not_and]
  refine forall_congr' fun hk => ?_
  have hk0 : s.k.toNat = 0 := by rw [hk]; rfl
  omega

theorem checks_cases {s : State} (hin : s.inLen.toNat ≤ s.params.inCap) :
    badHeader s ∨ (¬badHeader s ∧ s.params.outCap < s.origLen.toNat) ∨ ChecksPass s := by
  by_cases hb : badHeader s
  · exact .inl hb
  · obtain ⟨hheader, hempty⟩ := not_badHeader_iff.mp hb
    exact .inr ((Nat.lt_or_ge _ _).imp (⟨hb, ·⟩) (⟨hin, hheader, hempty, ·⟩))

/-- What DECODE leaves when a check behind the range check fails with code e (R216). -/
def rejected (e : ErrCode) (s : State) : State := complete e ((s.setCursor 0 0 0).setOutLen 0)

/-- What DECODE leaves when its parsing loop has ended in r (R217). -/
def decoded (s : State) (r : Parse) : State := complete r.err ((s.setCursor 0 0 0).storeParse r)

/-- The end of the parsing loop over the payload of s. -/
def State.parsed (s : State) : Parse := parse s.resolve s.origLen.toNat (s.inBits (1 + s.k.toNat)) 0 0 0

theorem exec_decode_of_badHeader {s : State} (hin : s.inLen.toNat ≤ s.params.inCap) (h : badHeader s) :
    exec .decode s = .next (rejected .invalidHeader s) := by
  have hbody : decodeBody s = ⟨(s.setCursor 0 0 0).setOutLen 0, .invalidHeader⟩ := by
    simp only [decodeBody]
    rcases h with h | ⟨hk, hbytes⟩
    · rw [if_pos h]
    · rw [if_pos (⟨by rw [hk]; rfl, hbytes⟩ : s.k.toNat = 0 ∧ 0 < s.inLen.toNat - (1 + s.k.toNat)), ite_self]
  exact congrArg finish ((ifInRange_of_le hin decodeBody).trans hbody)

theorem exec_decode_of_capacity {s : State} (hin : s.inLen.toNat ≤ s.params.inCap) (hb : ¬badHeader s)
    (h : s.params.outCap < s.origLen.toNat) : exec .decode s = .next (rejected .capacity s) := by
  obtain ⟨hshort, hbytes⟩ := not_or.mp hb
  have hbody : decodeBody s = ⟨(s.setCursor 0 0 0).setOutLen 0, .capacity⟩ := by
    simp only [decodeBody]
    rw [if_neg hshort, if_neg fun hk => hbytes ⟨BitVec.eq_of_toNat_eq hk.1, hk.2⟩, if_pos h]
  exact congrArg finish ((ifInRange_of_le hin decodeBody).trans hbody)

theorem exec_decode_of_checks {s : State} (h : ChecksPass s) : exec .decode s = .next (decoded s s.parsed) :=
  congrArg finish (runDecode_of_checks h.input h.header (fun hk => h.empty (BitVec.eq_of_toNat_eq hk)) h.output)

/-- Settles O51: the checks are the tests of the branches, in their order. -/
theorem decoderChecksInOrder : Obligations.DecoderChecksInOrder := by
  refine fun s => ⟨fun h => congrArg finish (ifInRange_of_lt h decodeBody), fun hin => ⟨fun h => ?_, fun hk h0 h => ?_⟩⟩
  · exact exec_decode_of_badHeader hin h
  · exact exec_decode_of_capacity hin (not_badHeader_iff.mpr ⟨hk, h0⟩) h

/-! ### What the parsing loop leaves (R217) -/

/-- The loop ends within ORIG_LEN and the payload, so RBITS and OUT_LEN hold what it counted (R224). -/
theorem parsed_bounds (s : State) : s.parsed.out.length ≤ s.origLen.toNat ∧
    s.parsed.pos ≤ 8 * (s.inLen.toNat - (1 + s.k.toNat)) := by
  have h := parse_bounds s.resolve s.origLen.toNat (s.inBits (1 + s.k.toNat)) 0 0 0
  rwa [length_inBits, Nat.zero_add] at h

/-- What a parse r leaves in t, beside what s held: its symbols in OUTBUF, its counts in the registers, its code. -/
structure StoresParse (s t : State) (r : Parse) : Prop where
  outLen : t.outLen.toNat = r.out.length
  rbits : t.rbits.toNat = r.pos
  cycleM : t.cycleM.toNat = min r.m 31
  cycleJ : t.cycleJ.toNat = min r.j 31
  symbol : ∀ i, i < r.out.length → r.out[i]? = some (t.outByte i)
  rest : ∀ i, r.out.length ≤ i → t.outByte i = s.outByte i
  frame : t = { onlyStatus r.err s with
    outbuf := t.outbuf, outLen := t.outLen, rbits := t.rbits, cycleM := t.cycleM, cycleJ := t.cycleJ }

/-- The payload is at most a buffer long, so the cursor fits its register. -/
theorem storesParse_decoded {s : State} (hp : s.params.legal) (h : ChecksPass s) :
    StoresParse s (decoded s s.parsed) s.parsed := by
  obtain ⟨hlen, hpos⟩ := parsed_bounds s
  obtain ⟨⟨-, -, hmax⟩, -⟩ := hp
  have hin := h.input
  have horig := s.origLen.isLt
  obtain ⟨hOutLen, hRbits, hM, hJ, hsymbol, hrest⟩ := storeParse_facts s s.parsed (by omega) (by omega)
  exact ⟨hOutLen, hRbits, hM, hJ, hsymbol, hrest, rfl⟩

/-- What DECODE leaves after a parse whose symbols are those of the ranks rs (R217). -/
theorem exec_decode_of_parsed {s : State} {rs : List Nat} {pos m j : Nat} {e : ErrCode} (hp : s.params.legal) (h : ChecksPass s)
    (hparsed : s.parsed = ⟨rs.map s.symbolAt, pos, m, j, e⟩) :
    ∃ t, exec .decode s = .next t ∧
      t.outLen.toNat = rs.length ∧
      (∀ i, i < rs.length → (rs[i]?).map (fun r => Table.entry s.symtab (BitVec.ofNat 8 r)) = some (t.outByte i)) ∧
      (∀ i, rs.length ≤ i → t.outByte i = s.outByte i) ∧
      t.rbits.toNat = pos ∧ t.cycleM.toNat = min m 31 ∧ t.cycleJ.toNat = min j 31 ∧
      t = { onlyStatus e s with
        outbuf := t.outbuf, outLen := t.outLen, rbits := t.rbits, cycleM := t.cycleM, cycleJ := t.cycleJ } := by
  have hstores := storesParse_decoded hp h
  rw [hparsed] at hstores
  obtain ⟨hOutLen, hRbits, hM, hJ, hsymbol, hrest, hframe⟩ := hstores
  simp only [List.length_map, List.getElem?_map] at hOutLen hsymbol hrest
  exact ⟨_, (exec_decode_of_checks h).trans (by rw [hparsed]), hOutLen, hsymbol, hrest, hRbits, hM, hJ, hframe⟩

/-! ### Payloads that begin with cycle codes (R188, R217, R218) -/

/-- The loop recovers the symbols of the codes and goes on behind them; with no code there is no one run to lengthen. -/
theorem parsed_of_codes {s : State} {rs : List Nat} {rest : List Bool} (need : Nat)
    (hneed : rs.length + need = s.origLen.toNat) (hrs : ∀ r ∈ rs, r < s.k.toNat)
    (hbits : s.inBits (1 + s.k.toNat) = payloadOf rs ++ rest) (hrest : rs = [] ∨ endsRun rest) :
    s.parsed =
      { parse s.resolve need rest (payloadOf rs).length (lastCycle rs 0 0).1 (lastCycle rs 0 0).2 with
        out := rs.map s.symbolAt ++
          (parse s.resolve need rest (payloadOf rs).length (lastCycle rs 0 0).1 (lastCycle rs 0 0).2).out } := by
  rw [State.parsed, hbits, ← hneed]
  rcases hrest with rfl | hrest
  · simp [lastCycle]
  · rw [parse_payloadOf s need hrest rs 0 0 0 hrs, Nat.zero_add]

/-- Padding does not lengthen a one run (R222). -/
theorem endsRun_zeros (z : Nat) : endsRun (List.replicate z false) := fun h =>
  Bool.false_ne_true (List.eq_of_mem_replicate (List.mem_of_head? h)).symm

/-- The cycle of a rank below K fits CYCLE's fields (R219). -/
theorem min_cycleOf {s : State} {r : Nat} (h : r < s.k.toNat) :
    min (cycleOf r).1 31 = (cycleOf r).1 ∧ min (cycleOf r).2 31 = (cycleOf r).2 := by
  obtain ⟨-, -, hsum, -⟩ := cycleOf_spec r
  have hk := s.k.isLt
  have h24 := codeLength_le_24 (r := r) (by omega)
  omega

/-- Settles O52: behind the last code nothing is left to recover. -/
theorem decodeRecoversTheEncodedSymbols : Obligations.DecodeRecoversTheEncodedSymbols := by
  intro s rs rest hp hin hk h0 ho hlen hrs hbits hrest
  have hparsed := parsed_of_codes 0 hlen hrs hbits hrest
  simp only [parse, List.append_nil] at hparsed
  obtain ⟨t, ht, hOutLen, hsymbol, hother, hRbits, hM, hJ, hframe⟩ := exec_decode_of_parsed hp ⟨hin, hk, h0, ho⟩ hparsed
  refine ⟨t, ht, BitVec.eq_of_toNat_eq (hOutLen.trans hlen), hsymbol, hother, hRbits, fun r hr => ?_, fun hnil => ?_, hframe⟩
  · obtain ⟨hm, hj⟩ := min_cycleOf (hrs r (List.mem_of_getLast? hr))
    simp only [lastCycle, hr] at hM hJ
    exact ⟨hM.trans hm, hJ.trans hj⟩
  · subst hnil
    exact ⟨BitVec.eq_of_toNat_eq hM, BitVec.eq_of_toNat_eq hJ⟩

/-- Settles O53: behind the codes the loop parses a zero run that the payload's end cuts. -/
theorem decodeReportsTruncation : Obligations.DecodeReportsTruncation := by
  intro s rs z hp hin hk h0 ho hlen hrs hbits
  obtain ⟨need, hneed⟩ := Nat.exists_eq_add_of_lt hlen
  have hparsed := parsed_of_codes (need + 1) hneed.symm hrs hbits (.inr (endsRun_zeros z))
  simp only [parse_zeros, List.append_nil] at hparsed
  obtain ⟨t, ht, hOutLen, hsymbol, hother, hRbits, hM, hJ, hframe⟩ := exec_decode_of_parsed hp ⟨hin, hk, h0, ho⟩ hparsed
  have hend : (payloadOf rs).length + z = 8 * (s.inLen.toNat - (1 + s.k.toNat)) := by
    rw [← length_inBits, hbits, List.length_append, List.length_replicate]
  exact ⟨t, ht, hOutLen, hsymbol, hother, hRbits.trans hend, hM, BitVec.eq_of_toNat_eq hJ, hframe⟩

/-- Settles O54: behind the codes the loop parses the two runs, whose cycle has no rank or one that is not below K. -/
theorem decodeReportsAnUnresolvedCycle : Obligations.DecodeReportsAnUnresolvedCycle := by
  intro s rs m j rest hp hin hk h0 ho hlen hrs hbits hj hm hends hentry
  obtain ⟨need, hneed⟩ := Nat.exists_eq_add_of_lt hlen
  rw [List.append_assoc, List.append_assoc] at hbits
  have hzeros : rs = [] ∨ endsRun (List.replicate m false ++ (List.replicate j true ++ rest)) := by
    cases m with
    | zero => exact .inl (hm rfl)
    | succ m => exact .inr (by simp [endsRun, List.replicate_succ])
  have hnone : s.resolve m j = none := by
    by_cases hm0 : m = 0
    · exact resolve_of_no_rank (rankOfCycle_eq_none.mpr (by omega)) s
    · refine (resolve_of_rank (rankOfCycle_pos (by omega) hj) s).trans (if_neg ?_)
      exact Nat.not_lt.mpr (hentry.resolve_left hm0)
  have hparsed := parsed_of_codes (need + 1) hneed.symm hrs hbits hzeros
  simp only [parse_cycle s.resolve need m j _ _ _ hj hends, hnone, List.append_nil] at hparsed
  exact exec_decode_of_parsed hp ⟨hin, hk, h0, ho⟩ hparsed

/-! ### Whatever the payload holds (R224, R225) -/

/-- Settles O55: the loop stays within its bounds, and a failed check leaves zeros. -/
theorem decodeStaysInBounds : Obligations.DecodeStaysInBounds := by
  intro s t hp hin ht
  have hrejected (e : ErrCode) (he : exec .decode s = .next (rejected e s)) :
      t.outLen = 0 ∧ t.rbits = 0 ∧ ∀ i, t.outByte i = s.outByte i := by
    obtain rfl := Host.Outcome.next.inj (he.symm.trans ht)
    exact ⟨rfl, rfl, fun _ => rfl⟩
  rcases checks_cases hin with hb | ⟨hb, hcap⟩ | hpass
  · obtain ⟨hOutLen, hRbits, hother⟩ := hrejected _ (exec_decode_of_badHeader hin hb)
    simp [hOutLen, hRbits, hother]
  · obtain ⟨hOutLen, hRbits, hother⟩ := hrejected _ (exec_decode_of_capacity hin hb hcap)
    simp [hOutLen, hRbits, hother]
  · obtain rfl := Host.Outcome.next.inj ((exec_decode_of_checks hpass).symm.trans ht)
    obtain ⟨hlen, hpos⟩ := parsed_bounds s
    have h := storesParse_decoded hp hpass
    exact ⟨h.outLen.trans_le hlen, h.rbits.trans_le hpos, fun i hi => h.rest i (h.outLen ▸ hi)⟩

/-- Two completions of DECODE with the same results. -/
structure SameDecoding (t t' : State) : Prop where
  err : t.err = t'.err
  outLen : t.outLen = t'.outLen
  rbits : t.rbits = t'.rbits
  cycleM : t.cycleM = t'.cycleM
  cycleJ : t.cycleJ = t'.cycleJ
  bytes : ∀ i, i < t.outLen.toNat → t.outByte i = t'.outByte i

theorem sameDecoding_rejected (e : ErrCode) (s s' : State) : SameDecoding (rejected e s) (rejected e s') :=
  ⟨rfl, rfl, rfl, rfl, rfl, fun i hi => absurd hi i.not_lt_zero⟩

theorem sameDecoding_of_storesParse {s s' t t' : State} {r : Parse} (h : StoresParse s t r) (h' : StoresParse s' t' r) :
    SameDecoding t t' where
  err := (congrArg State.err h.frame).trans (congrArg State.err h'.frame).symm
  outLen := BitVec.eq_of_toNat_eq (h.outLen.trans h'.outLen.symm)
  rbits := BitVec.eq_of_toNat_eq (h.rbits.trans h'.rbits.symm)
  cycleM := BitVec.eq_of_toNat_eq (h.cycleM.trans h'.cycleM.symm)
  cycleJ := BitVec.eq_of_toNat_eq (h.cycleJ.trans h'.cycleJ.symm)
  bytes i hi := by
    rw [h.outLen] at hi
    exact Option.some.inj ((h.symbol i hi).symm.trans (h'.symbol i hi))

/-- A payload bit is a bit of an input byte (R152). -/
theorem inBits_congr {s s' : State} (hlen : s.inLen = s'.inLen) (hbytes : ∀ i, i < s.inLen.toNat → s.inByte i = s'.inByte i)
    (b : Nat) : s.inBits b = s'.inBits b := by
  rw [State.inBits, State.inBits, ← hlen]
  refine List.map_congr_left fun i hi => ?_
  rw [State.bitAt, State.bitAt, hbytes _ (by have := List.mem_range.mp hi; omega)]

theorem resolve_congr {s s' : State} (hk : s.k = s'.k) (hsym : s.symtab = s'.symtab) : s.resolve = s'.resolve := by
  funext m j
  simp only [State.resolve, State.symbolAt, hk, hsym]

theorem parsed_congr {s s' : State} (hlen : s.inLen = s'.inLen) (horig : s.origLen = s'.origLen) (hk : s.k = s'.k)
    (hsym : s.symtab = s'.symtab) (hbytes : ∀ i, i < s.inLen.toNat → s.inByte i = s'.inByte i) : s.parsed = s'.parsed := by
  rw [State.parsed, State.parsed, resolve_congr hk hsym, inBits_congr hlen hbytes, horig, hk]

/-- Settles O56: the checks and the parsing loop read the listed state only. -/
theorem decodeDependsOnlyOnStreamAndTable : Obligations.DecodeDependsOnlyOnStreamAndTable := by
  intro s s' t t' hp hlegal hlen horig hk hsym hbytes hin ht ht'
  have hin' : s'.inLen.toNat ≤ s'.params.inCap := by rwa [← hlen, ← hp]
  have hbad : badHeader s ↔ badHeader s' := by rw [badHeader, badHeader, hlen, hk]
  have hsame : SameDecoding t t' := by
    rcases checks_cases hin with hb | ⟨hb, hcap⟩ | hpass
    · obtain rfl := Host.Outcome.next.inj ((exec_decode_of_badHeader hin hb).symm.trans ht)
      obtain rfl := Host.Outcome.next.inj ((exec_decode_of_badHeader hin' (hbad.mp hb)).symm.trans ht')
      exact sameDecoding_rejected ..
    · rw [hp, horig] at hcap
      obtain rfl := Host.Outcome.next.inj ((exec_decode_of_capacity hin hb (by rwa [hp, horig])).symm.trans ht)
      obtain rfl := Host.Outcome.next.inj ((exec_decode_of_capacity hin' (mt hbad.mpr hb) hcap).symm.trans ht')
      exact sameDecoding_rejected ..
    · have hpass' : ChecksPass s' :=
        ⟨hin', by rw [← hk, ← hlen]; exact hpass.header, by rw [← hk, ← hlen]; exact hpass.empty,
          by rw [← horig, ← hp]; exact hpass.output⟩
      obtain rfl := Host.Outcome.next.inj ((exec_decode_of_checks hpass).symm.trans ht)
      obtain rfl := Host.Outcome.next.inj ((exec_decode_of_checks hpass').symm.trans ht')
      have hstores := storesParse_decoded hlegal hpass
      rw [parsed_congr hlen horig hk hsym hbytes] at hstores ⊢
      exact sameDecoding_of_storesParse hstores (storesParse_decoded (hp ▸ hlegal) hpass')
  exact ⟨hsame.err, hsame.outLen, hsame.rbits, hsame.cycleM, hsame.cycleJ, hsame.bytes⟩

end Sys2Proof.Machine
end

section
/-! PROOFS. The round trip (45_decoder.md R223): what a COMPRESS that completes OK leaves in OUTBUF (47_composite.md R255), what
BUILD_DEC loads from a valid header (46_header.md R241), and DECODE of the payload behind it. -/

namespace Sys2Proof.Machine

/-! ### COMPRESS that completes OK (R200, R255) -/

/-- The ranks that BUILD_ENC gives the bytes of an input (R184). -/
def ranksOf (xs : List Byte) : List Nat := xs.map (rankOf (counts xs))

/-- Every byte of the input has been counted. -/
theorem present_counts_input {s : State} {x : Byte} (h : x ∈ s.input) : present (counts s.input) x = true := by
  rw [present_iff]
  intro h0
  have hcount := toNat_entry_counts_input s x
  rw [h0] at hcount
  exact List.not_mem_of_count_eq_zero hcount.symm h

theorem lt_of_mem_ranksOf {s : State} {r : Nat} (h : r ∈ ranksOf s.input) : r < (presentSymbols (counts s.input)).length := by
  obtain ⟨x, hx, rfl⟩ := List.mem_map.mp h
  exact rankOf_lt_length (present_counts_input hx)

/-- The table BUILD_ENC makes of an input ranks the whole input. -/
theorem map_symbolRanks_input (s : State) :
    s.input.map (fun x => (Table.entry (symbolRanks (counts s.input)) x).map BitVec.toNat) = (ranksOf s.input).map some := by
  rw [ranksOf, List.map_map]
  refine List.map_congr_left fun x hx => ?_
  have hp := present_counts_input hx
  have hlt := (rankOf_lt_length hp).trans_le (length_presentSymbols_le _)
  rw [entry_symbolRanks, if_pos hp, Option.map_some, toNat_ofNat_of_lt hlt]
  rfl

/-- The symbol at the rank of an input byte is the byte. -/
theorem entry_rankedSymbols_ranksOf (s : State) {i : Nat} (h : i < s.inLen.toNat) :
    ((ranksOf s.input)[i]?).map (fun r => Table.entry (rankedSymbols (counts s.input)) (BitVec.ofNat 8 r)) =
      some (s.inByte i) := by
  have hi : s.input[i]? = some (s.inByte i) := by rw [State.input, getElem?_inBytes h, Nat.zero_add]
  rw [ranksOf, List.getElem?_map, hi, Option.map_some, Option.map_some,
    entry_rankedSymbols (present_counts_input (List.mem_of_getElem? hi))]

/-- With K = 0 there is no input, so there is no payload. -/
theorem ranksOf_eq_nil {s : State} (h : (presentSymbols (counts s.input)).length = 0) : ranksOf s.input = [] :=
  List.eq_nil_iff_forall_not_mem.mpr fun r hr => by have := lt_of_mem_ranksOf hr; omega

/-- A COMPRESS that completes OK leaves the header of the tables it made, and the codes of its input behind it. -/
theorem compressed_of_ok {s t : State} (hp : s.params.legal) (ht : exec .compress s = .next t) (hok : t.err = .ok) :
    (presentSymbols (counts s.input)).length ≠ 256 ∧
    HoldsStream (s.tablesOf s.input) t (payloadOf (ranksOf s.input)) ∧
    t.outLen.toNat = 1 + (s.tablesOf s.input).k.toNat + ((payloadOf (ranksOf s.input)).length + 7) / 8 := by
  obtain rfl : complete (runCompress s).err (runCompress s).state = t := Host.Outcome.next.inj ht
  have hin : s.inLen.toNat ≤ s.params.inCap := by
    by_contra hrange
    rw [runCompress_of_lt (Nat.lt_of_not_le hrange)] at hok
    cases hok
  rw [runCompress_of_le hin] at hok ⊢
  by_cases hover : (presentSymbols (counts s.input)).length = 256
  · rw [if_pos hover] at hok
    cases hok
  rw [if_neg hover] at hok ⊢
  have hranks := map_symbolRanks_input s
  have hpayload : encodeBody (s.tablesOf s.input) =
      encodeEnd (encodePayload (s.input ++ []) (encodeStart (s.tablesOf s.input))) := by rw [List.append_nil]; rfl
  by_cases hcap : 1 + (s.tablesOf s.input).k.toNat + ((payloadOf (ranksOf s.input)).length + 7) / 8 ≤ s.params.outCap
  · obtain ⟨u, hu, hloop⟩ := encodePayload_of_fits (s := s.tablesOf s.input) hp hranks hcap
    have hlen := encoded_outLen_of_ok hu
    rw [hpayload, hloop]
    exact ⟨hover, { hu with }, hlen⟩
  · obtain ⟨u, -, hloop⟩ := encodePayload_of_not_fits (s := s.tablesOf s.input) hp hranks (Nat.lt_of_not_le hcap)
    rw [hpayload, hloop] at hok
    cases hok

/-! ### BUILD_DEC of a valid header (R241) -/

/-- The state with the code table that the header in INBUF describes. -/
def State.headerLoaded (s : State) : State := s.loadHeader (s.inBytes 1 (s.inByte 0).toNat)

theorem runBuildDec_of_header {s : State} (hin : s.inLen.toNat ≤ s.params.inCap) (hk : 1 + (s.inByte 0).toNat ≤ s.inLen.toNat)
    (h0 : s.inByte 0 = 0 → s.inLen.toNat = 1) : runBuildDec s = ⟨s.headerLoaded, .ok⟩ := by
  rw [runBuildDec, ifInRange_of_le hin, State.headerLoaded]
  simp only [buildDecBody]
  rw [if_neg (by omega), if_neg (by omega), if_neg]
  rintro ⟨hz, hlt⟩
  have := h0 (BitVec.eq_of_toNat_eq hz)
  omega

theorem headerLoaded_k (s : State) : s.headerLoaded.k = s.inByte 0 := by
  rw [State.headerLoaded, State.loadHeader, setCodeTable_k, length_inBytes, BitVec.ofNat_toNat, BitVec.setWidth_eq]

/-- SYMTAB after BUILD_DEC (R241). -/
theorem entry_headerLoaded_symtab (s : State) (r : Byte) :
    Table.entry s.headerLoaded.symtab r =
      if r.toNat < (s.inByte 0).toNat then s.inByte (1 + r.toNat) else 0 := by
  have hk := (s.inByte 0).isLt
  rw [State.headerLoaded, State.loadHeader, setCodeTable_symtab, entry_loadSymbols _ 0 _ r (by rw [length_inBytes]; omega),
    length_inBytes, Nat.zero_add, Nat.sub_zero, entry_replicate]
  by_cases hr : r.toNat < (s.inByte 0).toNat
  · rw [if_pos ⟨Nat.zero_le _, hr⟩, if_pos hr, getElem?_inBytes hr, Option.getD_some]
  · rw [if_neg fun h => hr h.2, if_neg hr]

/-! ### The payload read back (R102, R152) -/

/-- The bits of a stream that INBUF holds are the stream's, and zeros to the end of its last byte. -/
theorem inBits_of_holdsStream {w t u : State} {bits : List Bool} (h : HoldsStream w t bits)
    (hlen : u.inLen.toNat = 1 + w.k.toNat + (bits.length + 7) / 8)
    (hbytes : ∀ i, i < u.inLen.toNat → u.inByte i = t.outByte i) :
    u.inBits (1 + w.k.toNat) = bits ++ List.replicate (8 * ((bits.length + 7) / 8) - bits.length) false := by
  have hcount : 8 * (u.inLen.toNat - (1 + w.k.toNat)) = 8 * ((bits.length + 7) / 8) := by omega
  refine List.ext_getElem (by rw [length_inBits, List.length_append, List.length_replicate]; omega) fun i hi _ => ?_
  rw [length_inBits, hcount] at hi
  have hbit : u.bitAt (1 + w.k.toNat) i = t.outBitAt (1 + w.k.toNat) i := by
    rw [State.bitAt, State.outBitAt, hbytes _ (by omega)]
  simp only [State.inBits, List.getElem_map, List.getElem_range, List.getElem_append, List.getElem_replicate, hbit]
  by_cases hin : i < bits.length
  · rw [dif_pos hin]
    have := h.bit i hin
    rw [List.getElem?_eq_getElem hin] at this
    exact (Option.some.inj this).symm
  · rw [dif_neg hin]
    exact h.padding i (Nat.le_of_not_lt hin) hi

/-! ### The round trip (R223) -/

/-- BUILD_DEC loads K and SYMTAB as COMPRESS built them (R242). -/
theorem headerLoaded_of_holdsStream {s t u : State} {bits : List Bool} (hne : (presentSymbols (counts s.input)).length ≠ 256)
    (h : HoldsStream (s.tablesOf s.input) t bits) (hlen : 1 + (s.tablesOf s.input).k.toNat ≤ u.inLen.toNat)
    (hbytes : ∀ i, i < u.inLen.toNat → u.inByte i = t.outByte i) :
    u.inByte 0 = (s.tablesOf s.input).k ∧ u.headerLoaded.symtab = rankedSymbols (counts s.input) := by
  have hk : u.inByte 0 = (s.tablesOf s.input).k := (hbytes 0 (by omega)).trans h.count
  refine ⟨hk, table_ext fun r => ?_⟩
  rw [entry_headerLoaded_symtab, hk]
  by_cases hr : r.toNat < (s.tablesOf s.input).k.toNat
  · rw [if_pos hr, hbytes _ (by omega)]
    exact h.symbol r hr
  · rw [if_neg hr]
    exact (entry_rankedSymbols_of_le ((toNat_ofNat_length_presentSymbols hne).ge.trans (Nat.le_of_not_lt hr))).symm

/-- DECOMPRESS of a valid header is DECODE with the table it describes (R256). -/
theorem exec_decompress_of_header {s : State} (hin : s.inLen.toNat ≤ s.params.inCap)
    (hk : 1 + (s.inByte 0).toNat ≤ s.inLen.toNat) (h0 : s.inByte 0 = 0 → s.inLen.toNat = 1) :
    exec .decompress s = exec .decode s.headerLoaded := by
  have hrun : runDecompress s = runDecode s.headerLoaded := by
    rw [runDecompress_eq, runBuildDec_of_header hin hk h0, if_neg (not_not_intro rfl)]
  exact congrArg finish hrun

/-- Settles O59: BUILD_DEC restores the table, and the payload is the codes of the text's ranks, then zeros. -/
theorem decompressInvertsCompress : Obligations.DecompressInvertsCompress := by
  intro s t u hp ht hok hparams hinLen hcap hbytes horig hfit
  obtain ⟨hne, hstream, hlen⟩ := compressed_of_ok hp ht hok
  rw [← hinLen] at hlen hcap hbytes
  have hk : (s.tablesOf s.input).k.toNat = (presentSymbols (counts s.input)).length := toNat_ofNat_length_presentSymbols hne
  obtain ⟨hcount, hsymtab⟩ := headerLoaded_of_holdsStream hne hstream (by omega) hbytes
  have hheader : 1 + (u.inByte 0).toNat ≤ u.inLen.toNat := by rw [hcount]; omega
  have hempty : u.inByte 0 = 0 → u.inLen.toNat = 1 := by
    intro h0
    have hzero : (s.tablesOf s.input).k.toNat = 0 := by rw [← hcount, h0]; rfl
    rw [hlen, hzero, ranksOf_eq_nil (hk.symm.trans hzero)]
    rfl
  have hdecode := exec_decompress_of_header hcap hheader hempty
  have hbits := inBits_of_holdsStream hstream hlen hbytes
  rw [← hcount] at hbits hk
  have hranks : (ranksOf s.input).length = s.inLen.toNat := by rw [ranksOf, List.length_map, length_input]
  rw [← headerLoaded_k] at hheader hempty hbits hk
  obtain ⟨v, hv, hOutLen, hsymbol, -, -, -, -, hframe⟩ := decodeRecoversTheEncodedSymbols u.headerLoaded (ranksOf s.input) _
    (hparams ▸ hp) hcap hheader hempty (horig ▸ hfit) (hranks.trans (congrArg BitVec.toNat horig.symm))
    (fun r hr => (lt_of_mem_ranksOf hr).trans_eq hk.symm) hbits (.inr (endsRun_zeros _))
  refine ⟨v, hdecode.trans hv, congrArg State.err hframe, hOutLen.trans horig, fun i hi => ?_⟩
  have hbyte := hsymbol i (hi.trans_eq hranks.symm)
  rw [hsymtab, entry_rankedSymbols_ranksOf s hi] at hbyte
  exact (Option.some.inj hbyte).symm

end Sys2Proof.Machine
end

section
/-! PROOFS. Header decoding (46_header.md R241 to R244): BUILD_DEC completes OK exactly on a valid header, and loads its code
table; a DECODE behind it passes its header checks; and the header that COMPRESS writes describes the table COMPRESS built. -/

namespace Sys2Proof.Machine

/-! ### The headers BUILD_DEC accepts (R241) -/

/-- INBUF begins with a header that all of BUILD_DEC's checks let pass. -/
structure ValidHeader (s : State) : Prop where
  input : s.inLen.toNat ≤ s.params.inCap
  header : 1 + (s.inByte 0).toNat ≤ s.inLen.toNat
  empty : s.inByte 0 = 0 → s.inLen.toNat = 1

theorem exec_buildDec_of_validHeader {s : State} (h : ValidHeader s) :
    exec .buildDec s = .next (complete .ok s.headerLoaded) :=
  congrArg finish (runBuildDec_of_header h.input h.header h.empty)

/-- Any other header stops BUILD_DEC with a code. -/
theorem validHeader_of_buildDec_ok {s t : State} (ht : exec .buildDec s = .next t) (hok : t.err = .ok) : ValidHeader s := by
  have stops_not {e : ErrCode} (he : e ≠ .ok) (hexec : exec .buildDec s = .next (onlyStatus e s)) : False := by
    obtain rfl := Host.Outcome.next.inj (hexec.symm.trans ht)
    exact he hok
  have hin : s.inLen.toNat ≤ s.params.inCap := Nat.le_of_not_lt fun hlt =>
    stops_not (e := .range) (by decide) (congrArg finish (ifInRange_of_lt hlt buildDecBody))
  have no_cause := fun hcause => stops_not (e := .invalidHeader) (by decide) (buildersRejectWithoutWriting.2 s hin hcause)
  refine ⟨hin, Nat.le_of_not_lt fun hlt => no_cause (.inr (.inl hlt)), fun h0 => ?_⟩
  have hnonempty : s.inLen.toNat ≠ 0 := fun h => no_cause (.inl h)
  have hno_payload : ¬1 < s.inLen.toNat := fun h => no_cause (.inr (.inr ⟨h0, h⟩))
  omega

/-! ### RANKTAB after BUILD_DEC (R241) -/

theorem getElem?_inBytes_eq_some_iff {s : State} {i n d : Nat} {x : Byte} :
    (s.inBytes i n)[d]? = some x ↔ d < n ∧ s.inByte (i + d) = x := by
  by_cases hd : d < n
  · rw [getElem?_inBytes hd, Option.some.injEq, and_iff_right hd]
  · rw [List.getElem?_eq_none (by rw [length_inBytes]; omega)]
    exact ⟨nofun, fun h => absurd h.1 hd⟩

/-- The rank of a symbol is the first at which it stands in the header. -/
theorem entry_headerLoaded_ranktab (s : State) (x r : Byte) :
    Table.entry s.headerLoaded.ranktab x = some r ↔
      r.toNat < (s.inByte 0).toNat ∧ s.inByte (1 + r.toNat) = x ∧ ∀ q, q < r.toNat → s.inByte (1 + q) ≠ x := by
  have hk := (s.inByte 0).isLt
  rw [State.headerLoaded, State.loadHeader, setCodeTable_ranktab,
    entry_loadRanks_eq_some (by rw [length_inBytes]; omega), getElem?_inBytes_eq_some_iff, and_assoc]
  refine and_congr_right fun hr => and_congr_right fun _ => forall₂_congr fun q hq => ?_
  rw [Ne, getElem?_inBytes_eq_some_iff, and_iff_right (hq.trans hr)]

/-! ### DECODE behind a header it accepts (R216, R244) -/

/-- DECODE in range completes INVALID_HEADER only at its two header checks. -/
theorem decode_err_ne_invalidHeader {s t : State} (hin : s.inLen.toNat ≤ s.params.inCap) (hb : ¬badHeader s)
    (ht : exec .decode s = .next t) : t.err ≠ .invalidHeader := by
  rcases checks_cases hin with hbad | ⟨-, hcap⟩ | hpass
  · exact absurd hbad hb
  · obtain rfl := Host.Outcome.next.inj ((exec_decode_of_capacity hin hb hcap).symm.trans ht)
    exact nofun
  · obtain rfl := Host.Outcome.next.inj ((exec_decode_of_checks hpass).symm.trans ht)
    have herr : s.parsed.err ∈ [ErrCode.ok, .truncatedStream, .unresolvedCycle] := parse_err ..
    intro (hinvalid : s.parsed.err = .invalidHeader)
    rw [hinvalid] at herr
    exact absurd herr (by decide)

/-- K is the header's first byte, so DECODE's header checks are those the header has passed (R244). -/
theorem not_badHeader_of_validHeader {s : State} (h : ValidHeader s) : ¬badHeader (complete .ok s.headerLoaded) := by
  rw [not_badHeader_iff, complete_k, headerLoaded_k]
  exact ⟨h.header, h.empty⟩

/-! ### The table that COMPRESS leaves, and the one its header describes (R242, R255) -/

/-- ENCODE leaves the tables that BUILD_ENC made of the input. -/
theorem codeTable_of_compress_ok {s t : State} (ht : exec .compress s = .next t) (hok : t.err = .ok) :
    t.k = (s.tablesOf s.input).k ∧ t.symtab = rankedSymbols (counts s.input) ∧ t.ranktab = symbolRanks (counts s.input) := by
  obtain rfl : complete (runCompress s).err (runCompress s).state = t := Host.Outcome.next.inj ht
  rcases Nat.lt_or_ge s.params.inCap s.inLen.toNat with hrange | hin
  · rw [runCompress_of_lt hrange] at hok
    cases hok
  rw [runCompress_of_le hin] at hok ⊢
  by_cases hover : (presentSymbols (counts s.input)).length = 256
  · rw [if_pos hover] at hok
    cases hok
  have hencode : encodeBody (s.tablesOf s.input) = runEncode (s.tablesOf s.input) :=
    (ifInRange_of_le (s := s.tablesOf s.input) hin encodeBody).symm
  have hframe := runEncode_frame (s.tablesOf s.input)
  rw [if_neg hover, hencode]
  exact ⟨(congrArg State.k hframe :), (congrArg State.symtab hframe :), (congrArg State.ranktab hframe :)⟩

/-- SYMTAB and RANKTAB of BUILD_ENC are inverse to each other below K (R187). -/
theorem entry_symbolRanks_eq_some_iff {t : Table Word} (hne : (presentSymbols t).length ≠ 256) {x r : Byte} :
    Table.entry (symbolRanks t) x = some r ↔ r.toNat < (presentSymbols t).length ∧ Table.entry (rankedSymbols t) r = x := by
  constructor
  · intro hx
    obtain ⟨-, hinverse⟩ := codeTableOk_buildEnc hne
    rw [← toNat_ofNat_length_presentSymbols hne]
    exact hinverse x r hx
  · rintro ⟨hr, rfl⟩
    obtain ⟨hp, hrank⟩ := rankOf_entry_rankedSymbols hr
    rw [entry_symbolRanks, if_pos hp, hrank, BitVec.ofNat_toNat, BitVec.setWidth_eq]

/-- A header that lists the ranked symbols gives every symbol its rank back: each stands there once. -/
theorem headerLoaded_ranktab_of_symtab {s : State} {t : Table Word} (hne : (presentSymbols t).length ≠ 256)
    (hcount : (s.inByte 0).toNat = (presentSymbols t).length) (hsymtab : s.headerLoaded.symtab = rankedSymbols t) :
    s.headerLoaded.ranktab = symbolRanks t := by
  have hsymbol {r : Byte} (hr : r.toNat < (presentSymbols t).length) :
      s.inByte (1 + r.toNat) = Table.entry (rankedSymbols t) r := by
    rw [← hsymtab, entry_headerLoaded_symtab, if_pos (hr.trans_eq hcount.symm)]
  refine table_ext fun x => Option.ext fun r => ?_
  rw [entry_headerLoaded_ranktab, entry_symbolRanks_eq_some_iff hne, hcount]
  refine and_congr_right fun hr => ?_
  rw [hsymbol hr]
  refine and_iff_left_of_imp fun hx q hq hqx => ?_
  obtain ⟨q, rfl⟩ : ∃ b : Byte, b.toNat = q := ⟨BitVec.ofNat 8 q, toNat_ofNat_of_lt (hq.trans r.isLt)⟩
  rw [hsymbol (hq.trans hr)] at hqx
  have hrank_r := (entry_symbolRanks_eq_some_iff hne).mpr ⟨hr, hx⟩
  have hrank_q := (entry_symbolRanks_eq_some_iff hne).mpr ⟨hq.trans hr, hqx⟩
  obtain rfl : q = r := Option.some.inj (hrank_q.symm.trans hrank_r)
  exact absurd hq (lt_irrefl _)

/-- With K = 0 the input was empty, so COMPRESS's result is its header alone. -/
theorem validHeader_of_holdsStream {s t u : State} (hne : (presentSymbols (counts s.input)).length ≠ 256)
    (h : HoldsStream (s.tablesOf s.input) t (payloadOf (ranksOf s.input))) (hin : u.inLen.toNat ≤ u.params.inCap)
    (hlen : u.inLen.toNat = 1 + (s.tablesOf s.input).k.toNat + ((payloadOf (ranksOf s.input)).length + 7) / 8)
    (hbytes : ∀ i, i < u.inLen.toNat → u.inByte i = t.outByte i) : ValidHeader u := by
  have hcount : u.inByte 0 = (s.tablesOf s.input).k := (hbytes 0 (by omega)).trans h.count
  refine ⟨hin, by rw [hcount]; omega, fun h0 => ?_⟩
  have hzero : (s.tablesOf s.input).k.toNat = 0 := by rw [← hcount, h0]; rfl
  rw [hlen, hzero, ranksOf_eq_nil ((toNat_ofNat_length_presentSymbols hne).symm.trans hzero)]
  rfl

/-! ### The statements -/

/-- Settles O44: the tables are those of the header, whose checks DECODE's header checks repeat. -/
theorem buildDecLoadsTheHeader : Obligations.BuildDecLoadsTheHeader := by
  refine ⟨fun s hin hk h0 => ?_, fun s t u ht hok hu => ?_⟩
  · refine ⟨_, exec_buildDec_of_validHeader ⟨hin, hk, h0⟩, headerLoaded_k s, fun r hr => ?_, fun r hr => ?_,
      entry_headerLoaded_ranktab s, rfl⟩
    · exact (entry_headerLoaded_symtab s r).trans (if_pos hr)
    · exact (entry_headerLoaded_symtab s r).trans (if_neg (Nat.not_lt.mpr hr))
  · have hvalid := validHeader_of_buildDec_ok ht hok
    obtain rfl := Host.Outcome.next.inj ((exec_buildDec_of_validHeader hvalid).symm.trans ht)
    exact decode_err_ne_invalidHeader (s := complete .ok s.headerLoaded) hvalid.input (not_badHeader_of_validHeader hvalid) hu

/-- Settles O58: the header lists the symbols as SYMTAB does, and RANKTAB is SYMTAB's inverse on both sides. -/
theorem headerCarriesTheCodeTable : Obligations.HeaderCarriesTheCodeTable := by
  intro s t u v hp ht hok _ hinLen hcap hbytes hv
  obtain ⟨hne, hstream, hlen⟩ := compressed_of_ok hp ht hok
  rw [← hinLen] at hlen hcap hbytes
  have hvalid := validHeader_of_holdsStream hne hstream hcap hlen hbytes
  obtain ⟨hcount, hsymtab⟩ := headerLoaded_of_holdsStream hne hstream (by omega) hbytes
  have hranktab := headerLoaded_ranktab_of_symtab hne
    (by rw [hcount]; exact toNat_ofNat_length_presentSymbols hne) hsymtab
  obtain ⟨hkept_k, hkept_symtab, hkept_ranktab⟩ := codeTable_of_compress_ok ht hok
  obtain rfl := Host.Outcome.next.inj ((exec_buildDec_of_validHeader hvalid).symm.trans hv)
  exact ⟨rfl, (headerLoaded_k u).trans (hcount.trans hkept_k.symm), hsymtab.trans hkept_symtab.symm,
    hranktab.trans hkept_ranktab.symm⟩

end Sys2Proof.Machine
end

section
/-! PROOFS. The composites and NOP (47_composite.md R255 to R258): each composite is its sub-commands one after another, and
from there its result is that of its last one, ENCODE or DECODE, with the tables its first ones made. -/

namespace Sys2Proof.Machine

/-! ### Commands one after another (R258) -/

/-- COMPRESS clears OUT_LEN on an error in FREQ or BUILD_ENC; ENCODE clears it itself on an error of its own (R200, R255). -/
theorem runCompress_eq_subCommands (s : State) : runCompress s =
    if (runFreq s).err ≠ .ok then ⟨(runFreq s).state.setOutLen 0, (runFreq s).err⟩
    else if (runBuildEnc (runFreq s).state).err ≠ .ok then
      ⟨(runBuildEnc (runFreq s).state).state.setOutLen 0, (runBuildEnc (runFreq s).state).err⟩
    else runEncode (runBuildEnc (runFreq s).state).state := by
  rcases Nat.lt_or_ge s.params.inCap s.inLen.toNat with hrange | hin
  · have hfreq : (runFreq s).err ≠ .ok := by rw [runFreq, ifInRange_of_lt hrange]; exact nofun
    rw [runCompress_eq, if_pos hfreq, if_pos hfreq]
  · have hkept : (runBuildEnc (runFreq s).state).state.inLen.toNat ≤
        (runBuildEnc (runFreq s).state).state.params.inCap := by
      rw [runBuildEnc_frame, runFreq_frame]; exact hin
    rw [runCompress_eq, runEncode_cleanUp hkept]

/-- STATUS as FREQ left it does not matter to BUILD_ENC. -/
theorem after_buildEnc_complete (e : ErrCode) (s : State) : after .buildEnc (complete e s) = after .buildEnc s := by
  change complete (runBuildEnc (complete e s)).err (runBuildEnc (complete e s)).state = _
  rw [runBuildEnc_complete]; rfl

/-- STATUS as BUILD_ENC left it does not matter to ENCODE. -/
theorem after_encode_complete (e : ErrCode) (s : State) : after .encode (complete e s) = after .encode s := by
  change complete (runEncode (complete e s)).err (runEncode (complete e s)).state = _
  rw [runEncode_complete]; rfl

/-- STATUS as BUILD_DEC left it does not matter to DECODE. -/
theorem after_decode_complete (e : ErrCode) (s : State) : after .decode (complete e s) = after .decode s := by
  change complete (runDecode (complete e s)).err (runDecode (complete e s)).state = _
  rw [runDecode_complete]; rfl

theorem after_freq (s : State) : after .freq s = complete (runFreq s).err (runFreq s).state := rfl

theorem after_buildEnc (s : State) : after .buildEnc s = complete (runBuildEnc s).err (runBuildEnc s).state := rfl

theorem after_buildDec (s : State) : after .buildDec s = complete (runBuildDec s).err (runBuildDec s).state := rfl

theorem exec_compress_eq_subCommands (s : State) : exec .compress s = .next
    (if (after .freq s).err ≠ .ok then { after .freq s with outLen := 0 }
     else if (after .buildEnc (after .freq s)).err ≠ .ok then { after .buildEnc (after .freq s) with outLen := 0 }
     else after .encode (after .buildEnc (after .freq s))) := by
  change finish (runCompress s) = _
  rw [runCompress_eq_subCommands, after_freq, after_buildEnc_complete, after_buildEnc, after_encode_complete,
    complete_err, complete_err]
  split_ifs <;> rfl

theorem exec_decompress_eq_subCommands (s : State) : exec .decompress s = .next
    (if (after .buildDec s).err ≠ .ok then { after .buildDec s with outLen := 0 }
     else after .decode (after .buildDec s)) := by
  change finish (runDecompress s) = _
  rw [runDecompress_eq, after_buildDec, after_decode_complete, complete_err]
  split_ifs <;> rfl

/-! ### COMPRESS of an input with an absent byte value (R184, R255) -/

/-- FREQ's table tells the bytes of the input from the others (R170). -/
theorem entry_counts_input_ne_zero_iff {s : State} {x : Byte} : Table.entry (counts s.input) x ≠ 0 ↔ x ∈ s.input := by
  refine ⟨fun hne => ?_, fun hx => present_iff.mp (present_counts_input hx)⟩
  by_contra hx
  exact hne (BitVec.eq_of_toNat_eq ((toNat_entry_counts_input s x).trans (List.count_eq_zero.mpr hx)))

theorem length_presentSymbols_input (s : State) :
    (presentSymbols (counts s.input)).length = symbols.countP (fun x => decide (x ∈ s.input)) := by
  rw [← countP_present]
  exact List.countP_congr fun x _ => by rw [decide_eq_true_iff, decide_eq_true_iff, entry_counts_input_ne_zero_iff]

/-- An absent byte value keeps the alphabet from overflowing (R185). -/
theorem length_presentSymbols_ne_of_absent {s : State} {x : Byte} (h : x ∉ s.input) :
    (presentSymbols (counts s.input)).length ≠ 256 := fun hfull =>
  h (entry_counts_input_ne_zero_iff.mp (length_presentSymbols_eq.mp hfull x))

/-- COMPRESS that does not overflow is ENCODE with the table of its input (R255). -/
theorem exec_compress_of_le {s : State} (hin : s.inLen.toNat ≤ s.params.inCap)
    (hne : (presentSymbols (counts s.input)).length ≠ 256) : exec .compress s = exec .encode (s.tablesOf s.input) := by
  have hencode : runCompress s = runEncode (s.tablesOf s.input) := by
    rw [runCompress_of_le hin, if_neg hne]
    exact (ifInRange_of_le (s := s.tablesOf s.input) hin encodeBody).symm
  exact congrArg finish hencode

/-- Codes of 24 bits at most take three bytes each (R203). -/
theorem length_payloadOf_ranksOf_le (s : State) : (payloadOf (ranksOf s.input)).length ≤ 24 * s.inLen.toNat := by
  have hle : ∀ r ∈ ranksOf s.input, r ≤ 255 := fun r hr =>
    Nat.le_of_lt_succ ((lt_of_mem_ranksOf hr).trans_le (length_presentSymbols_le _))
  have hlen : (ranksOf s.input).length = s.inLen.toNat := by rw [ranksOf, List.length_map, length_input]
  exact hlen ▸ length_payloadOf_le hle

/-! ### The statements -/

/-- Settles O30: NOP's pseudocode is its completion. -/
theorem nopOnlySetsStatus : Obligations.NopOnlySetsStatus := fun _ => rfl

/-- Settles O50: each composite's pseudocode branches on its sub-commands' codes, and STATUS passes nothing on between them. -/
theorem compositesAreTheirSubCommands : Obligations.CompositesAreTheirSubCommands := fun s =>
  ⟨exec_compress_eq_subCommands s, exec_decompress_eq_subCommands s⟩

/-- Settles O48: the table ranks the whole input, and its codes fit, so ENCODE writes them all. -/
theorem compressCompletes : Obligations.CompressCompletes := by
  intro s absent hp hin habsent hcap
  have hne := length_presentSymbols_ne_of_absent habsent
  have hk : (s.tablesOf s.input).k.toNat = (presentSymbols (counts s.input)).length := toNat_ofNat_length_presentSymbols hne
  have hsize := length_payloadOf_ranksOf_le s
  have hfits : 1 + (s.tablesOf s.input).k.toNat + ((payloadOf (ranksOf s.input)).length + 7) / 8 ≤ s.params.outCap := by
    have := (s.tablesOf s.input).k.isLt
    omega
  obtain ⟨t, ht, hlen, hwbase, hwbits, hcount, -, -, -, -, hframe⟩ :=
    encodeWritesTheCompressedRepresentation (s.tablesOf s.input) (ranksOf s.input) hp hin (map_symbolRanks_input s) hfits
  have hfreq : t.freq = counts s.input := (congrArg State.freq hframe :)
  have htk : t.k = (s.tablesOf s.input).k := (congrArg State.k hframe :)
  refine ⟨t, (exec_compress_of_le hin hne).trans ht, fun x => ?_, ?_, ?_, ?_, ?_, ?_⟩
  · rw [hfreq, toNat_entry_counts_input]
  · rw [htk, hk, length_presentSymbols_input]
  · rw [htk, hcount]
  · rw [htk, hwbase]
  · rw [htk, hlen, hwbits]
  · rw [hframe]; rfl

/-- Settles O57: DECODE runs with the table of the header, whose symbols it recovers. -/
theorem decompressRecoversTheEncodedSymbols : Obligations.DecompressRecoversTheEncodedSymbols := by
  intro s rs rest hp hin hheader hempty horig hlen hrs hbits hrest
  have hdecode := exec_decompress_of_header hin hheader hempty
  have hbelow (r : Nat) (hr : r ∈ rs) : (BitVec.ofNat 8 r).toNat = r :=
    toNat_ofNat_of_lt ((hrs r hr).trans (s.inByte 0).isLt)
  rw [← headerLoaded_k] at hheader hempty hrs hbits
  obtain ⟨t, ht, hOutLen, hsymbol, hother, hRbits, -, -, hframe⟩ :=
    decodeRecoversTheEncodedSymbols s.headerLoaded rs rest hp hin hheader hempty horig hlen hrs hbits hrest
  have hk : t.k = s.headerLoaded.k := (congrArg State.k hframe :)
  refine ⟨t, hdecode.trans ht, hOutLen, fun i hi => ?_, hother, hk.trans (headerLoaded_k s), hRbits, ?_⟩
  · have hr : rs[i] ∈ rs := List.getElem_mem hi
    have hlt := hrs _ hr
    rw [headerLoaded_k] at hlt
    rw [← hsymbol i hi, List.getElem?_eq_getElem hi, Option.map_some, Option.map_some, entry_headerLoaded_symtab,
      hbelow _ hr, if_pos hlt]
  · rw [hframe]; rfl

end Sys2Proof.Machine
end

section
/-! PROOFS. The error codes a command can complete with (60_exceptions.md R270, R275), and what the block holds at reset and
after a reset event (70_reset_and_hazards.md R300 to R302). -/

namespace Sys2Proof.Machine

/-! ### The codes of a command's pseudocode (R270, R275) -/

/-- The payload loop of an input whose bytes all have ranks can fail only at the end of OUTBUF (R200). -/
theorem encodePayload_err_of_ranked {xs : List Byte} {rs : List Nat} {s : State}
    (hranks : xs.map (fun x => (Table.entry s.ranktab x).map BitVec.toNat) = rs.map some) :
    (encodePayload xs s).err ∈ [ErrCode.ok, .capacity] := by
  rw [← List.append_nil xs, encodePayload_append [] xs rs s hranks]
  split
  · exact List.mem_cons_self
  · exact List.mem_cons_of_mem _ List.mem_cons_self

/-- COMPRESS ranks every byte of its input before ENCODE runs, so INTERNAL_INVARIANT is not among its codes (R255). -/
theorem runCompress_err (s : State) : (runCompress s).err ∈ [ErrCode.ok, .range, .alphabetOverflow, .capacity] := by
  rcases Nat.lt_or_ge s.params.inCap s.inLen.toNat with hrange | hin
  · rw [runCompress_of_lt hrange]
    simp
  rw [runCompress_of_le hin]
  split
  · simp
  · have hloop : (encodePayload s.input (encodeStart (s.tablesOf s.input))).err ∈ [ErrCode.ok, .capacity] :=
      encodePayload_err_of_ranked (map_symbolRanks_input s)
    have hsub : [ErrCode.ok, .capacity] ⊆ [.ok, .range, .alphabetOverflow, .capacity] := by decide
    exact hsub hloop

/-- BUILD_DEC's codes are among DECODE's (R256). -/
theorem runDecompress_err (s : State) :
    (runDecompress s).err ∈ [ErrCode.ok, .range, .invalidHeader, .capacity, .truncatedStream, .unresolvedCycle] := by
  rw [runDecompress_eq]
  split
  · exact List.mem_append_left [.capacity, .truncatedStream, .unresolvedCycle] (runBuildDec_err s)
  · exact runDecode_err _

theorem afterAppend_err (r : State × Bool) : (afterAppend r).err ∈ [ErrCode.ok, .capacity] := by
  obtain ⟨u, ok⟩ := r
  cases ok with
  | false => exact List.mem_cons_of_mem _ List.mem_cons_self
  | true => exact List.mem_cons_self

theorem getbit_err (idx : Nat) (s : State) : (ifInRange s (getbitBody idx)).err ∈ [ErrCode.ok, .range] := by
  simp only [ifInRange, getbitBody]
  split_ifs <;> simp

/-- A command completes with the code of its pseudocode (R134). -/
theorem err_mem_of_finish {r : Run} {t : State} {codes : List ErrCode} (ht : finish r = .next t) (h : r.err ∈ codes) :
    t.err ∈ codes := by
  obtain rfl : complete r.err r.state = t := Host.Outcome.next.inj ht
  exact h

/-! ### The reset state (R300) -/

theorem resetWith_tables (p : Config.Params) (resets accepts : Nat) (queue : List HostOp) (x : Byte) :
    Table.entry (State.resetWith p resets accepts queue).freq x = 0 ∧
    Table.entry (State.resetWith p resets accepts queue).symtab x = 0 ∧
    Table.entry (State.resetWith p resets accepts queue).ranktab x = none :=
  ⟨entry_replicate 0 x, entry_replicate 0 x, entry_replicate none x⟩

/-- No byte of a buffer is written yet, so each reads as the draw of this reset. -/
theorem resetWith_buffers (p : Config.Params) (resets accepts : Nat) (queue : List HostOp) (n : Nat) :
    (State.resetWith p resets accepts queue).inByte n = Config.inbufDraw resets n ∧
    (State.resetWith p resets accepts queue).outByte n = Config.outbufDraw resets n := ⟨rfl, rfl⟩

/-! ### The statements -/

/-- Settles O12: a command completes with its pseudocode's code, and the codes of each pseudocode are known. -/
theorem commandsRaiseOnlyTheirCodes : Obligations.CommandsRaiseOnlyTheirCodes := by
  intro i s t ht
  cases i with
  | nop => exact err_mem_of_finish ht List.mem_cons_self
  | freq => exact err_mem_of_finish ht (runFreq_err s)
  | buildEnc => exact err_mem_of_finish ht (runBuildEnc_err s)
  | encode => exact err_mem_of_finish ht (runEncode_err s)
  | buildDec => exact err_mem_of_finish ht (runBuildDec_err s)
  | decode => exact err_mem_of_finish ht (runDecode_err s)
  | compress => exact err_mem_of_finish ht (runCompress_err s)
  | decompress => exact err_mem_of_finish ht (runDecompress_err s)
  | putbit b => exact err_mem_of_finish ht (afterAppend_err (appendBits [b] s))
  | putcycle m j => exact err_mem_of_finish ht (afterAppend_err (appendCycle m j s))
  | getbit idx => exact err_mem_of_finish ht (getbit_err idx s)
  | rank2mj rank => exact err_mem_of_finish ht List.mem_cons_self
  | mj2rank m j => exact err_mem_of_finish ht List.mem_cons_self

/-- Settles O13: the suggested capacities are legal, and every reset state with legal capacities meets the invariant. -/
theorem resetMeetsTheMachineInvariant : Obligations.ResetMeetsTheMachineInvariant :=
  inv_resetWith (p := Config.suggested) (by decide) 0 0 []

/-- Settles O15: the registers stand in the definition; the tables and the buffers are those of every reset state. -/
theorem resetStateIsAsSpecified : Obligations.ResetStateIsAsSpecified :=
  ⟨rfl, rfl, rfl, rfl, rfl, rfl, rfl, rfl, rfl, rfl, rfl, rfl, rfl,
    resetWith_tables Config.suggested 0 0 [], resetWith_buffers Config.suggested 0 0 [], rfl⟩

/-- Settles O16: the turn ends in a reset state of the same capacities, one reset later, whatever the block was doing. -/
theorem resetEventRestoresTheResetState : Obligations.ResetEventRestoresTheResetState := by
  intro s rest he hq
  exact ⟨resetEvent (s.hostReady rest), step_reset he hq, rfl, rfl, rfl, rfl, rfl, rfl, rfl, rfl, rfl, rfl, rfl, rfl, rfl, rfl,
    rfl, resetWith_tables s.params (s.resets + 1) s.accepts rest, resetWith_buffers s.params (s.resets + 1) s.accepts rest,
    rfl, rfl⟩

end Sys2Proof.Machine
end
